-- ==== Sys2Proof/Word.lean ====
section
/-! DEFINITION. The values that travel through the block: bytes, sparse byte stores, frame records, and the
raw words that arrive at its ports (spec 00 R9 to R11, 30 R70 to R72, R80, R84). A buffer handle is a `Nat`: its bound
`N` (00 R9) is a parameter, so the bound is an invariant and not a type. -/

namespace Sys2Proof

/-- An unsigned byte (00 R10). -/
abbrev Byte := BitVec 8

/-- A sparse byte store: `(index, byte)` cells with strictly rising indexes. An index that is not listed holds no
value (20 R52: an unwritten cell is not a value). -/
abbrev Memory := List Host.Cell

/-- A frame as the rules write it (30 R80): the `DLC` data bytes are the list `data`. -/
structure Frame where
  id   : BitVec 29
  ide  : Bool
  rtr  : Bool
  data : List Byte
deriving DecidableEq, Repr

/-- A frame record as a port carries it, field by field (30 R80): header bit 31 is `rsv`, and `data` is all 64 bits. -/
structure FrameRecord where
  rsv  : Bool
  ide  : Bool
  rtr  : Bool
  id   : BitVec 29
  dlc  : BitVec 4
  data : BitVec 64
deriving DecidableEq, Repr

/-- Who performs a step (00 R17; `platform` gives RESET, 30 R70; `unit` is a unit of the block that issues an arbiter
request, 30 R71, R85). -/
inductive Agent where
  | foreground
  | interrupt
  | transport
  | platform
  | unit
deriving DecidableEq, Repr

/-- The lines of the block's input ports (30 R70, R71). `sel` names the port the input arrives on; the lines of the
other ports are then not read. `src` holds the bytes that follow a command word (30 R77). -/
structure PortLines where
  sel  : BitVec 2
  cmd  : BitVec 32 := 0
  src  : List Byte := []
  fh   : BitVec 32 := 0
  dlc  : BitVec 4  := 0
  data : BitVec 64 := 0
deriving DecidableEq, Repr

/-- One input: words on a port of the block, or a request word on the arbiter's own line (30 R84; internal to the
block, R71: it stands here so that the arbiter can be run alone, 40 R106). -/
inductive Input where
  | port (p : PortLines)
  | arb  (req : BitVec 16)
deriving DecidableEq, Repr

end Sys2Proof
end

