-- ==== Sys2Proof/Syntax.lean ====
section
/-! DEFINITION. The closed alphabet of inputs and arbiter requests (spec 00 R2, opcode_table.json): one constructor per
row of the table. -/

namespace Sys2Proof

/-- One input or arbiter request, decoded. -/
inductive Instr where
  /-- INIT (44 R185). -/
  | init
  /-- WRITE (43 R160): `count` and the bytes that followed the command word (30 R77). -/
  | write (count : BitVec 28) (src : List Byte)
  /-- GET_LINE (42 R140). -/
  | getLine
  /-- READ (42 R142): the caller's capacity. -/
  | read (cap : BitVec 28)
  /-- LINE_BYTE (42 R144): the index into the checked-out line. -/
  | lineByte (i : BitVec 28)
  /-- ILLEGAL_CMD (44 R189): a command word that decodes to no command. -/
  | illegalCmd (op : BitVec 4) (arg : BitVec 28)
  /-- RX_FRAME (41 R129): the record on the receive port, well formed or not (30 R81). -/
  | rxFrame (f : FrameRecord)
  /-- TX_ACCEPT (43 R165). -/
  | txAccept
  /-- RESET (70 R230). -/
  | reset
  /-- ACQUIRE (40 R101). -/
  | acquire
  /-- PUBLISH (40 R103). -/
  | publish (h : BitVec 13)
  /-- RELEASE (40 R102). -/
  | release (h : BitVec 13)
  /-- TAKE_READY (40 R104). -/
  | takeReady
  /-- RECYCLE_FETCH (40 R105). -/
  | recycleFetch
  /-- ARB_RESERVED (40 R106): a reserved request word. -/
  | arbReserved (aop : BitVec 3) (h : BitVec 13)
deriving DecidableEq, Repr

end Sys2Proof
end

