-- ==== Sys2Proof/WellFormed.lean ====
section
/-! DEFINITION. Which terms of `Instr` stand for words of the spec: what the types do not already say. -/

namespace Sys2Proof

/-- 30 R89: the command words that decode to no command. -/
def reservedCmd (op : BitVec 4) (arg : BitVec 28) : Bool :=
  match op.toNat with
  | 1 => decide (arg ≠ 0)
  | 2 => false
  | 3 => decide (arg ≠ 0)
  | 4 => false
  | 5 => false
  | _ => true

/-- 40 R106, 30 R89: the reserved request words, less the clause `H >= N`, which depends on the configuration and is
checked where PUBLISH and RELEASE are performed (log entry 11). -/
def reservedArb (aop : BitVec 3) (h : BitVec 13) : Bool :=
  match aop.toNat with
  | 0 => decide (h ≠ 0)
  | 1 => false
  | 2 => false
  | 3 => decide (h ≠ 0)
  | 4 => decide (h ≠ 0)
  | _ => true

/-- A term is well formed when the words it stands for exist: WRITE is followed by exactly `count` bytes (30 R77,
R90), and the two reserved forms hold a reserved word. A malformed frame record is an input (30 R81), so it is no
ill-formed term. -/
def WellFormed (i : Instr) : Bool :=
  match i with
  | .init => true
  | .write count src => decide (src.length = count.toNat)
  | .getLine => true
  | .read _ => true
  | .lineByte _ => true
  | .illegalCmd op arg => reservedCmd op arg
  | .rxFrame _ => true
  | .txAccept => true
  | .reset => true
  | .acquire => true
  | .publish _ => true
  | .release _ => true
  | .takeReady => true
  | .recycleFetch => true
  | .arbReserved aop h => reservedArb aop h

end Sys2Proof
end

