-- ==== Sys2Proof/Decode.lean ====
section
/-! DEFINITION. The decoders of the ports (spec 30 R71 to R74, R93, R80, R84, R85), total on every word: an illegal
command word decodes to `illegalCmd`, a reserved request to `arbReserved`. After them the encoder, from the same
tables, and the numbering of spec/opcode_table.json. -/

namespace Sys2Proof

/-- The byte `i` of a 64-bit DATA word, bits `[8i+7:8i]` (30 R80). -/
def dataByte (data : BitVec 64) (i : Nat) : Byte :=
  data.extractLsb' (8 * i) 8

/-- 30 R93: the command decoder. `src` are the bytes that follow on the port; a WRITE takes the first `ARG` of them
(30 R77). -/
def decodeCmd (w : BitVec 32) (src : List Byte) : Instr :=
  let op : BitVec 4 := w.extractLsb' 28 4
  let arg : BitVec 28 := w.extractLsb' 0 28
  match op.toNat with
  | 1 => if arg = 0 then .init else .illegalCmd op arg
  | 2 => .write arg (src.take arg.toNat)
  | 3 => if arg = 0 then .getLine else .illegalCmd op arg
  | 4 => .read arg
  | 5 => .lineByte arg
  | _ => .illegalCmd op arg

/-- 30 R80: the fields of a frame record. -/
def decodeFrame (fh : BitVec 32) (dlc : BitVec 4) (data : BitVec 64) : FrameRecord :=
  { rsv := fh.getLsbD 31, ide := fh.getLsbD 30, rtr := fh.getLsbD 29, id := fh.extractLsb' 0 29, dlc := dlc, data := data }

/-- 30 R84, R85, 40 R106: the arbiter's decoder. -/
def decodeArb (w : BitVec 16) : Instr :=
  let aop : BitVec 3 := w.extractLsb' 13 3
  let h : BitVec 13 := w.extractLsb' 0 13
  match aop.toNat with
  | 0 => if h = 0 then .acquire else .arbReserved aop h
  | 1 => .publish h
  | 2 => .release h
  | 3 => if h = 0 then .takeReady else .arbReserved aop h
  | 4 => if h = 0 then .recycleFetch else .arbReserved aop h
  | _ => .arbReserved aop h

/-- 30 R71: the input selector; no value of it is reserved. -/
def decodePort (p : PortLines) : Instr :=
  match p.sel.toNat with
  | 0 => decodeCmd p.cmd p.src
  | 1 => .rxFrame (decodeFrame p.fh p.dlc p.data)
  | 2 => .txAccept
  | _ => .reset

/-- The instruction an input stands for. -/
def decode (x : Input) : Instr :=
  match x with
  | .port p => decodePort p
  | .arb w => decodeArb w

/-- The agent whose step an input is (30 R70, R71): the selector names it. -/
def Input.agent (x : Input) : Agent :=
  match x with
  | .port p =>
    match p.sel.toNat with
    | 0 => .foreground
    | 1 => .interrupt
    | 2 => .transport
    | _ => .platform
  | .arb _ => .unit

/-- 30 R71: whether the input arrives at a port of the block (arbiter requests never do). -/
def Input.isPort (x : Input) : Bool :=
  match x with
  | .port _ => true
  | .arb _ => false

/-- The command word `{OP, ARG}` (30 R72). -/
def cmdWord (op : BitVec 4) (arg : BitVec 28) : BitVec 32 := op ++ arg

/-- The header word of a frame record (30 R80). -/
def frameHeader (rsv ide rtr : Bool) (id : BitVec 29) : BitVec 32 :=
  BitVec.ofBool rsv ++ BitVec.ofBool ide ++ BitVec.ofBool rtr ++ id

/-- The request word `{AOP, H}` (30 R84). -/
def arbWord (aop : BitVec 3) (h : BitVec 13) : BitVec 16 := aop ++ h

/-- A command on the command port. -/
def cmdInput (op : BitVec 4) (arg : BitVec 28) (src : List Byte) : Input :=
  .port { sel := 0, cmd := cmdWord op arg, src := src }

/-- A record on the receive port. -/
def rxInput (f : FrameRecord) : Input :=
  .port { sel := 1, fh := frameHeader f.rsv f.ide f.rtr f.id, dlc := f.dlc, data := f.data }

/-- The words of an instruction (30 R71 to R74, R80, R84, R85). -/
def encode (i : Instr) : Input :=
  match i with
  | .init => cmdInput 1 0 []
  | .write count src => cmdInput 2 count src
  | .getLine => cmdInput 3 0 []
  | .read cap => cmdInput 4 cap []
  | .lineByte i => cmdInput 5 i []
  | .illegalCmd op arg => cmdInput op arg []
  | .rxFrame f => rxInput f
  | .txAccept => .port { sel := 2 }
  | .reset => .port { sel := 3 }
  | .acquire => .arb (arbWord 0 0)
  | .publish h => .arb (arbWord 1 h)
  | .release h => .arb (arbWord 2 h)
  | .takeReady => .arb (arbWord 3 0)
  | .recycleFetch => .arb (arbWord 4 0)
  | .arbReserved aop h => .arb (arbWord aop h)

/-- The agent that issues an instruction, as the tables of 30 R71 and R85 name it. -/
def issuer (i : Instr) : Agent :=
  match i with
  | .init => .foreground
  | .write _ _ => .foreground
  | .getLine => .foreground
  | .read _ => .foreground
  | .lineByte _ => .foreground
  | .illegalCmd _ _ => .foreground
  | .rxFrame _ => .interrupt
  | .txAccept => .transport
  | .reset => .platform
  | .acquire => .unit
  | .publish _ => .unit
  | .release _ => .unit
  | .takeReady => .unit
  | .recycleFetch => .unit
  | .arbReserved _ _ => .unit

/-- The input whose bits, numbered as spec/opcode_table.json numbers them, are `w`: a 32-bit command word (with, for a
WRITE, its `ARG` source bytes all zero), a 16-bit request word, or the 2-bit selector in a byte (every payload line
zero). No other width stands in the table. -/
def inputOfTableWord (nbits w : Nat) : Option Input :=
  match nbits with
  | 32 =>
    if w < 2 ^ 32 then
      let c := BitVec.ofNat 32 w
      let arg := w % 2 ^ 28
      some (.port { sel := 0, cmd := c, src := if w / 2 ^ 28 = 2 then List.replicate arg 0 else [] })
    else none
  | 16 => if w < 2 ^ 16 then some (.arb (BitVec.ofNat 16 w)) else none
  | 8 => if w < 4 then some (.port { sel := BitVec.ofNat 2 w }) else none
  | 2 => if w < 4 then some (.port { sel := BitVec.ofNat 2 w }) else none
  | _ => none

/-- What the decoder reads from a word of the table. -/
def decodeTableWord (nbits w : Nat) : Option Instr :=
  match inputOfTableWord nbits w with
  | some x => some (decode x)
  | none => none

end Sys2Proof
end

