-- ==== Sys2Proof/Config.lean ====
section
/-! DEFINITION. What an implementation fixes: the configuration registers (spec 00 R7, R8; 10 R34) and the one free
value, the transport's answer to INIT (44 R186). -/

namespace Sys2Proof

/-- The configuration registers, read-only for the whole run (10 R34). The derived flags RX_EXT and TX_EXT are
`Config.rxExt` and `Config.txExt`. -/
structure Config where
  /-- `N`, the number of line buffers. -/
  n     : Nat
  /-- `C`, the capacity of one line buffer in bytes. -/
  c     : Nat
  /-- `P`, the most data bytes of an outbound frame. -/
  p     : Nat
  /-- `RX_ID`, the inbound identifier (29 bits: `0..0x1FFFFFFF`). -/
  rxId  : BitVec 29
  /-- `TX_ID`, the outbound identifier. -/
  txId  : BitVec 29
  /-- `TERM`, the line terminator. -/
  term  : Byte
  /-- `EOS`, the end-of-stream marker: OPEN in the spec (92 D8), any byte here. -/
  eos   : Byte
  /-- `RX_MAX`, the most data bytes of an inbound frame. -/
  rxMax : Nat
deriving DecidableEq, Repr

/-- 00 R7, R8: the bounds a configuration must keep. One that breaks them is refused as a whole (60 R207). The
identifiers' bound is their width. -/
def Config.valid (g : Config) : Bool :=
  decide (1 ≤ g.n) && decide (g.n ≤ 8192)
    && decide (1 ≤ g.c) && decide (g.c ≤ 2 ^ 24 - 1)
    && decide (1 ≤ g.p) && decide (g.p ≤ 8)
    && decide (g.term = 0x0A#8) && decide (g.rxMax = 8)

/-- The test configuration of spec 95 with the source's `N = 2`, `C = 16` (00 R7). DESIGN CHOICE (log entry 2): the
configuration of `State.reset`; no statement rests on it. -/
def Config.test : Config :=
  { n := 2, c := 16, p := 8, rxId := 0x123#29, txId := 0x321#29, term := 0x0A#8, eos := 0x00#8, rxMax := 8 }

/-- The free value of INIT's outcome (44 R186: a draw `0..255` under no law), the `k`-th draw. It has no body: nothing
is known of it (log entry 5). -/
opaque Config.initDraw : Nat → Byte

end Sys2Proof
end

