-- ==== Sys2Proof/Machine/State.lean ====
section
/-! DEFINITION. The block's state (spec 10 R20 and R34), the ports around it, the reasons a step can stop, and the
state after reset (10 R45, 70 R231). -/

namespace Sys2Proof.Machine

open Sys2Proof

/-- The control state (10 R23). -/
inductive Phase where
  | uninit
  | running
  | failed
deriving DecidableEq, Repr

/-- One line buffer (10 R24): its written cells and its length field. -/
structure LineBuffer where
  data : Memory := []
  len  : Option Nat := none
deriving DecidableEq, Repr

/-- The state of the outbound chunker (10 R30): the source snapshot, the end-of-stream cut and the index of the chunk
on offer. -/
inductive TxState where
  | idle
  | busy (src : List Byte) (cut : Nat) (k : Nat)
deriving DecidableEq, Repr

/-- The error events of the event output (30 R83). -/
inductive Event where
  /-- Code `0x01`, a failed ACQUIRE of the assembler (60 R201). -/
  | poolExhausted
deriving DecidableEq, Repr

/-- The spec's closed list of fault reasons (60 R206), the values of the sticky mark. -/
inductive FaultReason where
  | illegalCommand
  | notRunning
  | reInit
  | noLineData
  | arbiterMisuse
  | unwrittenRead
  | malformedFrame
deriving DecidableEq, Repr

/-- The machine: the spec's state record (10 R20), the configuration registers (10 R34), and the model's own port
fields, which the spec keeps outside the record. -/
structure State where
  /-- 10 R34: the configuration registers, fixed for the whole run. -/
  cfg    : Config
  /-- 10 R23. -/
  phase  : Phase
  /-- 10 R24: the `N` line buffers by handle. -/
  buf    : List LineBuffer
  /-- 10 R25: AvailableQueue, head first. -/
  availQ : List Nat
  /-- 10 R26: ReadyQueue, head first. -/
  readyQ : List Nat
  /-- 10 R27: the buffer the interrupt context is filling. -/
  cur    : Option Nat
  /-- 10 R28: the bytes written so far into it. -/
  cursor : Nat
  /-- 10 R29: the checked-out buffer. -/
  out    : Option Nat
  /-- 10 R30: the outbound chunker. -/
  tx     : TxState
  /-- 10 R31: the frames the transport accepted, oldest first. -/
  txLog  : List Frame
  /-- 10 R32: the error events emitted, oldest first. -/
  evLog  : List Event
  /-- 10 R33: the sticky fault mark. -/
  fault  : Option FaultReason
  /-- The response words returned (30 R75, 70 R249), oldest first (log entry 6). -/
  rspLog : List (BitVec 64)
  /-- The bytes of the caller's read destination (20 R55, 30 R78) as READs left them (log entry 6). -/
  dst    : Memory
  /-- The replies to requests on the arbiter's own line (30 R87), oldest first (log entry 10). -/
  arbLog : List (BitVec 16)
  /-- The inputs that wait at the ports, oldest first (30 R70, log entry 1). -/
  inputs : List Input
  /-- The transport's answers to the coming INITs where they are known (44 R186, log entry 5). -/
  initAnswers : List Byte
  /-- How many answers were drawn from `Config.initDraw` (log entry 5). -/
  draws  : Nat
deriving DecidableEq, Repr

/-- Why a step has no next state. -/
inductive Fault where
  /-- Every meaning and `step`, once the sticky mark holds `r`: no input has a step any more (60 R205, 92 D35). Safe:
  the model stops for good. -/
  | faulted (r : FaultReason)
  /-- A meaning performed in a state where its input has no step (43 R165, R170; 44 R188), or a WRITE with a number of
  source bytes other than `count` (30 R77; log entry 9). `step` never answers it: it leaves such an input waiting. Safe:
  the model claims nothing about such a state. -/
  | notEnabled (a : Agent)
deriving DecidableEq, Repr

/-- Why there is no run, or no meaning. -/
inductive Refusal where
  /-- An arm of `exec` that has no meaning yet. Safe. -/
  | notModelled (mnemonic : String)
  /-- `step`, on a configuration outside 00 R8's bounds: refused as a whole (60 R207). Safe. -/
  | invalidConfig
deriving DecidableEq, Repr

/-- 10 R45, 70 R231: the initial state `S0` of a run under the configuration `g`, with nothing at the ports. -/
def State.resetOf (g : Config) : State :=
  { cfg := g
    phase := .uninit
    buf := List.replicate g.n {}
    availQ := List.range g.n
    readyQ := []
    cur := none
    cursor := 0
    out := none
    tx := .idle
    txLog := []
    evLog := []
    fault := none
    rspLog := []
    dst := []
    arbLog := []
    inputs := []
    initAnswers := []
    draws := 0 }

/-- The state after reset under the spec's test configuration (log entry 2). -/
def State.reset : State := State.resetOf Config.test

end Sys2Proof.Machine
end

