-- ==== Sys2Proof/Machine/Flags.lean ====
section
/-! DEFINITION. The words the block returns and the flags in them: response words with STATUS, NL and HV (spec 30 R75,
10 R35), arbiter replies (30 R87), event and fault codes (30 R83, 60 R206). -/

namespace Sys2Proof.Machine

open Sys2Proof

/-- 30 R75: the response word from its fields, the reserved bits zero. -/
def rspWord (status : BitVec 8) (nl hv : Bool) (handle : BitVec 13) (byte : BitVec 8) (count : BitVec 28) : BitVec 64 :=
  status ++ BitVec.ofBool nl ++ BitVec.ofBool hv ++ handle ++ 0#4 ++ byte ++ 0#1 ++ count

/-- INIT's response: STATUS alone (44 R185, R190). -/
def rspStatus (st : Byte) : BitVec 64 := rspWord st false false 0 0 0

/-- WRITE's response: the all-zero word (43 R160, R167). -/
def rspZero : BitVec 64 := rspWord 0 false false 0 0 0

/-- GET_LINE's response when no line is available (42 R140): no newline flag, length 0. -/
def rspNoLine : BitVec 64 := rspWord 0 false false 0 0 0

/-- GET_LINE's response with the line in buffer `h` of length `len` (42 R140): newline present. -/
def rspLine (h : Nat) (len : Nat) : BitVec 64 :=
  rspWord 0 true true (BitVec.ofNat 13 h) 0 (BitVec.ofNat 28 len)

/-- READ's response when no line is available (42 R142). -/
def rspReadNone : BitVec 64 := rspWord 0 false false 0 0 0

/-- READ's response after `n` bytes were copied (42 R142): newline present, bytes_written. -/
def rspRead (n : Nat) : BitVec 64 := rspWord 0 true false 0 0 (BitVec.ofNat 28 n)

/-- LINE_BYTE's response (42 R144). -/
def rspByte (b : Byte) : BitVec 64 := rspWord 0 false false 0 b 0

/-- 30 R87: the reply word `{V, 00, H}`. -/
def arbReply (v : Bool) (h : BitVec 13) : BitVec 16 := BitVec.ofBool v ++ 0#2 ++ h

/-- 30 R87: the reply that grants or hands over a handle, or `V = 0`. -/
def arbReplyHandle (r : Option Nat) : BitVec 16 :=
  match r with
  | some h => arbReply true (BitVec.ofNat 13 h)
  | none => arbReply false 0

/-- 30 R87: the acknowledge of PUBLISH and RELEASE. -/
def arbAck : BitVec 16 := arbReply true 0

/-- 30 R83: the code on the event output. -/
def eventCode (e : Event) : BitVec 8 :=
  match e with
  | .poolExhausted => 0x01#8

/-- 60 R206: the number of a fault reason; it appears at no port. -/
def faultCode (r : FaultReason) : Nat :=
  match r with
  | .illegalCommand => 1
  | .notRunning => 2
  | .reInit => 3
  | .noLineData => 4
  | .arbiterMisuse => 5
  | .unwrittenRead => 6
  | .malformedFrame => 7

end Sys2Proof.Machine
end

