-- ==== Sys2Proof/Machine/Operands.lean ====
section
/-! DEFINITION. The operand forms: identifiers and addressing (spec 44 R180), receive records (30 R80, R81), the
identity filter (44 R181), the source of a WRITE and its chunks (43 R161 to R163). -/

namespace Sys2Proof.Machine

open Sys2Proof

/-- 44 R180: whether an identifier takes extended addressing. -/
def extId (id : BitVec 29) : Bool := decide (0x7FF < id.toNat)

/-- RX_EXT (44 R180, 10 R34). -/
def rxExt (g : Config) : Bool := extId g.rxId

/-- TX_EXT (44 R180, 10 R34). -/
def txExt (g : Config) : Bool := extId g.txId

/-- The first `n` data bytes of a DATA word, byte 0 first (30 R80, 20 R57). -/
def dataBytes (data : BitVec 64) (n : Nat) : List Byte :=
  (List.range n).map (dataByte data)

/-- 30 R80: the frame a record stands for. The data bits of bytes `i >= DLC` are ignored. -/
def frameOf (f : FrameRecord) : Frame :=
  { id := f.id, ide := f.ide, rtr := f.rtr, data := dataBytes f.data f.dlc.toNat }

/-- 30 R81: whether a transport can deliver the record. -/
def recordOk (g : Config) (f : FrameRecord) : Bool :=
  !f.rsv && decide (f.dlc.toNat ≤ g.rxMax) && (f.ide || !extId f.id)

/-- 44 R181: the identity filter. -/
def passesFilter (g : Config) (f : Frame) : Bool :=
  !f.rtr && (f.ide == rxExt g) && (f.id == g.rxId)

/-- 41 R121: the line terminator detector. -/
def isTerm (g : Config) (b : Byte) : Bool := b == g.term

/-- 00 R11: `ceil_div(a, b)`. -/
def ceilDiv (a b : Nat) : Nat := (a + b - 1) / b

/-- 00 R11: the sublist `q[a..b)`. -/
def sublist (q : List Byte) (a b : Nat) : List Byte := (q.take b).drop a

/-- 43 R161: the index of the first end-of-stream marker, or the number of bytes when there is none. -/
def eosCut (eos : Byte) (src : List Byte) : Nat :=
  match src with
  | [] => 0
  | b :: rest => if b = eos then 0 else eosCut eos rest + 1

/-- 43 R162: the number of chunks of `cut` bytes. -/
def chunkCount (g : Config) (cut : Nat) : Nat := ceilDiv cut g.p

/-- 43 R162: chunk `k` of the bytes `0..cut-1`. -/
def chunk (g : Config) (src : List Byte) (cut k : Nat) : List Byte :=
  sublist src (k * g.p) (min ((k + 1) * g.p) cut)

/-- 43 R163: the frame of chunk `k`. -/
def chunkFrame (g : Config) (src : List Byte) (cut k : Nat) : Frame :=
  { id := g.txId, ide := txExt g, rtr := false, data := chunk g src cut k }

/-- 43 R164: what the transmit port offers: a frame while Busy, nothing (valid flag clear) while Idle. -/
def offered (s : State) : Option Frame :=
  match s.tx with
  | .idle => none
  | .busy src cut k => some (chunkFrame s.cfg src cut k)

/-- The DATA word of a byte list, byte `i` at bits `[8i+7:8i]`, the bits past the last byte zero (30 R80). -/
def dataWord (bs : List Byte) : BitVec 64 :=
  match bs with
  | [] => 0
  | b :: rest => (dataWord rest <<< 8) ||| b.setWidth 64

/-- 30 R80: the record of a frame on the transmit port. -/
def recordOf (f : Frame) : FrameRecord :=
  { rsv := false, ide := f.ide, rtr := f.rtr, id := f.id
    dlc := BitVec.ofNat 4 f.data.length, data := dataWord f.data }

end Sys2Proof.Machine
end

