-- ==== Sys2Proof/Machine/Ops.lean ====
section
/-! DEFINITION. The named operations over byte stores, buffers and the state (spec 00 R13): reads and writes of cells,
raising a fault (60 R205), emitting an event (60 R203), responding (30 R75), the enabling conditions of the agents
(10 R23, 43 R165, R170, 44 R188), and picking the next input (60 R211). -/

namespace Sys2Proof.Machine

open Sys2Proof

/-! ### Byte stores -/

/-- The byte at index `a`, if one was written there. -/
def Memory.read (m : Memory) (a : Nat) : Option Byte :=
  match m with
  | [] => none
  | (x, y) :: rest => if x = a then some y else Memory.read rest a

/-- The store with byte `b` at index `a`, indexes kept rising. -/
def Memory.write (m : Memory) (a : Nat) (b : Byte) : Memory :=
  match m with
  | [] => [(a, b)]
  | (x, y) :: rest =>
    if a < x then (a, b) :: (x, y) :: rest
    else if a = x then (a, b) :: rest
    else (x, y) :: Memory.write rest a b

/-- Bytes written from index `a` on, in order. -/
def Memory.writeMany (m : Memory) (a : Nat) (bs : List Byte) : Memory :=
  match bs with
  | [] => m
  | b :: rest => Memory.writeMany (Memory.write m a b) (a + 1) rest

/-- The bytes at `a .. a+n-1`, if every one of them was written. -/
def Memory.readMany (m : Memory) (a n : Nat) : Option (List Byte) :=
  match n with
  | 0 => some []
  | n + 1 =>
    match Memory.read m a, Memory.readMany m (a + 1) n with
    | some b, some bs => some (b :: bs)
    | _, _ => none

/-- The canonical form: strictly rising indexes. -/
def Memory.wf (m : Memory) : Bool :=
  match m with
  | [] => true
  | [_] => true
  | (x, _) :: (y, v) :: rest => decide (x < y) && Memory.wf ((y, v) :: rest)

/-! ### Buffers -/

/-- Buffer `h` of the arena. A handle outside the arena names no buffer; it reads as one with nothing in it (log entry
12: no state that keeps I1 holds such a handle). -/
def State.bufAt (s : State) (h : Nat) : LineBuffer := s.buf.getD h {}

/-- The length field of buffer `h`. -/
def State.lenAt (s : State) (h : Nat) : Option Nat := (s.bufAt h).len

/-- 00 R13, 20 R52: `BufRead(h, i)`; `none` is an unwritten cell. -/
def State.bufRead (s : State) (h : Nat) (i : Nat) : Option Byte := Memory.read (s.bufAt h).data i

/-- Buffer `h` replaced by `f` of it. -/
def State.modifyBuf (s : State) (h : Nat) (f : LineBuffer → LineBuffer) : State :=
  { s with buf := s.buf.modify h f }

/-- 00 R13, 20 R51: `BufWrite(h, i, b)`; the caller guards `i < C`. -/
def State.bufWrite (s : State) (h : Nat) (i : Nat) (b : Byte) : State :=
  s.modifyBuf h fun x => { x with data := Memory.write x.data i b }

/-- `S.buf[h].len <- v`. -/
def State.setLen (s : State) (h : Nat) (v : Option Nat) : State :=
  s.modifyBuf h fun x => { x with len := v }

/-- Every cell of buffer `h` unwritten (40 R101, 92 D34). -/
def State.clearData (s : State) (h : Nat) : State :=
  s.modifyBuf h fun x => { x with data := [] }

/-! ### Outputs -/

/-- 60 R203: `emit Event(e)`. -/
def State.emit (s : State) (e : Event) : State := { s with evLog := s.evLog ++ [e] }

/-- 30 R75: `respond(r)`. -/
def State.respond (s : State) (r : BitVec 64) : State := { s with rspLog := s.rspLog ++ [r] }

/-- 30 R87: the reply on the arbiter's own line. -/
def State.reply (s : State) (r : BitVec 16) : State := { s with arbLog := s.arbLog ++ [r] }

/-! ### Faults

Taking the model's fault outcome (60 R205): the sticky mark takes the reason and no other field changes. Nothing is
saved, no mode changes and nothing returns from it: no input clears the mark. The one interrupt of the block (60 R209,
R212, R213) saves nothing on entry and restores nothing on return, so delivering a frame is the step RX_FRAME alone. -/

/-- The state with the sticky mark set. -/
def State.mark (s : State) (r : FaultReason) : State := { s with fault := some r }

/-- 60 R205: `raise Fault(r)` as the outcome of a step. -/
def raiseFault (r : FaultReason) (s : State) : Host.Outcome State Fault Refusal := .next (s.mark r)

/-- The outcome of an operation that either completes in a state or raises a fault; on a fault nothing but the mark
changes in the state `s` the step began in (00 R13). -/
def complete (s : State) (r : Except FaultReason State) : Host.Outcome State Fault Refusal :=
  match r with
  | .ok t => .next t
  | .error e => raiseFault e s

/-! ### Enabling conditions -/

/-- Whether the chunker is Idle. -/
def TxState.isIdle (t : TxState) : Bool :=
  match t with
  | .idle => true
  | .busy _ _ _ => false

/-- Whether the agent's inputs have a step (43 R165, R170; 44 R188; 70 R230; 60 R205). -/
def State.enabled (s : State) (a : Agent) : Bool :=
  s.fault.isNone &&
    match a with
    | .foreground => s.tx.isIdle
    | .interrupt => decide (s.phase = .running)
    | .transport => !s.tx.isIdle
    | .platform => true
    | .unit => true

/-- A meaning has a step only where its agent is enabled. -/
def whenEnabled (a : Agent) (s : State) (k : Host.Outcome State Fault Refusal) : Host.Outcome State Fault Refusal :=
  match s.fault with
  | some r => .fault (.faulted r)
  | none => if s.enabled a then k else .fault (.notEnabled a)

/-- 44 R187: the phase gate of WRITE, GET_LINE, READ and LINE_BYTE. -/
def whenRunning (s : State) (k : Host.Outcome State Fault Refusal) : Host.Outcome State Fault Refusal :=
  if s.phase = .running then k else raiseFault .notRunning s

/-! ### The next input -/

/-- 30 R77, R90: whether everything that belongs to the instruction has arrived at the port: a WRITE is a command word
and exactly `count` bytes behind it; no other input has a tail. -/
def sourceArrived (i : Instr) : Bool :=
  match i with
  | .init => true
  | .write count src => decide (src.length = count.toNat)
  | .getLine => true
  | .read _ => true
  | .lineByte _ => true
  | .illegalCmd _ _ => true
  | .rxFrame _ => true
  | .txAccept => true
  | .reset => true
  | .acquire => true
  | .publish _ => true
  | .release _ => true
  | .takeReady => true
  | .recycleFetch => true
  | .arbReserved _ _ => true

/-- Whether an input has a step: its agent is enabled, and a WRITE that gets past the phase gate (44 R187: the gate comes
before the command's own rule, which captures the source) has all its bytes (log entry 9). -/
def State.ready (s : State) (x : Input) : Bool :=
  s.enabled x.agent && (decide (s.phase ≠ .running) || sourceArrived (decode x))

/-- The first input that has a step and that no earlier input of its own agent waits before, and the inputs that go on
waiting (60 R211: an input without a step waits, the inputs of one agent keep their order). `passed` are the agents of
the inputs passed over so far. -/
def nextInput (s : State) (passed : List Agent) (xs : List Input) : Option (Input × List Input) :=
  match xs with
  | [] => none
  | x :: rest =>
    if s.ready x && decide (x.agent ∉ passed) then some (x, rest)
    else
      match nextInput s (x.agent :: passed) rest with
      | some (y, left) => some (y, x :: left)
      | none => none

/-- The next input of the block: the instruction it stands for and the state that goes on without it. -/
def fetch (s : State) : Option (Instr × State) :=
  match nextInput s [] s.inputs with
  | some (x, left) => some (decode x, { s with inputs := left })
  | none => none

/-- The least change after which the agent's inputs have a step: no fault mark, and the chunker idle (commands), the
callback attached (frames) or a frame on offer (accepts). Used by `State.withFetchWord` alone (log entry 17). -/
def State.readyFor (s : State) (a : Agent) : State :=
  if s.enabled a then s
  else
    match a with
    | .foreground => { s with fault := none, tx := .idle }
    | .interrupt => { s with fault := none, phase := .running }
    | .transport => { s with fault := none, tx := if s.tx.isIdle then .busy [s.cfg.eos + 1] 1 0 else s.tx }
    | .platform => { s with fault := none }
    | .unit => { s with fault := none }

end Sys2Proof.Machine
end

