-- ==== Sys2Proof/Machine/Pool.lean ====
section
/-! DEFINITION. The Line Buffer Pool and its arbiter (spec 40): the five requests as shared operations, which the Line
Assembler and the Line Reader issue, and the meanings of the request words on the arbiter's own line (40 R106, D4). -/

namespace Sys2Proof.Machine

open Sys2Proof

/-- 40 R101: ACQUIRE. `none` is PoolExhausted; the caller, not ACQUIRE, sets `cur`. -/
def acquire (s : State) : Option (Nat × State) :=
  match s.availQ with
  | [] => none
  | h :: rest => some (h, { s with availQ := rest }.clearData h)

/-- 40 R102: RELEASE, with the misuse of R106 (`H >= N`) and R107. -/
def release (h : Nat) (s : State) : Except FaultReason State :=
  if s.cfg.n ≤ h ∨ h ∈ s.availQ ∨ h ∈ s.readyQ ∨ s.cur = some h then .error .arbiterMisuse
  else .ok { s.setLen h none with availQ := s.availQ ++ [h] }

/-- 40 R103: PUBLISH, with the misuse of R106 and R107. -/
def publish (h : Nat) (s : State) : Except FaultReason State :=
  if s.cfg.n ≤ h ∨ s.cur ≠ some h ∨ s.lenAt h = none then .error .arbiterMisuse
  else .ok { s with readyQ := s.readyQ ++ [h] }

/-- 40 R104: TAKE_READY. `none` is "none"; the caller sets `out`. -/
def takeReady (s : State) : Option (Nat × State) :=
  match s.readyQ with
  | [] => none
  | h :: rest => some (h, { s with readyQ := rest })

/-- 40 R105: the deferred recycling that begins RECYCLE_FETCH. -/
def recycle (s : State) : Except FaultReason State :=
  match s.out with
  | none => .ok s
  | some h0 =>
    match release h0 s with
    | .error e => .error e
    | .ok t => .ok { t with out := none }

/-- 40 R105: RECYCLE_FETCH, the handle it takes and the state it leaves. -/
def recycleFetch (s : State) : Except FaultReason (Option Nat × State) :=
  match recycle s with
  | .error e => .error e
  | .ok t =>
    match takeReady t with
    | none => .ok (none, t)
    | some (h, u) => .ok (some h, { u with out := some h })

/-- ACQUIRE on the arbiter's line (40 R101, 30 R87). -/
def execAcquire (s : State) : Host.Outcome State Fault Refusal :=
  whenEnabled .unit s <|
    match acquire s with
    | none => .next (s.reply (arbReplyHandle none))
    | some (h, t) => .next (t.reply (arbReplyHandle (some h)))

/-- PUBLISH on the arbiter's line (40 R103, R107). -/
def execPublish (h : BitVec 13) (s : State) : Host.Outcome State Fault Refusal :=
  whenEnabled .unit s <|
    match publish h.toNat s with
    | .error e => raiseFault e s
    | .ok t => .next (t.reply arbAck)

/-- RELEASE on the arbiter's line (40 R102, R107). -/
def execRelease (h : BitVec 13) (s : State) : Host.Outcome State Fault Refusal :=
  whenEnabled .unit s <|
    match release h.toNat s with
    | .error e => raiseFault e s
    | .ok t => .next (t.reply arbAck)

/-- TAKE_READY on the arbiter's line (40 R104). -/
def execTakeReady (s : State) : Host.Outcome State Fault Refusal :=
  whenEnabled .unit s <|
    match takeReady s with
    | none => .next (s.reply (arbReplyHandle none))
    | some (h, t) => .next (t.reply (arbReplyHandle (some h)))

/-- RECYCLE_FETCH on the arbiter's line (40 R105). -/
def execRecycleFetch (s : State) : Host.Outcome State Fault Refusal :=
  whenEnabled .unit s <|
    match recycleFetch s with
    | .error e => raiseFault e s
    | .ok (r, t) => .next (t.reply (arbReplyHandle r))

/-- A reserved request word (40 R106): ArbiterMisuse, no reply. -/
def execArbReserved (_aop : BitVec 3) (_h : BitVec 13) (s : State) : Host.Outcome State Fault Refusal :=
  whenEnabled .unit s (raiseFault .arbiterMisuse s)

end Sys2Proof.Machine
end

