-- ==== Sys2Proof/Machine/Assembler.lean ====
section
/-! DEFINITION. The Line Assembler and its terminator detector (spec 41): RX_FRAME. -/

namespace Sys2Proof.Machine

open Sys2Proof

/-- 41 R122, R127: the claim of a buffer, `cur <- ACQUIRE()`; `none` on exhaustion. -/
def claim (s : State) : Option State :=
  match acquire s with
  | none => none
  | some (h, t) => some { t with cur := some h }

/-- 41 R124, R125: append `b` at the cursor of the claimed buffer `h`, or drop it when the buffer is full. -/
def appendByte (h : Nat) (b : Byte) (s : State) : State :=
  if s.cursor < s.cfg.c then { s.bufWrite h s.cursor b with cursor := s.cursor + 1 } else s

/-- 41 R126: write the length, PUBLISH, and let go of the buffer. -/
def endLine (h : Nat) (s : State) : Except FaultReason State :=
  match publish h (s.setLen h (some s.cursor)) with
  | .error e => .error e
  | .ok t => .ok { t with cur := none, cursor := 0 }

/-- 41 R124 to R126: one byte processed into the claimed buffer `h`. -/
def storeByte (h : Nat) (b : Byte) (s : State) : Except FaultReason State :=
  if isTerm s.cfg b then endLine h (appendByte h b s) else .ok (appendByte h b s)

/-- 41 R123 to R128: the data bytes of a frame in order. With no buffer claimed a terminator is dropped (R128) and any
other byte claims one, or ends the frame with POOL_EXHAUSTED (R127). -/
def assemble (bs : List Byte) (s : State) : Except FaultReason State :=
  match bs with
  | [] => .ok s
  | b :: rest =>
    match s.cur with
    | some h =>
      match storeByte h b s with
      | .error e => .error e
      | .ok t => assemble rest t
    | none =>
      if isTerm s.cfg b then assemble rest s
      else
        match acquire s with
        | none => .ok (s.emit .poolExhausted)
        | some (h, t) =>
          match storeByte h b { t with cur := some h } with
          | .error e => .error e
          | .ok u => assemble rest u

/-- 41 R122, R123: one frame that passed the filter: claim at the frame's start, then its bytes. -/
def assembleFrame (bs : List Byte) (s : State) : Except FaultReason State :=
  match s.cur with
  | some _ => assemble bs s
  | none =>
    match claim s with
    | none => .ok (s.emit .poolExhausted)
    | some t => assemble bs t

/-- 41 R129: RX_FRAME. Well-formedness precedes the filter (60 R211). -/
def execRxFrame (f : FrameRecord) (s : State) : Host.Outcome State Fault Refusal :=
  whenEnabled .interrupt s <|
    if recordOk s.cfg f then
      if passesFilter s.cfg (frameOf f) then complete s (assembleFrame (frameOf f).data s) else .next s
    else raiseFault .malformedFrame s

end Sys2Proof.Machine
end

