-- ==== Sys2Proof/Machine/Chunker.lean ====
section
/-! DEFINITION. The outbound frame chunker (spec 43): WRITE and TX_ACCEPT. -/

namespace Sys2Proof.Machine

open Sys2Proof

/-- 43 R160: a write over the snapshot `src`; with nothing before the end-of-stream marker it completes at once. -/
def startWrite (src : List Byte) (s : State) : State :=
  if eosCut s.cfg.eos src = 0 then s.respond rspZero else { s with tx := .busy src (eosCut s.cfg.eos src) 0 }

/-- 43 R165: the offered chunk `k` accepted: logged, and either the next one offered or the write completed. -/
def acceptChunk (src : List Byte) (cut k : Nat) (s : State) : State :=
  let t := { s with txLog := s.txLog ++ [chunkFrame s.cfg src cut k] }
  if k + 1 = chunkCount s.cfg cut then { t with tx := .idle }.respond rspZero
  else { t with tx := .busy src cut (k + 1) }

/-- WRITE (43 R160, 44 R187). Until exactly `count` bytes have followed the word there is no step (30 R77; log entry
9). -/
def execWrite (count : BitVec 28) (src : List Byte) (s : State) : Host.Outcome State Fault Refusal :=
  whenEnabled .foreground s <| whenRunning s <|
    if src.length = count.toNat then .next (startWrite src s) else .fault (.notEnabled .foreground)

/-- TX_ACCEPT (43 R165). -/
def execTxAccept (s : State) : Host.Outcome State Fault Refusal :=
  whenEnabled .transport s <|
    match s.tx with
    | .idle => .fault (.notEnabled .transport)
    | .busy src cut k => .next (acceptChunk src cut k s)

end Sys2Proof.Machine
end

