-- ==== Sys2Proof/Machine/Control.lean ====
section
/-! DEFINITION. INIT and illegal command words (spec 44), RESET (spec 70). -/

namespace Sys2Proof.Machine

open Sys2Proof

/-- 44 R186: the transport's outcome for start and registration, a free draw: the answer that waits at the port, or
else the next value of `Config.initDraw` (log entry 5). -/
def initOutcome (s : State) : Byte :=
  match s.initAnswers with
  | st :: _ => st
  | [] => Config.initDraw s.draws

/-- The state after the outcome was drawn. -/
def takeOutcome (s : State) : State :=
  match s.initAnswers with
  | _ :: rest => { s with initAnswers := rest }
  | [] => { s with draws := s.draws + 1 }

/-- 44 R185: the phase an outcome leads to. -/
def phaseAfterInit (st : Byte) : Phase := if st = 0 then .running else .failed

/-- INIT (44 R185, R187). -/
def execInit (s : State) : Host.Outcome State Fault Refusal :=
  whenEnabled .foreground s <|
    if s.phase = .uninit then
      .next ({ takeOutcome s with phase := phaseAfterInit (initOutcome s) }.respond (rspStatus (initOutcome s)))
    else raiseFault .reInit s

/-- An illegal command word (44 R189): in every phase. -/
def execIllegalCmd (_op : BitVec 4) (_arg : BitVec 28) (s : State) : Host.Outcome State Fault Refusal :=
  whenEnabled .foreground s (raiseFault .illegalCommand s)

/-- 70 R230: every field but `txLog`, `evLog` and `fault` to its reset value. The configuration is no state, and the
port fields lie outside the block (log entry 15). -/
def resetBlock (s : State) : State :=
  { s with
    phase := .uninit
    buf := List.replicate s.cfg.n {}
    availQ := List.range s.cfg.n
    readyQ := []
    cur := none
    cursor := 0
    out := none
    tx := .idle }

/-- RESET (70 R230). -/
def execReset (s : State) : Host.Outcome State Fault Refusal :=
  whenEnabled .platform s (.next (resetBlock s))

end Sys2Proof.Machine
end

