-- ==== Sys2Proof/Machine/Reader.lean ====
section
/-! DEFINITION. The Line Reader (spec 42): GET_LINE, READ, LINE_BYTE. A length or a cell that holds no value is read by
no run; where a state lets it happen, the read raises UnwrittenRead (20 R52, 93 U1, log entry 8). -/

namespace Sys2Proof.Machine

open Sys2Proof

/-- 42 R140: the line taken by RECYCLE_FETCH, answered by handle and length. -/
def getLine (s : State) : Except FaultReason State :=
  match recycleFetch s with
  | .error e => .error e
  | .ok (none, t) => .ok (t.respond rspNoLine)
  | .ok (some h, t) =>
    match t.lenAt h with
    | none => .error .unwrittenRead
    | some len => .ok (t.respond (rspLine h len))

/-- 42 R142: the first `n` bytes of buffer `h` copied to the destination (20 R55), then the response. -/
def copyOut (h : Nat) (n : Nat) (s : State) : Except FaultReason State :=
  match Memory.readMany (s.bufAt h).data 0 n with
  | none => .error .unwrittenRead
  | some bs => .ok ({ s with dst := Memory.writeMany s.dst 0 bs }.respond (rspRead n))

/-- 42 R142: READ, `min(len, cap)` bytes of the line taken by RECYCLE_FETCH. -/
def readLine (cap : Nat) (s : State) : Except FaultReason State :=
  match recycleFetch s with
  | .error e => .error e
  | .ok (none, t) => .ok (t.respond rspReadNone)
  | .ok (some h, t) =>
    match t.lenAt h with
    | none => .error .unwrittenRead
    | some len => copyOut h (min len cap) t

/-- 42 R144: LINE_BYTE, byte `i` of the checked-out line. -/
def lineByte (i : Nat) (s : State) : Except FaultReason State :=
  match s.out with
  | none => .error .noLineData
  | some h =>
    match s.lenAt h with
    | none => .error .unwrittenRead
    | some len =>
      if len ≤ i then .error .noLineData
      else
        match s.bufRead h i with
        | none => .error .unwrittenRead
        | some b => .ok (s.respond (rspByte b))

/-- GET_LINE (42 R140, 44 R187). -/
def execGetLine (s : State) : Host.Outcome State Fault Refusal :=
  whenEnabled .foreground s <| whenRunning s <| complete s (getLine s)

/-- READ (42 R142, 44 R187). -/
def execRead (cap : BitVec 28) (s : State) : Host.Outcome State Fault Refusal :=
  whenEnabled .foreground s <| whenRunning s <| complete s (readLine cap.toNat s)

/-- LINE_BYTE (42 R144, 44 R187). -/
def execLineByte (i : BitVec 28) (s : State) : Host.Outcome State Fault Refusal :=
  whenEnabled .foreground s <| whenRunning s <| complete s (lineByte i.toNat s)

end Sys2Proof.Machine
end

