-- ==== Sys2Proof/Machine/Dispatch.lean ====
section
/-! DEFINITION. The meaning of every instruction: one arm per constructor, in the order of the opcode table. -/

namespace Sys2Proof.Machine

open Sys2Proof

/-- What an input does in the state it is performed in. -/
def exec (i : Instr) (s : State) : Host.Outcome State Fault Refusal :=
  match i with
  | .init => Sys2Proof.Machine.execInit s
  | .write count src => Sys2Proof.Machine.execWrite count src s
  | .getLine => Sys2Proof.Machine.execGetLine s
  | .read cap => Sys2Proof.Machine.execRead cap s
  | .lineByte k => Sys2Proof.Machine.execLineByte k s
  | .illegalCmd op arg => Sys2Proof.Machine.execIllegalCmd op arg s
  | .rxFrame f => Sys2Proof.Machine.execRxFrame f s
  | .txAccept => Sys2Proof.Machine.execTxAccept s
  | .reset => Sys2Proof.Machine.execReset s
  | .acquire => Sys2Proof.Machine.execAcquire s
  | .publish h => Sys2Proof.Machine.execPublish h s
  | .release h => Sys2Proof.Machine.execRelease h s
  | .takeReady => Sys2Proof.Machine.execTakeReady s
  | .recycleFetch => Sys2Proof.Machine.execRecycleFetch s
  | .arbReserved aop h => Sys2Proof.Machine.execArbReserved aop h s

end Sys2Proof.Machine
end

