-- ==== Sys2Proof/Machine/Step.lean ====
section
/-! DEFINITION. One step of the block: the next enabled input is performed (spec 00 R17, 60 R210, R211). -/

namespace Sys2Proof.Machine

open Sys2Proof

/-- One step. A configuration outside the bounds has no run (60 R207); once the fault mark is set no input has a step
(60 R205); otherwise the next input that has a step is taken and performed; with none the block waits, in the same state
(60 R208, 70 R249). -/
def step (s : State) : Host.Outcome State Fault Refusal :=
  if s.cfg.valid then
    match s.fault with
    | some r => .fault (.faulted r)
    | none =>
      match fetch s with
      | some (i, t) => exec i t
      | none => .next s
  else .refused .invalidConfig

/-- `s` with the input of a table word at the front of the waiting inputs, in a state where its agent has a step (log
entry 17). A word the table has no row width for changes nothing. -/
def State.withFetchWord (s : State) (nbits w : Nat) : State :=
  match inputOfTableWord nbits w with
  | some x => { s.readyFor x.agent with inputs := x :: s.inputs }
  | none => s

end Sys2Proof.Machine
end

