-- ==== Sys2Proof/Safety.lean ====
section
/-! DEFINITION. The terms claims are stated in: a good run (spec 70 R249), the contents of lines, the invariants of the
block (10 R30, R36, R39, R41, R46; 20 R51, R56; 41 R132), a run of several inputs, and the line cutting the assembler
must refine (41 R123 to R128). -/

namespace Sys2Proof.Machine

open Sys2Proof

/-- 70 R249: a run that ends with the mark set is a faulted run, never a good one. -/
def State.good (s : State) : Bool := s.fault.isNone

/-- The first `n` bytes of buffer `h`, if every one of them was written. -/
def State.cells (s : State) (h : Nat) (n : Nat) : Option (List Byte) := Memory.readMany (s.bufAt h).data 0 n

/-- 60 R211: whether an input waits where the inputs `p` of the list wait before it: it has no step, or one of its own
agent stands before it. -/
def State.held (s : State) (p : List Input) (y : Input) : Prop :=
  s.ready y = false ∨ ∃ z ∈ p, z.agent = y.agent

/-- The content of a line: the bytes `0..len-1` of its buffer (10 R24, 20 R56); empty where there is no line. -/
def State.lineAt (s : State) (h : Nat) : List Byte :=
  match s.lenAt h with
  | none => []
  | some len => (s.cells h len).getD []

/-- The lines that wait in ReadyQueue, in its order. -/
def State.readyLines (s : State) : List (List Byte) := s.readyQ.map s.lineAt

/-- The line in progress: the bytes written so far into `cur` (10 R27, R28), if a buffer is claimed. -/
def State.openLine (s : State) : Option (List Byte) :=
  match s.cur with
  | none => none
  | some h => some ((s.cells h s.cursor).getD [])

/-- 10 R36: the multiset in which every handle occurs exactly once. -/
def State.members (s : State) : List Nat :=
  s.availQ ++ s.readyQ ++ s.cur.toList ++ s.out.toList

/-- What a published line looks like: no terminator before its last byte, and one at its end unless it fills the
buffer (41 R126, R132). -/
def lineShape (g : Config) (bs : List Byte) : Bool :=
  !bs.dropLast.contains g.term && (decide (g.c ≤ bs.length) || bs.getLast? == some g.term)

/-- A published line: `1 <= len <= C` (10 R46), its bytes written (20 R56), in the shape of a line. -/
def State.lineOk (s : State) (h : Nat) : Bool :=
  match s.lenAt h with
  | none => false
  | some len =>
    decide (1 ≤ len) && decide (len ≤ s.cfg.c) &&
      match s.cells h len with
      | none => false
      | some bs => lineShape s.cfg bs

/-- A claimed buffer: no length (10 R39), the bytes below the cursor written, and no terminator among them. -/
def State.openOk (s : State) (h : Nat) : Bool :=
  (s.lenAt h).isNone &&
    match s.cells h s.cursor with
    | none => false
    | some bs => !bs.contains s.cfg.term

/-- 10 R30, 43 R161, R164: a write in progress is the cut of its source, with a chunk on offer. -/
def txOk (g : Config) (t : TxState) : Bool :=
  match t with
  | .idle => true
  | .busy src cut k => decide (cut = eosCut g.eos src) && decide (k < chunkCount g cut)

/-- A buffer's store is canonical and keeps inside the buffer (20 R51). -/
def bufferOk (g : Config) (x : LineBuffer) : Bool :=
  Memory.wf x.data && x.data.all fun cell => decide (cell.1 < g.c)

/-- The invariant of the block. The premise that no arbiter request waits at the ports is 30 R71: such a request is
issued inside RX_FRAME, GET_LINE and READ only, and alone it would break I1 (40 R101: the caller keeps the handle). -/
structure BlockInv (s : State) : Prop where
  /-- 00 R8. -/
  config : s.cfg.valid = true
  /-- 30 R71. -/
  ports : ∀ x ∈ s.inputs, x.isPort = true
  /-- 10 R24: `N` buffers. -/
  arena : s.buf.length = s.cfg.n
  /-- 10 R36, I1. -/
  members : s.members.Perm (List.range s.cfg.n)
  /-- 10 R41. -/
  cursorZero : s.cur = none → s.cursor = 0
  /-- 10 R28. -/
  cursorLe : s.cursor ≤ s.cfg.c
  /-- 10 R39, I2: no length while available. -/
  stale : ∀ h ∈ s.availQ, s.lenAt h = none
  /-- The line in progress. -/
  claimed : ∀ h ∈ s.cur.toList, s.openOk h = true
  /-- The lines in ReadyQueue. -/
  ready : ∀ h ∈ s.readyQ, s.lineOk h = true
  /-- The line checked out. -/
  checkedOut : ∀ h ∈ s.out.toList, s.lineOk h = true
  /-- 10 R30. -/
  chunker : txOk s.cfg s.tx = true
  /-- 20 R51. -/
  buffers : ∀ x ∈ s.buf, bufferOk s.cfg x = true
  /-- The destination's store is canonical. -/
  destination : Memory.wf s.dst = true

/-- Several instructions one after the other, as far as they have next states. -/
def execAll (is : List Instr) (s : State) : Host.Outcome State Fault Refusal :=
  match is with
  | [] => .next s
  | i :: rest =>
    match exec i s with
    | .next t => execAll rest t
    | .fault e => .fault e
    | .refused r => .refused r

/-- The cutting of bytes into lines that the assembler performs while the pool lasts: from the line in progress, the
lines completed and the line left open. A line keeps its first `c` bytes (41 R125), its terminator among them (R124);
a terminator with no line open is dropped (R128). -/
def cutLines (c : Nat) (term : Byte) (line : Option (List Byte)) (bs : List Byte) :
    List (List Byte) × Option (List Byte) :=
  match bs with
  | [] => ([], line)
  | b :: rest =>
    match line with
    | none =>
      if b = term then cutLines c term none rest
      else cutLines c term (some ([b].take c)) rest
    | some l =>
      let kept := (l ++ [b]).take c
      if b = term then (kept :: (cutLines c term none rest).1, (cutLines c term none rest).2)
      else cutLines c term (some kept) rest

/-- 41 R122: a frame's bytes find a line open: the one in progress, or a new empty one. -/
def frameLines (s : State) (bs : List Byte) : List (List Byte) × Option (List Byte) :=
  cutLines s.cfg.c s.cfg.term (some (s.openLine.getD [])) bs

/-- What cutting bytes into lines with a bounded pool gives: the lines completed, the line left open, the buffers claimed,
and whether a claim failed. -/
structure Cut where
  lines     : List (List Byte)
  line      : Option (List Byte)
  used      : Nat
  exhausted : Bool
deriving DecidableEq, Repr

/-- One more buffer claimed. -/
def Cut.claimed (r : Cut) : Cut := { r with used := r.used + 1 }

/-- One line completed before the others. -/
def Cut.after (l : List Byte) (r : Cut) : Cut := { r with lines := l :: r.lines }

/-- Line cutting with `k` buffers available: as `cutLines`, and the first byte that needs a buffer where none is left ends
the frame (41 R127). -/
def cutWithin (c : Nat) (term : Byte) (k : Nat) (line : Option (List Byte)) (bs : List Byte) : Cut :=
  match bs with
  | [] => { lines := [], line := line, used := 0, exhausted := false }
  | b :: rest =>
    match line with
    | none =>
      if b = term then cutWithin c term k none rest
      else
        match k with
        | 0 => { lines := [], line := none, used := 0, exhausted := true }
        | k + 1 => (cutWithin c term k (some ([b].take c)) rest).claimed
    | some l =>
      let kept := (l ++ [b]).take c
      if b = term then (cutWithin c term k none rest).after kept else cutWithin c term k (some kept) rest

/-- 41 R122: the same for a frame: with no line in progress a buffer is claimed at the frame's start, or the frame is
dropped whole. -/
def frameCut (s : State) (bs : List Byte) : Cut :=
  match s.openLine with
  | some l => cutWithin s.cfg.c s.cfg.term s.availQ.length (some l) bs
  | none =>
    match s.availQ.length with
    | 0 => { lines := [], line := none, used := 0, exhausted := true }
    | k + 1 => (cutWithin s.cfg.c s.cfg.term k (some []) bs).claimed

/-- The buffers a frame's bytes need beyond the claimed one: one per completed line and one for a line left open. -/
def buffersNeeded (s : State) (bs : List Byte) : Nat :=
  (frameLines s bs).1.length + (frameLines s bs).2.toList.length

end Sys2Proof.Machine
end

