-- ==== Sys2Proof/Certificates/Slice0/Obligations.lean ====
section
/-! DEFINITION. The statements for the provers, from the numbered rules of spec/. An instruction's agent has a step
where `fault = none` and, for a command, `tx = Idle`; for RX_FRAME, `phase = Running`; for TX_ACCEPT, `tx = Busy`. A
WRITE in phase Running has one once exactly `count` bytes have followed its word. -/

open Sys2Proof Sys2Proof.Machine

/-! ### Encodings -/

/-- 30 R71, R73, R80, R85: words written out from the encoding tables decode to what they stand for. The first is the
word of INIT, then WRITE of one byte, GET_LINE, READ 4, LINE_BYTE 2, the all-zero word, vector A1's frame record, the
selectors of TX_ACCEPT and RESET, and the request words of vectors B1, B4, B5, B6, B8, B13, B14. -/
def Obligations.SpecWordsDecode : Prop :=
  decode (.port { sel := 0#2, cmd := 0x10000000#32 }) = .init ∧
  decode (.port { sel := 0#2, cmd := 0x20000001#32, src := [0x41#8] }) = .write 1#28 [0x41#8] ∧
  decode (.port { sel := 0#2, cmd := 0x30000000#32 }) = .getLine ∧
  decode (.port { sel := 0#2, cmd := 0x40000004#32 }) = .read 4#28 ∧
  decode (.port { sel := 0#2, cmd := 0x50000002#32 }) = .lineByte 2#28 ∧
  decode (.port { sel := 0#2, cmd := 0x00000000#32 }) = .illegalCmd 0#4 0#28 ∧
  decode (.port { sel := 1#2, fh := 0x00000123#32, dlc := 3#4, data := 0x00000000000A6968#64 }) =
    .rxFrame { rsv := false, ide := false, rtr := false, id := 0x123#29, dlc := 3#4, data := 0xA6968#64 } ∧
  decode (.port { sel := 2#2 }) = .txAccept ∧
  decode (.port { sel := 3#2 }) = .reset ∧
  decode (.arb 0x0000#16) = .acquire ∧
  decode (.arb 0x4001#16) = .release 1#13 ∧
  decode (.arb 0x2001#16) = .publish 1#13 ∧
  decode (.arb 0x6000#16) = .takeReady ∧
  decode (.arb 0x8000#16) = .recycleFetch ∧
  decode (.arb 0xA000#16) = .arbReserved 5#3 0#13 ∧
  decode (.arb 0x0001#16) = .arbReserved 0#3 1#13

/-- Decoding the words of any well-formed instruction gives it back, with every operand at every value. -/
def Obligations.DecodeOfEncodeIsTheInstruction : Prop :=
  ∀ i : Instr, WellFormed i = true → decode (encode i) = i

/-- No bit of a command word, of a frame record or of a request word is dropped: the decoded instruction encodes to the
same word again. -/
def Obligations.EncodeOfDecodeKeepsEveryBit : Prop :=
  (∀ (w : BitVec 32) (src : List Byte), ∃ bs,
    encode (decode (.port { sel := 0#2, cmd := w, src := src })) = .port { sel := 0#2, cmd := w, src := bs }) ∧
  (∀ (fh : BitVec 32) (dlc : BitVec 4) (data : BitVec 64),
    encode (decode (.port { sel := 1#2, fh := fh, dlc := dlc, data := data })) =
      .port { sel := 1#2, fh := fh, dlc := dlc, data := data }) ∧
  (∀ w : BitVec 16, encode (decode (.arb w)) = .arb w)

/-- 30 R93: the command decoder on every 32-bit word. -/
def Obligations.CommandDecoderOnEveryWord : Prop :=
  ∀ (w : BitVec 32) (src : List Byte),
    let op := w.toNat / 2 ^ 28
    let arg : BitVec 28 := w.extractLsb' 0 28
    decode (.port { sel := 0#2, cmd := w, src := src }) =
      if op = 1 ∧ arg = 0 then .init
      else if op = 2 then .write arg (src.take arg.toNat)
      else if op = 3 ∧ arg = 0 then .getLine
      else if op = 4 then .read arg
      else if op = 5 then .lineByte arg
      else .illegalCmd (w.extractLsb' 28 4) arg

/-- 30 R85 and 40 R106: the arbiter's decoder on every 16-bit word. The clause `H >= N` of R106 depends on the
configuration and stands in `ReservedRequestsFault` (log entry 11). -/
def Obligations.ArbiterDecoderOnEveryWord : Prop :=
  ∀ w : BitVec 16,
    let aop := w.toNat / 2 ^ 13
    let h : BitVec 13 := w.extractLsb' 0 13
    decode (.arb w) =
      if aop = 0 ∧ h = 0 then .acquire
      else if aop = 1 then .publish h
      else if aop = 2 then .release h
      else if aop = 3 ∧ h = 0 then .takeReady
      else if aop = 4 ∧ h = 0 then .recycleFetch
      else .arbReserved (w.extractLsb' 13 3) h

/-! ### Steps -/

/-- 00 R17, 60 R210, R211, 30 R77: a step runs the decoded instruction: the first waiting input that has a step, and that
no earlier one of its own agent waits before, is taken from the waiting inputs; the others go on waiting in their order;
and the step is `exec` of what the input decodes to (log entry 1). -/
def Obligations.StepRunsTheNextEnabledInput : Prop :=
  ∀ (s : State) (x : Input) (pre post : List Input),
    s.cfg.valid = true → s.fault = none → s.inputs = pre ++ x :: post →
    (∀ p y q, pre = p ++ y :: q → s.held p y) → s.ready x = true → (∀ z ∈ pre, z.agent ≠ x.agent) →
    step s = exec (decode x) { s with inputs := pre ++ post }

/-- 60 R208, 43 R166, R170, 44 R188: while no waiting input has a step the block waits; nothing changes (log entry 1). -/
def Obligations.StepWaitsWhileNothingIsEnabled : Prop :=
  ∀ s : State, s.cfg.valid = true → s.fault = none → (∀ p y q, s.inputs = p ++ y :: q → s.held p y) →
    step s = .next s

/-- 60 R207: no input is refused one at a time: under a valid configuration and with no mark set, every step has a next
state, whatever waits at the ports (the same state where nothing has a step, log entry 1). -/
def Obligations.EveryStepCompletes : Prop :=
  ∀ s : State, s.cfg.valid = true → s.fault = none → ∃ t, step s = .next t

/-- 60 R205, 10 R33, 92 D35: once the mark is set no input has a step, RESET included: every meaning and every step
stops with the marked reason (the model's form of 'no step', log entry 3). -/
def Obligations.MarkedStateHasNoStep : Prop :=
  ∀ (s : State) (r : FaultReason), s.fault = some r →
    (∀ i : Instr, exec i s = .fault (.faulted r)) ∧ (s.cfg.valid = true → step s = .fault (.faulted r))

/-- 43 R165, R170, 44 R188, 30 R77: in a state without a mark, an input that has no step gives no next state: commands
while a WRITE waits, frames outside Running, accepts with nothing on offer, and in Running a WRITE with another number
of bytes than its `count` (the model's form of 'no step', log entry 4 and log entry 9). -/
def Obligations.DisabledInputsHaveNoStep : Prop :=
  ∀ (s : State) (i : Instr), s.fault = none →
    ((issuer i = .foreground ∧ s.tx ≠ .idle) ∨ (issuer i = .interrupt ∧ s.phase ≠ .running) ∨
      (issuer i = .transport ∧ s.tx = .idle) ∨
      (s.phase = .running ∧ ∃ count src, i = .write count src ∧ src.length ≠ count.toNat)) →
    exec i s = .fault (.notEnabled (issuer i))

/-- 00 R7, R8, 60 R207: a configuration outside the bounds has no run. -/
def Obligations.InvalidConfigurationsAreRefused : Prop :=
  (∀ g : Config, g.valid = true ↔
    (1 ≤ g.n ∧ g.n ≤ 8192) ∧ (1 ≤ g.c ∧ g.c ≤ 2 ^ 24 - 1) ∧ (1 ≤ g.p ∧ g.p ≤ 8) ∧ g.term = 0x0A#8 ∧ g.rxMax = 8) ∧
  ∀ s : State, s.cfg.valid = false → step s = .refused .invalidConfig

/-- The model's own `withFetchWord` (log entry 17): the very next step runs the instruction of the table word, in the
state made ready for its agent. -/
def Obligations.FetchWordIsRunNext : Prop :=
  ∀ (s : State) (nbits w : Nat) (x : Input), s.cfg.valid = true → inputOfTableWord nbits w = some x →
    decodeTableWord nbits w = some (decode x) ∧
      step (s.withFetchWord nbits w) = exec (decode x) (s.readyFor x.agent)

/-! ### Reset and INIT -/

/-- 10 R45: every field after RESET, at the first reset (the state `State.resetOf`) and at a later one. -/
def Obligations.ResetGivesTheTableOfValues : Prop :=
  (∀ g : Config, (State.resetOf g).txLog = [] ∧ (State.resetOf g).evLog = [] ∧ (State.resetOf g).fault = none) ∧
  ∀ s t : State, ((∃ g, t = State.resetOf g) ∨ exec .reset s = .next t) →
    t.phase = .uninit ∧ t.buf.length = t.cfg.n ∧ (∀ h i, t.bufRead h i = none) ∧ (∀ h, t.lenAt h = none) ∧
    t.availQ = List.range t.cfg.n ∧ t.readyQ = [] ∧ t.cur = none ∧ t.cursor = 0 ∧ t.out = none ∧ t.tx = .idle ∧
    (exec .reset s = .next t → t.txLog = s.txLog ∧ t.evLog = s.evLog ∧ t.fault = s.fault)

/-- 70 R230: RESET has a step exactly where no mark is set, in every phase and whatever `tx` holds; it writes every field
but `txLog`, `evLog` and `fault`, and twice in a row gives the same state as once. What it leaves of the port fields
(`rspLog`, `dst`, `arbLog`, `inputs`, `initAnswers`, `draws`) is log entry 15. -/
def Obligations.ResetCommand : Prop :=
  ∀ s : State, (∀ t, exec .reset s = .next t → s.fault = none) ∧
    (s.fault = none → ∃ t, exec .reset s = .next t ∧ exec .reset t = .next t ∧
      t = { s with phase := .uninit, buf := List.replicate s.cfg.n { data := [], len := none },
                   availQ := List.range s.cfg.n, readyQ := [], cur := none, cursor := 0, out := none, tx := .idle })

/-- 70 R231: in the initial state of every admitted configuration the invariants hold. -/
def Obligations.ResetStateKeepsTheInvariant : Prop :=
  ∀ g : Config, g.valid = true → BlockInv (State.resetOf g)

/-- 44 R185: INIT takes the transport's outcome, which waits at the port (log entry 5), goes to Running or Failed, and
responds STATUS = outcome (bits 63:56); outside Uninit it raises ReInit. -/
def Obligations.InitCommand : Prop :=
  ∀ (s : State) (st : Byte) (rest : List Byte), s.fault = none → s.tx = .idle → s.initAnswers = st :: rest →
    exec .init s =
      if s.phase = .uninit then
        .next { s with phase := if st = 0#8 then .running else .failed, initAnswers := rest,
                       rspLog := s.rspLog ++ [st ++ 0#56] }
      else .next { s with fault := some .reInit }

/-- 44 R186: with no answer waiting, the outcome is a free value: INIT completes for whatever it is (log entry 5). -/
def Obligations.InitDrawsAFreeOutcome : Prop :=
  ∀ s : State, s.fault = none → s.tx = .idle → s.phase = .uninit → s.initAnswers = [] →
    ∃ st : Byte, exec .init s =
      .next { s with phase := if st = 0#8 then .running else .failed, draws := s.draws + 1,
                     rspLog := s.rspLog ++ [st ++ 0#56] }

/-- 44 R187: the phase gate: outside Running, WRITE, GET_LINE, READ and LINE_BYTE raise NotRunning; outside Uninit, INIT
raises ReInit; an illegal word raises IllegalCommand in every phase. -/
def Obligations.PhaseGate : Prop :=
  ∀ s : State, s.fault = none → s.tx = .idle →
    (∀ i : Instr, (i = .getLine ∨ (∃ c b, i = .write c b) ∨ (∃ c, i = .read c) ∨ ∃ k, i = .lineByte k) →
      s.phase ≠ .running → exec i s = .next { s with fault := some .notRunning }) ∧
    (s.phase ≠ .uninit → exec .init s = .next { s with fault := some .reInit }) ∧
    ∀ op arg, exec (.illegalCmd op arg) s = .next { s with fault := some .illegalCommand }

/-- 44 R189: a word with `OP` in `{0x0, 0x6..0xF}`, or `OP` in `{0x1, 0x3}` with `ARG != 0`, decodes to an illegal
command; that has a step only where the foreground is free and no mark is set, and the step sets the mark
IllegalCommand and nothing else. -/
def Obligations.IllegalWordsFault : Prop :=
  ∀ (s : State) (op : BitVec 4) (arg : BitVec 28) (src : List Byte),
    (op = 0 ∨ 6 ≤ op.toNat ∨ ((op = 1 ∨ op = 3) ∧ arg ≠ 0)) →
    decode (cmdInput op arg src) = .illegalCmd op arg ∧
      (∀ t, exec (.illegalCmd op arg) s = .next t → s.fault = none ∧ s.tx = .idle) ∧
      (s.fault = none → s.tx = .idle →
        exec (.illegalCmd op arg) s = .next { s with fault := some .illegalCommand })

/-! ### The outbound chunker -/

/-- 43 R160: WRITE has a step only where the foreground is free and no mark is set; outside Running it faults; with
nothing before the end-of-stream marker it gives the all-zero response at once, else the write is Busy over its
snapshot with chunk 0 on offer. -/
def Obligations.WriteCommand : Prop :=
  ∀ (s : State) (count : BitVec 28) (src : List Byte), src.length = count.toNat →
    (∀ t, exec (.write count src) s = .next t → s.fault = none ∧ s.tx = .idle) ∧
    (s.fault = none → s.tx = .idle → exec (.write count src) s =
      if s.phase ≠ .running then .next { s with fault := some .notRunning }
      else if eosCut s.cfg.eos src = 0 then .next { s with rspLog := s.rspLog ++ [0#64] }
      else .next { s with tx := .busy src (eosCut s.cfg.eos src) 0 })

/-- 43 R161: the cut is the least index with the marker, if one exists, else the number of bytes. -/
def Obligations.EndOfStreamCut : Prop :=
  ∀ (eos : Byte) (src : List Byte),
    (∀ j < eosCut eos src, ∃ b, src[j]? = some b ∧ b ≠ eos) ∧
    (eos ∈ src → src[eosCut eos src]? = some eos) ∧ (eos ∉ src → eosCut eos src = src.length)

/-- 43 R162: the chunks: `ceil_div(end, P)` of them, all but the last of exactly `P` bytes, the last of
`end - (n-1)*P`, between 1 and `P`; in order they are the bytes `0..end-1`. -/
def Obligations.ChunksCoverTheSource : Prop :=
  ∀ (g : Config) (src : List Byte) (cut : Nat), 1 ≤ g.p → cut ≤ src.length →
    let n := (cut + g.p - 1) / g.p
    chunkCount g cut = n ∧ (cut = 0 → n = 0) ∧
    (List.range n).flatMap (chunk g src cut) = src.take cut ∧
    (∀ k, k + 1 < n → (chunk g src cut k).length = g.p) ∧
    (∀ k, k + 1 = n → (chunk g src cut k).length = cut - k * g.p ∧ 1 ≤ cut - k * g.p ∧ cut - k * g.p ≤ g.p) ∧
    ∀ k i, i < (chunk g src cut k).length → (chunk g src cut k)[i]? = src[k * g.p + i]?

/-- 43 R165, R163: TX_ACCEPT has a step only while Busy with no mark set; it logs the frame of the offered chunk; after
the last chunk the write completes with the all-zero response, else the next chunk is offered. -/
def Obligations.TransmitAccept : Prop :=
  ∀ s : State,
    (∀ t, exec .txAccept s = .next t → s.fault = none ∧ ∃ src cut k, s.tx = .busy src cut k) ∧
    ∀ (src : List Byte) (cut k : Nat), s.fault = none → s.tx = .busy src cut k →
      let f : Frame := { id := s.cfg.txId, ide := decide (0x7FF < s.cfg.txId.toNat), rtr := false,
                         data := (src.take (min ((k + 1) * s.cfg.p) cut)).drop (k * s.cfg.p) }
      exec .txAccept s =
        if k + 1 = (cut + s.cfg.p - 1) / s.cfg.p then
          .next { s with txLog := s.txLog ++ [f], tx := .idle, rspLog := s.rspLog ++ [0#64] }
        else .next { s with txLog := s.txLog ++ [f], tx := .busy src cut (k + 1) }

/-- 30 R80, R82, 43 R164: what the block offers: nothing while Idle, and while Busy a data frame with `ID = TX_ID`,
`IDE = TX_EXT`, `1 <= DLC <= P` and data bytes from the source snapshot, before its end-of-stream cut. The record on the
port carries the identifier in bits 28:0 of the header, RTR in bit 29, IDE in bit 30 and 0 in bit 31, the number of
bytes in DLC, and byte `i` at bits `[8i+7:8i]` of DATA, the bits past the last byte 0. -/
def Obligations.OfferedFrames : Prop :=
  ∀ s : State, BlockInv s → (s.tx = .idle → offered s = none) ∧
    ∀ src cut k, s.tx = .busy src cut k →
      ∃ f, offered s = some f ∧ f.id = s.cfg.txId ∧ f.ide = decide (0x7FF < s.cfg.txId.toNat) ∧ f.rtr = false ∧
        1 ≤ f.data.length ∧ f.data.length ≤ s.cfg.p ∧
        (∀ i < f.data.length, f.data[i]? = src[k * s.cfg.p + i]? ∧ k * s.cfg.p + i < cut) ∧
        let r := recordOf f
        let fh := frameHeader r.rsv r.ide r.rtr r.id
        fh.extractLsb' 0 29 = f.id ∧ fh.getLsbD 29 = f.rtr ∧ fh.getLsbD 30 = f.ide ∧ fh.getLsbD 31 = false ∧
        r.dlc.toNat = f.data.length ∧
        (∀ i < f.data.length, f.data[i]? = some (r.data.extractLsb' (8 * i) 8)) ∧
        ∀ i, f.data.length ≤ i → r.data.extractLsb' (8 * i) 8 = 0#8

/-- 43 R167: a WRITE completes exactly at the TX_ACCEPT of its last chunk (in the WRITE step itself when there is no
chunk), and `txLog` has then gained the chunks' frames in order. -/
def Obligations.WriteCompletesAfterItsChunks : Prop :=
  ∀ (s : State) (count : BitVec 28) (src : List Byte), s.cfg.valid = true → s.fault = none → s.tx = .idle →
    s.phase = .running → src.length = count.toNat →
    let cut := eosCut s.cfg.eos src
    let n := (cut + s.cfg.p - 1) / s.cfg.p
    (∀ m < n, execAll (.write count src :: List.replicate m .txAccept) s =
      .next { s with tx := .busy src cut m, txLog := s.txLog ++ (List.range m).map (chunkFrame s.cfg src cut) }) ∧
    execAll (.write count src :: List.replicate n .txAccept) s =
      .next { s with txLog := s.txLog ++ (List.range n).map (chunkFrame s.cfg src cut),
                     rspLog := s.rspLog ++ [0#64] }

/-- 43 R171: the chunker and the pool are independent: WRITE and TX_ACCEPT write no field of the pool, and what they do
to `tx`, `txLog`, the responses and the mark does not depend on one. -/
def Obligations.ChunkerIsIndependentOfThePool : Prop :=
  ∀ (i : Instr) (s s' t : State), (i = .txAccept ∨ ∃ c b, i = .write c b) →
    s'.cfg = s.cfg → s'.phase = s.phase → s'.tx = s.tx → s'.fault = s.fault → s'.txLog = s.txLog →
    s'.rspLog = s.rspLog → exec i s = .next t →
    (t.buf = s.buf ∧ t.availQ = s.availQ ∧ t.readyQ = s.readyQ ∧ t.cur = s.cur ∧ t.cursor = s.cursor ∧ t.out = s.out) ∧
    ∃ t', exec i s' = .next t' ∧ t'.tx = t.tx ∧ t'.txLog = t.txLog ∧ t'.rspLog = t.rspLog ∧ t'.fault = t.fault

/-! ### The pool's arbiter -/

/-- 40 R101, 30 R87: ACQUIRE: the head of AvailableQueue, its cells unwritten and no other buffer touched, reply
`V = 1, H = h`; on exhaustion reply `V = 0` and no queue changes. `cur` is the caller's. -/
def Obligations.AcquireRequest : Prop :=
  ∀ s : State, s.fault = none →
    (s.availQ = [] → exec .acquire s = .next { s with arbLog := s.arbLog ++ [0x0000#16] }) ∧
    ∀ h rest, s.availQ = h :: rest →
      ∃ t, exec .acquire s = .next t ∧ (∀ i, t.bufRead h i = none) ∧ (∀ g, t.lenAt g = s.lenAt g) ∧
        (∀ g, g ≠ h → ∀ i, t.bufRead g i = s.bufRead g i) ∧
        t = { s with availQ := rest, buf := t.buf, arbLog := s.arbLog ++ [1#1 ++ 0#2 ++ BitVec.ofNat 13 h] }

/-- 40 R102: RELEASE of a handle in no queue and not claimed: to the tail of AvailableQueue, its length `none`, no byte
changed, reply `0x8000`. Of any other handle: the mark ArbiterMisuse and nothing else (R107). -/
def Obligations.ReleaseRequest : Prop :=
  ∀ (s : State) (h : BitVec 13), s.fault = none → h.toNat < s.cfg.n →
    (h.toNat ∉ s.availQ → h.toNat ∉ s.readyQ → s.cur ≠ some h.toNat →
      ∃ t, exec (.release h) s = .next t ∧ t.lenAt h.toNat = none ∧ (∀ g, g ≠ h.toNat → t.lenAt g = s.lenAt g) ∧
        (∀ g i, t.bufRead g i = s.bufRead g i) ∧
        t = { s with availQ := s.availQ ++ [h.toNat], buf := t.buf, arbLog := s.arbLog ++ [0x8000#16] }) ∧
    ((h.toNat ∈ s.availQ ∨ h.toNat ∈ s.readyQ ∨ s.cur = some h.toNat) →
      exec (.release h) s = .next { s with fault := some .arbiterMisuse })

/-- 40 R103: PUBLISH of the claimed buffer with its length set: to the tail of ReadyQueue, reply `0x8000`. Of a handle
that is not claimed or has no length: the mark ArbiterMisuse and nothing else (R107). -/
def Obligations.PublishRequest : Prop :=
  ∀ (s : State) (h : BitVec 13), s.fault = none → h.toNat < s.cfg.n →
    (s.cur = some h.toNat → s.lenAt h.toNat ≠ none →
      exec (.publish h) s = .next { s with readyQ := s.readyQ ++ [h.toNat], arbLog := s.arbLog ++ [0x8000#16] }) ∧
    ((s.cur ≠ some h.toNat ∨ s.lenAt h.toNat = none) →
      exec (.publish h) s = .next { s with fault := some .arbiterMisuse })

/-- 40 R104: TAKE_READY: the head of ReadyQueue, reply `V = 1, H = h`; of an empty queue reply `V = 0`. -/
def Obligations.TakeReadyRequest : Prop :=
  ∀ s : State, s.fault = none →
    (s.readyQ = [] → exec .takeReady s = .next { s with arbLog := s.arbLog ++ [0x0000#16] }) ∧
    ∀ h rest, s.readyQ = h :: rest →
      exec .takeReady s =
        .next { s with readyQ := rest, arbLog := s.arbLog ++ [1#1 ++ 0#2 ++ BitVec.ofNat 13 h] }

/-- 40 R105: RECYCLE_FETCH: the buffer checked out goes to the tail of AvailableQueue with its length `none`, also when
no line follows; then the head of ReadyQueue becomes the buffer checked out. -/
def Obligations.RecycleFetchRequest : Prop :=
  ∀ s : State, s.fault = none →
    (∀ h0, s.out = some h0 → h0 < s.cfg.n ∧ h0 ∉ s.availQ ∧ h0 ∉ s.readyQ ∧ s.cur ≠ some h0) →
    ∃ t, exec .recycleFetch s = .next t ∧ t.availQ = s.availQ ++ s.out.toList ∧
      t.out = s.readyQ.head? ∧ t.readyQ = s.readyQ.tail ∧ (∀ h0, s.out = some h0 → t.lenAt h0 = none) ∧
      (∀ g, s.out ≠ some g → t.lenAt g = s.lenAt g) ∧ (∀ g i, t.bufRead g i = s.bufRead g i) ∧
      t = { s with availQ := t.availQ, out := t.out, readyQ := t.readyQ, buf := t.buf,
                   arbLog := s.arbLog ++
                     [match s.readyQ.head? with | some h => 1#1 ++ 0#2 ++ BitVec.ofNat 13 h | none => 0#16] }

/-- 40 R106: a reserved request word, and PUBLISH or RELEASE with `H >= N`, set the mark ArbiterMisuse and nothing
else. -/
def Obligations.ReservedRequestsFault : Prop :=
  ∀ s : State, s.fault = none →
    (∀ (aop : BitVec 3) (h : BitVec 13), (5 ≤ aop.toNat ∨ ((aop = 0 ∨ aop = 3 ∨ aop = 4) ∧ h ≠ 0)) →
      decode (.arb (arbWord aop h)) = .arbReserved aop h ∧
        exec (.arbReserved aop h) s = .next { s with fault := some .arbiterMisuse }) ∧
    ∀ h : BitVec 13, s.cfg.n ≤ h.toNat →
      (decode (.arb (arbWord 1 h)) = .publish h ∧
        exec (.publish h) s = .next { s with fault := some .arbiterMisuse }) ∧
      decode (.arb (arbWord 2 h)) = .release h ∧
        exec (.release h) s = .next { s with fault := some .arbiterMisuse }

/-! ### The Line Assembler -/

/-- 30 R81: the records no transport can deliver are exactly those with header bit 31 set, or `DLC > 8`, or a standard
identifier above `0x7FF`; such a record sets the mark MalformedFrame and changes nothing else, whether it would match
the filter or not. -/
def Obligations.MalformedRecordsFault : Prop :=
  ∀ (s : State) (f : FrameRecord), s.cfg.valid = true →
    (recordOk s.cfg f = true ↔ ¬(f.rsv = true ∨ 8 < f.dlc.toNat ∨ (f.ide = false ∧ 0x7FF < f.id.toNat))) ∧
    (s.fault = none → s.phase = .running →
      (f.rsv = true ∨ 8 < f.dlc.toNat ∨ (f.ide = false ∧ 0x7FF < f.id.toNat)) →
      exec (.rxFrame f) s = .next { s with fault := some .malformedFrame })

/-- 30 R80, 20 R57: the frame a received record stands for: its identifier, format and remote flag, and `DLC` data bytes,
byte `i` being bits `[8i+7:8i]` of DATA; the other data bits are ignored. -/
def Obligations.FrameOfARecord : Prop :=
  (∀ f : FrameRecord, (frameOf f).id = f.id ∧ (frameOf f).ide = f.ide ∧ (frameOf f).rtr = f.rtr ∧
    (frameOf f).data.length = f.dlc.toNat ∧
    ∀ i < f.dlc.toNat, (frameOf f).data[i]? = some (f.data.extractLsb' (8 * i) 8)) ∧
  ∀ (f g : FrameRecord) (s : State), f = { g with data := f.data } →
    (∀ i < f.dlc.toNat, f.data.extractLsb' (8 * i) 8 = g.data.extractLsb' (8 * i) 8) →
    exec (.rxFrame f) s = exec (.rxFrame g) s

/-- 44 R181, R182, R183: the filter passes exactly the frames with the remote flag clear, the format RX_EXT and the
identifier RX_ID; a well-formed frame that does not pass (a remote one never does) has no effect at all. -/
def Obligations.UnmatchedFramesHaveNoEffect : Prop :=
  ∀ (s : State) (f : FrameRecord),
    (passesFilter s.cfg (frameOf f) = true ↔
      f.rtr = false ∧ f.ide = decide (0x7FF < s.cfg.rxId.toNat) ∧ f.id = s.cfg.rxId) ∧
    (s.fault = none → s.phase = .running → recordOk s.cfg f = true →
      (f.rtr = true ∨ f.ide ≠ decide (0x7FF < s.cfg.rxId.toNat) ∨ f.id ≠ s.cfg.rxId) →
      exec (.rxFrame f) s = .next s)

/-- 41 R122, 60 R201: a passing frame that finds no buffer claimed and the pool exhausted is dropped whole: one
POOL_EXHAUSTED event and no other change, whatever the frame holds. -/
def Obligations.FrameDroppedOnExhaustion : Prop :=
  ∀ (s : State) (f : FrameRecord), s.fault = none → s.phase = .running → recordOk s.cfg f = true →
    passesFilter s.cfg (frameOf f) = true → s.cur = none → s.availQ = [] →
    exec (.rxFrame f) s = .next { s with evLog := s.evLog ++ [.poolExhausted] }

/-- 41 R130: a passing frame with no data bytes: with a buffer claimed nothing changes; with none, one buffer moves from
AvailableQueue to `cur`, or one POOL_EXHAUSTED event. -/
def Obligations.EmptyFrame : Prop :=
  ∀ (s : State) (f : FrameRecord), s.fault = none → s.phase = .running → recordOk s.cfg f = true →
    passesFilter s.cfg (frameOf f) = true → f.dlc = 0 →
    (s.cur ≠ none → exec (.rxFrame f) s = .next s) ∧
    (s.cur = none → s.availQ = [] → exec (.rxFrame f) s = .next { s with evLog := s.evLog ++ [.poolExhausted] }) ∧
    ∀ h rest, s.cur = none → s.availQ = h :: rest →
      exec (.rxFrame f) s =
        .next { s with cur := some h, availQ := rest, buf := s.buf.modify h fun x => { x with data := [] } }

/-- 41 R123, R124, R125, 30 R80: a passing frame without a terminator, with buffer `h` claimed: its bytes go to the cells
from the cursor on, as far as the buffer reaches, and the rest are dropped in silence; the cell `i` past the cursor
then holds bits `[8i+7:8i]` of DATA. -/
def Obligations.BytesAppendedOrDropped : Prop :=
  ∀ (s : State) (f : FrameRecord) (h : Nat), s.fault = none → s.phase = .running → recordOk s.cfg f = true →
    passesFilter s.cfg (frameOf f) = true → s.cur = some h → s.cursor ≤ s.cfg.c → s.cfg.term ∉ (frameOf f).data →
    ∃ t, exec (.rxFrame f) s = .next t ∧
      t = { s with
        cursor := min s.cfg.c (s.cursor + f.dlc.toNat)
        buf := s.buf.modify h fun x =>
          { x with data := Memory.writeMany x.data s.cursor ((frameOf f).data.take (s.cfg.c - s.cursor)) } } ∧
      (h < s.buf.length → ∀ i < f.dlc.toNat, s.cursor + i < s.cfg.c →
        t.bufRead h (s.cursor + i) = some (f.data.extractLsb' (8 * i) 8))

/-- 41 R124 to R126, R131: a passing frame whose last byte is its one terminator, with buffer `h` claimed: the bytes that
fit are stored, the terminator among them, the length counts them, and the line is published. -/
def Obligations.TerminatorPublishesTheLine : Prop :=
  ∀ (s : State) (f : FrameRecord) (h : Nat) (body : List Byte), s.fault = none → s.phase = .running →
    recordOk s.cfg f = true → passesFilter s.cfg (frameOf f) = true → s.cur = some h → h < s.cfg.n →
    h < s.buf.length → s.cursor ≤ s.cfg.c → (frameOf f).data = body ++ [s.cfg.term] → s.cfg.term ∉ body →
    exec (.rxFrame f) s =
      .next { s with
        cur := none
        cursor := 0
        readyQ := s.readyQ ++ [h]
        buf := s.buf.modify h fun x =>
          { data := Memory.writeMany x.data s.cursor ((body ++ [s.cfg.term]).take (s.cfg.c - s.cursor))
            len := some (min s.cfg.c (s.cursor + (body.length + 1))) } }

/-- 41 R127, R128: after a line was published inside a frame, terminators are dropped, and the next other byte claims a
buffer; with the pool exhausted it ends the frame with one POOL_EXHAUSTED event, the line published staying so. -/
def Obligations.ExhaustionInsideAFrame : Prop :=
  ∀ (s : State) (f : FrameRecord) (h k : Nat) (body rest : List Byte) (b : Byte), s.fault = none →
    s.phase = .running → recordOk s.cfg f = true → passesFilter s.cfg (frameOf f) = true → s.cur = some h →
    h < s.cfg.n → h < s.buf.length → s.cursor ≤ s.cfg.c → s.availQ = [] →
    (frameOf f).data = (body ++ [s.cfg.term]) ++ (List.replicate k s.cfg.term ++ b :: rest) →
    s.cfg.term ∉ body → b ≠ s.cfg.term →
    exec (.rxFrame f) s =
      .next { s with
        cur := none
        cursor := 0
        readyQ := s.readyQ ++ [h]
        evLog := s.evLog ++ [.poolExhausted]
        buf := s.buf.modify h fun x =>
          { data := Memory.writeMany x.data s.cursor ((body ++ [s.cfg.term]).take (s.cfg.c - s.cursor))
            len := some (min s.cfg.c (s.cursor + (body.length + 1))) } }

/-- 41 R129: under the invariant a well-formed frame always completes, with no fault. -/
def Obligations.FramesComplete : Prop :=
  ∀ (s : State) (f : FrameRecord), BlockInv s → s.fault = none → s.phase = .running → recordOk s.cfg f = true →
    ∃ t, exec (.rxFrame f) s = .next t ∧ t.fault = none

/-- 41 R120 to R128, R131, R135, 20 R56: while the pool lasts, the assembler is line cutting: a passing frame appends to
ReadyQueue the lines its bytes complete, in order, each the first `C` bytes of the line, and leaves the last one open;
no event is emitted. -/
def Obligations.AssemblerRefinesLineCutting : Prop :=
  ∀ (s : State) (f : FrameRecord), BlockInv s → s.fault = none → s.phase = .running → recordOk s.cfg f = true →
    passesFilter s.cfg (frameOf f) = true →
    buffersNeeded s (frameOf f).data ≤ s.availQ.length + s.cur.toList.length →
    ∃ t, exec (.rxFrame f) s = .next t ∧ t.evLog = s.evLog ∧ t.fault = none ∧
      t.readyLines = s.readyLines ++ (frameLines s (frameOf f).data).1 ∧
      t.openLine = (frameLines s (frameOf f).data).2

/-- 41 R122 to R128, R131, R133, R134, R135, 60 R201: what a passing frame does, whatever the pool holds: the lines its
bytes complete go to ReadyQueue in order, each the first `C` bytes of the line; the buffers claimed come from the head
of AvailableQueue; a claim that fails, at the frame's start or inside it, ends the frame with one POOL_EXHAUSTED event
and no line left open, the lines completed before it staying published. -/
def Obligations.FramesCutLinesWithinThePool : Prop :=
  ∀ (s : State) (f : FrameRecord), BlockInv s → s.fault = none → s.phase = .running → recordOk s.cfg f = true →
    passesFilter s.cfg (frameOf f) = true →
    let r := frameCut s (frameOf f).data
    ∃ t, exec (.rxFrame f) s = .next t ∧ t.fault = none ∧
      t.readyLines = s.readyLines ++ r.lines ∧ t.openLine = r.line ∧ t.availQ = s.availQ.drop r.used ∧
      t.evLog = s.evLog ++ if r.exhausted then [.poolExhausted] else []

/-- 41 R134: one RX_FRAME emits at most one event. -/
def Obligations.AtMostOneEventPerFrame : Prop :=
  ∀ (s t : State) (f : FrameRecord), exec (.rxFrame f) s = .next t →
    t.evLog = s.evLog ∨ t.evLog = s.evLog ++ [.poolExhausted]

/-- 41 R135, 10 R40: a frame publishes to the tail of ReadyQueue and claims from the head of AvailableQueue; it never
reorders either. -/
def Obligations.FramesKeepQueueOrder : Prop :=
  ∀ (s t : State) (f : FrameRecord), exec (.rxFrame f) s = .next t → s.readyQ <+: t.readyQ ∧ t.availQ <:+ s.availQ

/-- 41 R129, 10 R43: what a frame leaves alone: every field but `cur`, `cursor`, the buffers, the queues, the events and
the mark; every buffer that is neither claimed nor available; every byte below the cursor of the claimed one; and, from a
state that keeps the invariant, every buffer that is available still after the frame (40 R101). -/
def Obligations.FramesTouchOnlyTheirBuffers : Prop :=
  ∀ (s t : State) (f : FrameRecord), exec (.rxFrame f) s = .next t →
    t = { s with cur := t.cur, cursor := t.cursor, buf := t.buf, availQ := t.availQ, readyQ := t.readyQ,
                 evLog := t.evLog, fault := t.fault } ∧
    (∀ h, h ∉ s.availQ → s.cur ≠ some h → t.bufAt h = s.bufAt h) ∧
    (∀ h i, h ∉ s.availQ → s.cur = some h → i < s.cursor ∨ s.cfg.c ≤ i → t.bufRead h i = s.bufRead h i) ∧
    (BlockInv s → ∀ h ∈ t.availQ, t.bufAt h = s.bufAt h)

/-! ### The Line Reader -/

/-- 42 R140: GET_LINE has a step only where the foreground is free and no mark is set; outside Running it faults. In
Running the buffer checked out is released, also when no line follows; the head of ReadyQueue is checked out and
answered with NL, HV, HANDLE and COUNT = its length `L`, `1 <= L <= C`; with none the response is all zero. -/
def Obligations.GetLineCommand : Prop :=
  ∀ s : State, BlockInv s →
    (∀ t, exec .getLine s = .next t → s.fault = none ∧ s.tx = .idle) ∧
    (s.fault = none → s.tx = .idle →
      (s.phase ≠ .running → exec .getLine s = .next { s with fault := some .notRunning }) ∧
      (s.phase = .running →
        let recycled := match s.out with
          | some h0 => s.buf.modify h0 fun x => { x with len := none }
          | none => s.buf
        (s.readyQ = [] →
          exec .getLine s = .next { s with out := none, availQ := s.availQ ++ s.out.toList, buf := recycled,
                                           rspLog := s.rspLog ++ [0#64] }) ∧
        ∀ h rest, s.readyQ = h :: rest →
          ∃ len, s.lenAt h = some len ∧ 1 ≤ len ∧ len ≤ s.cfg.c ∧ exec .getLine s =
            .next { s with out := some h, readyQ := rest, availQ := s.availQ ++ s.out.toList, buf := recycled,
                           rspLog := s.rspLog ++
                             [0#8 ++ 1#1 ++ 1#1 ++ BitVec.ofNat 13 h ++ 0#13 ++ BitVec.ofNat 28 len] }))

/-- 42 R142, 20 R55: READ has a step only where the foreground is free and no mark is set; outside Running it faults. In
Running: as GET_LINE, and the first `n = min(L, cap)` bytes of the line go to the destination bytes `0..n-1`, the others
unchanged; the response is NL = 1 and COUNT = n, or all zero with no line. (`dst` holds the destination as READs left it, log
entry 6.) -/
def Obligations.ReadCommand : Prop :=
  ∀ (s : State) (cap : BitVec 28), BlockInv s →
    (∀ t, exec (.read cap) s = .next t → s.fault = none ∧ s.tx = .idle) ∧
    (s.fault = none → s.tx = .idle →
      (s.phase ≠ .running → exec (.read cap) s = .next { s with fault := some .notRunning }) ∧
      (s.phase = .running →
        let recycled := match s.out with
          | some h0 => s.buf.modify h0 fun x => { x with len := none }
          | none => s.buf
        (s.readyQ = [] →
          exec (.read cap) s = .next { s with out := none, availQ := s.availQ ++ s.out.toList, buf := recycled,
                                              rspLog := s.rspLog ++ [0#64] }) ∧
        ∀ h rest, s.readyQ = h :: rest →
          ∃ len d, s.lenAt h = some len ∧ exec (.read cap) s =
              .next { s with out := some h, readyQ := rest, availQ := s.availQ ++ s.out.toList, buf := recycled, dst := d,
                             rspLog := s.rspLog ++ [0#8 ++ 1#1 ++ 0#27 ++ BitVec.ofNat 28 (min len cap.toNat)] } ∧
            (∀ j < min len cap.toNat, Memory.read d j = s.bufRead h j ∧ s.bufRead h j ≠ none) ∧
            ∀ j, min len cap.toNat ≤ j → Memory.read d j = Memory.read s.dst j))

/-- 42 R144: LINE_BYTE has a step only where the foreground is free and no mark is set; outside Running it faults. In
Running: byte `i` of the checked-out line in the response's BYTE field and nothing else changed; with no line checked
out, or `i` at or past its length, NoLineData. -/
def Obligations.LineByteCommand : Prop :=
  ∀ (s : State) (i : BitVec 28), BlockInv s →
    (∀ t, exec (.lineByte i) s = .next t → s.fault = none ∧ s.tx = .idle) ∧
    (s.fault = none → s.tx = .idle →
      (s.phase ≠ .running → exec (.lineByte i) s = .next { s with fault := some .notRunning }) ∧
      (s.phase = .running →
        (s.out = none → exec (.lineByte i) s = .next { s with fault := some .noLineData }) ∧
        ∀ h, s.out = some h → ∃ len, s.lenAt h = some len ∧
          (len ≤ i.toNat → exec (.lineByte i) s = .next { s with fault := some .noLineData }) ∧
          (i.toNat < len → ∃ b, s.bufRead h i.toNat = some b ∧
            exec (.lineByte i) s = .next { s with rspLog := s.rspLog ++ [0#27 ++ b ++ 0#29] })))

/-- 42 R141, R145: a returned line stays valid: until the next GET_LINE or READ (or RESET), no input changes its buffer,
its place or its length, and it is not in AvailableQueue. -/
def Obligations.ReturnedLineStaysValid : Prop :=
  ∀ (s t : State) (x : Input) (h : Nat), BlockInv s → s.out = some h → x.isPort = true →
    decode x ≠ .getLine → (∀ cap, decode x ≠ .read cap) → decode x ≠ .reset → exec (decode x) s = .next t →
    t.out = some h ∧ t.bufAt h = s.bufAt h ∧ h ∉ t.availQ

/-! ### The whole block -/

/-- 10 R36, R39, R41, R46, R30, 20 R51, R56: from every state that keeps the invariant, whether a run reaches it or not,
a step leads to one that keeps it. -/
def Obligations.EveryStepKeepsTheInvariant : Prop :=
  ∀ s t : State, BlockInv s → step s = .next t → BlockInv t

/-- 10 R37, R47 (property P1): the buffers are conserved, so neither queue can overflow. -/
def Obligations.BuffersAreConserved : Prop :=
  ∀ s : State, BlockInv s →
    s.availQ.length + s.readyQ.length + (if s.cur = none then 0 else 1) + (if s.out = none then 0 else 1) = s.cfg.n ∧
    s.availQ.length ≤ s.cfg.n ∧ s.readyQ.length ≤ s.cfg.n

/-- 10 R42: no buffer leaves its cycle: across one input other than RESET a claimed buffer goes nowhere but to
ReadyQueue, and a ready buffer nowhere but to the checkout. -/
def Obligations.BufferLifecycle : Prop :=
  ∀ (s t : State) (x : Input) (h : Nat), BlockInv s → x.isPort = true → decode x ≠ .reset → exec (decode x) s = .next t →
    (s.cur = some h → t.cur = some h ∨ h ∈ t.readyQ) ∧ (h ∈ s.readyQ → h ∈ t.readyQ ∨ t.out = some h) ∧
    (s.out = some h → t.out = some h ∨ h ∈ t.availQ) ∧ (h ∈ s.availQ → h ∈ t.availQ ∨ t.cur = some h ∨ h ∈ t.readyQ)

/-- 10 R43: which instructions write each field; `cfg` and the waiting inputs are written by none, the mark by any. The
clauses on `inputs`, `rspLog`, `dst`, `arbLog`, `initAnswers` and `draws`, and that RESET writes none of these, are the
model's choice (log entries 1, 5, 6, 10 and 15): the spec's record has no such fields. -/
def Obligations.FieldsHaveTheirWriters : Prop :=
  ∀ (i : Instr) (s t : State), exec i s = .next t →
    t.cfg = s.cfg ∧ t.inputs = s.inputs ∧
    (t.phase ≠ s.phase → i = .init ∨ i = .reset) ∧
    (t.tx ≠ s.tx → (∃ c b, i = .write c b) ∨ i = .txAccept ∨ i = .reset) ∧
    (t.txLog ≠ s.txLog → i = .txAccept) ∧
    (t.evLog ≠ s.evLog → ∃ f, i = .rxFrame f) ∧
    (t.cur ≠ s.cur ∨ t.cursor ≠ s.cursor → (∃ f, i = .rxFrame f) ∨ i = .reset) ∧
    (t.out ≠ s.out → i = .getLine ∨ (∃ c, i = .read c) ∨ i = .recycleFetch ∨ i = .reset) ∧
    (t.readyQ ≠ s.readyQ → (∃ f, i = .rxFrame f) ∨ i = .getLine ∨ (∃ c, i = .read c) ∨ i = .reset ∨
      (∃ h, i = .publish h) ∨ i = .takeReady ∨ i = .recycleFetch) ∧
    (t.buf ≠ s.buf ∨ t.availQ ≠ s.availQ → (∃ f, i = .rxFrame f) ∨ i = .getLine ∨ (∃ c, i = .read c) ∨ i = .reset ∨
      i = .acquire ∨ (∃ h, i = .release h) ∨ i = .recycleFetch) ∧
    (t.rspLog ≠ s.rspLog → issuer i = .foreground ∨ i = .txAccept) ∧
    (t.dst ≠ s.dst → ∃ c, i = .read c) ∧
    (t.arbLog ≠ s.arbLog → issuer i = .unit) ∧
    (t.initAnswers ≠ s.initAnswers ∨ t.draws ≠ s.draws → i = .init)

/-- 20 R51, R52, 10 R43: no byte of a buffer changes but by RX_FRAME, by ACQUIRE and by RESET. -/
def Obligations.OnlyFramesStoreBytes : Prop :=
  ∀ (i : Instr) (s t : State), exec i s = .next t → (∀ f, i ≠ .rxFrame f) → i ≠ .acquire → i ≠ .reset →
    ∀ h k, t.bufRead h k = s.bufRead h k

/-- 10 R31, R32: the histories are only ever appended to, across RESET too. That the responses only grow, across RESET
too, is the model's choice (log entries 6 and 15). -/
def Obligations.HistoriesOnlyGrow : Prop :=
  ∀ s t : State, step s = .next t → s.txLog <+: t.txLog ∧ s.evLog <+: t.evLog ∧ s.rspLog <+: t.rspLog

/-- 60 R205, R206: a step that raises a fault sets the mark and changes nothing else, so it gives no response; and no
input clears the mark, RESET included: with the mark set none has a next state. -/
def Obligations.FaultsChangeOnlyTheMark : Prop :=
  ∀ (i : Instr) (s t : State), exec i s = .next t →
    s.fault = none ∧ (t.fault ≠ none → ∃ r, t = { s with fault := some r })

/-- 41 R132: a ready line shorter than the buffer ends with the terminator, and no line holds one before its last
byte. -/
def Obligations.ShortLinesEndWithTheTerminator : Prop :=
  ∀ (s : State) (h len : Nat), BlockInv s → h ∈ s.readyQ → s.lenAt h = some len →
    (len < s.cfg.c → s.bufRead h (len - 1) = some s.cfg.term) ∧
    ∀ i, i + 1 < len → s.bufRead h i ≠ some s.cfg.term
end

