-- ==== Sys2Proof/Laws/Memory.lean ====
section
/-! SUPPORT. The laws of the sparse byte stores: a write is read back, leaves every other index alone, and keeps the
canonical form. -/

namespace Sys2Proof.Machine

open Sys2Proof

@[simp] theorem Memory.read_nil (a : Nat) : Memory.read [] a = none := rfl

@[simp] theorem Memory.wf_nil : Memory.wf [] = true := rfl

/-- The canonical form, as an order of the indexes. -/
theorem Memory.wf_iff_pairwise (m : Memory) : Memory.wf m = true ↔ m.Pairwise (fun x y => x.1 < y.1) := by
  induction m with
  | nil => simp
  | cons x rest ih =>
    cases rest with
    | nil => simp [Memory.wf]
    | cons y rest =>
      simp only [Memory.wf, Bool.and_eq_true, decide_eq_true_eq, ih, List.pairwise_cons]
      constructor
      · rintro ⟨hxy, hy, hr⟩
        refine ⟨?_, hy, hr⟩
        intro z hz
        rcases List.mem_cons.mp hz with rfl | hz
        · exact hxy
        · exact lt_trans hxy (hy z hz)
      · rintro ⟨hx, hy, hr⟩
        exact ⟨hx y (List.mem_cons_self ..), hy, hr⟩

/-- The indexes of a store after a write. -/
theorem Memory.mem_write {m : Memory} {a : Nat} {b : Byte} {x : Nat × BitVec 8} (hx : x ∈ Memory.write m a b) :
    x = (a, b) ∨ x ∈ m := by
  induction m with
  | nil => simpa [Memory.write] using hx
  | cons c rest ih =>
    obtain ⟨u, v⟩ := c
    simp only [Memory.write] at hx
    split_ifs at hx
    · exact (List.mem_cons.mp hx).imp_right id
    · rcases List.mem_cons.mp hx with hx | hx
      · exact .inl hx
      · exact .inr (List.mem_cons_of_mem _ hx)
    · rcases List.mem_cons.mp hx with rfl | hx
      · exact .inr (List.mem_cons_self ..)
      · exact (ih hx).imp_right (List.mem_cons_of_mem _)

/-- A write keeps the canonical form. -/
theorem Memory.wf_write {m : Memory} (h : Memory.wf m = true) (a : Nat) (b : Byte) :
    Memory.wf (Memory.write m a b) = true := by
  rw [Memory.wf_iff_pairwise] at h ⊢
  induction m with
  | nil => simp [Memory.write]
  | cons c rest ih =>
    obtain ⟨u, v⟩ := c
    obtain ⟨hu, hr⟩ := List.pairwise_cons.mp h
    simp only [Memory.write]
    split_ifs with h1 h2
    · refine List.pairwise_cons.mpr ⟨?_, h⟩
      intro z hz
      rcases List.mem_cons.mp hz with rfl | hz
      · exact h1
      · exact lt_trans h1 (hu z hz)
    · subst h2
      exact List.pairwise_cons.mpr ⟨hu, hr⟩
    · refine List.pairwise_cons.mpr ⟨?_, ih hr⟩
      intro z hz
      rcases Memory.mem_write hz with rfl | hz
      · show u < a
        omega
      · exact hu z hz

/-- Writing a run of bytes keeps the canonical form. -/
theorem Memory.wf_writeMany {m : Memory} (h : Memory.wf m = true) (a : Nat) (bs : List Byte) :
    Memory.wf (Memory.writeMany m a bs) = true := by
  induction bs generalizing m a with
  | nil => exact h
  | cons b rest ih => exact ih (Memory.wf_write h a b) (a + 1)

/-- A write is read back. -/
@[simp] theorem Memory.read_write_self (m : Memory) (a : Nat) (b : Byte) :
    Memory.read (Memory.write m a b) a = some b := by
  induction m with
  | nil => simp [Memory.write, Memory.read]
  | cons c rest ih =>
    obtain ⟨u, v⟩ := c
    simp only [Memory.write]
    split_ifs with h1 h2
    · simp [Memory.read]
    · simp [Memory.read]
    · simp [Memory.read, ih, Ne.symm h2]

/-- A write leaves every other index alone. -/
theorem Memory.read_write_ne (m : Memory) {a c : Nat} (b : Byte) (hne : a ≠ c) :
    Memory.read (Memory.write m a b) c = Memory.read m c := by
  induction m with
  | nil => simp [Memory.write, Memory.read, hne]
  | cons x rest ih =>
    obtain ⟨u, v⟩ := x
    simp only [Memory.write]
    split_ifs with h1 h2
    · simp [Memory.read, hne]
    · subst h2
      simp [Memory.read, hne]
    · simp only [Memory.read, ih]

/-- Reading after a run of bytes was written. -/
theorem Memory.read_writeMany (m : Memory) (a : Nat) (bs : List Byte) (c : Nat) :
    Memory.read (Memory.writeMany m a bs) c =
      if a ≤ c ∧ c < a + bs.length then bs[c - a]? else Memory.read m c := by
  induction bs generalizing m a with
  | nil =>
    have h : ¬(a ≤ c ∧ c < a + ([] : List Byte).length) := by simp
    rw [Memory.writeMany, if_neg h]
  | cons b rest ih =>
    rw [Memory.writeMany, ih]
    by_cases h1 : c = a
    · subst h1
      simp
    · rw [Memory.read_write_ne m b (Ne.symm h1)]
      by_cases h2 : a + 1 ≤ c ∧ c < a + 1 + rest.length
      · have h3 : a ≤ c ∧ c < a + (b :: rest).length := by simp; omega
        have h4 : c - a = (c - (a + 1)) + 1 := by omega
        rw [if_pos h2, if_pos h3, h4, List.getElem?_cons_succ]
      · have h3 : ¬(a ≤ c ∧ c < a + (b :: rest).length) := by simp; omega
        rw [if_neg h2, if_neg h3]

/-- Writing two runs one after the other. -/
theorem Memory.writeMany_append (m : Memory) (a : Nat) (xs ys : List Byte) :
    Memory.writeMany m a (xs ++ ys) = Memory.writeMany (Memory.writeMany m a xs) (a + xs.length) ys := by
  induction xs generalizing m a with
  | nil => rfl
  | cons x rest ih =>
    rw [List.cons_append, Memory.writeMany, ih, Memory.writeMany, List.length_cons]
    congr 1
    omega

/-- What a run of bytes reads as, index by index. -/
theorem Memory.readMany_eq_some_iff (m : Memory) (a n : Nat) (bs : List Byte) :
    Memory.readMany m a n = some bs ↔ bs.length = n ∧ ∀ j < n, Memory.read m (a + j) = bs[j]? := by
  induction n generalizing a bs with
  | zero =>
    cases bs <;> simp [Memory.readMany]
  | succ n ih =>
    cases bs with
    | nil =>
      simp only [Memory.readMany, List.length_nil]
      constructor
      · intro h
        split at h <;> simp_all
      · rintro ⟨h, -⟩
        omega
    | cons b rest =>
      have hsplit : Memory.readMany m a (n + 1) = some (b :: rest) ↔
          Memory.read m a = some b ∧ Memory.readMany m (a + 1) n = some rest := by
        rw [Memory.readMany]
        constructor
        · intro h
          split at h
          · rename_i x xs h1 h2
            simp only [Option.some.injEq, List.cons.injEq] at h
            exact ⟨h.1 ▸ h1, h.2 ▸ h2⟩
          · cases h
        · rintro ⟨h1, h2⟩
          simp [h1, h2]
      rw [hsplit, ih]
      constructor
      · rintro ⟨h1, h2, h3⟩
        refine ⟨by simp [h2], ?_⟩
        intro j hj
        cases j with
        | zero => simpa using h1
        | succ j =>
          have := h3 j (by omega)
          rw [List.getElem?_cons_succ, ← this]
          congr 1
          omega
      · rintro ⟨h1, h2⟩
        refine ⟨by simpa using h2 0 (by omega), by simpa using h1, ?_⟩
        intro j hj
        have := h2 (j + 1) (by omega)
        rw [List.getElem?_cons_succ] at this
        rw [← this]
        congr 1
        omega

/-- Reading a run depends on its indexes alone. -/
theorem Memory.readMany_congr {m m' : Memory} {a n : Nat}
    (h : ∀ j < n, Memory.read m (a + j) = Memory.read m' (a + j)) :
    Memory.readMany m a n = Memory.readMany m' a n := by
  induction n generalizing a with
  | zero => rfl
  | succ n ih =>
    have h0 := h 0 (by omega)
    have hr : Memory.readMany m (a + 1) n = Memory.readMany m' (a + 1) n :=
      ih fun j hj => by
        have := h (j + 1) (by omega)
        rwa [show a + (j + 1) = a + 1 + j by omega] at this
    simp only [Nat.add_zero] at h0
    simp only [Memory.readMany, h0, hr]

/-- A byte written just past a run lengthens it. -/
theorem Memory.readMany_write_next {m : Memory} {n : Nat} {bs : List Byte} (b : Byte)
    (h : Memory.readMany m 0 n = some bs) :
    Memory.readMany (Memory.write m n b) 0 (n + 1) = some (bs ++ [b]) := by
  rw [Memory.readMany_eq_some_iff] at h ⊢
  obtain ⟨hl, hr⟩ := h
  refine ⟨by simp [hl], ?_⟩
  intro j hj
  by_cases hjn : j = n
  · subst hjn
    rw [List.getElem?_append_right (by omega)]
    simp [hl]
  · rw [Memory.read_write_ne m b (by omega), hr j (by omega), List.getElem?_append_left (by omega)]

/-- The stores of the reset state are canonical. -/
theorem State.reset_stores : (∀ x ∈ State.reset.buf, Memory.wf x.data = true) ∧ Memory.wf State.reset.dst = true := by
  decide

end Sys2Proof.Machine
end

