-- ==== Sys2Proof/Laws/State.lean ====
section
/-! SUPPORT. One lemma per field per named update of the state, so that no proof unfolds a record update. -/

namespace Sys2Proof.Machine

open Sys2Proof

/-! ### `modifyBuf` -/

section
variable (s : State) (h : Nat) (f : LineBuffer → LineBuffer)

@[simp] theorem State.modifyBuf_cfg : (s.modifyBuf h f).cfg = s.cfg := rfl
@[simp] theorem State.modifyBuf_phase : (s.modifyBuf h f).phase = s.phase := rfl
@[simp] theorem State.modifyBuf_buf : (s.modifyBuf h f).buf = s.buf.modify h f := rfl
@[simp] theorem State.modifyBuf_availQ : (s.modifyBuf h f).availQ = s.availQ := rfl
@[simp] theorem State.modifyBuf_readyQ : (s.modifyBuf h f).readyQ = s.readyQ := rfl
@[simp] theorem State.modifyBuf_cur : (s.modifyBuf h f).cur = s.cur := rfl
@[simp] theorem State.modifyBuf_cursor : (s.modifyBuf h f).cursor = s.cursor := rfl
@[simp] theorem State.modifyBuf_out : (s.modifyBuf h f).out = s.out := rfl
@[simp] theorem State.modifyBuf_tx : (s.modifyBuf h f).tx = s.tx := rfl
@[simp] theorem State.modifyBuf_txLog : (s.modifyBuf h f).txLog = s.txLog := rfl
@[simp] theorem State.modifyBuf_evLog : (s.modifyBuf h f).evLog = s.evLog := rfl
@[simp] theorem State.modifyBuf_fault : (s.modifyBuf h f).fault = s.fault := rfl
@[simp] theorem State.modifyBuf_rspLog : (s.modifyBuf h f).rspLog = s.rspLog := rfl
@[simp] theorem State.modifyBuf_dst : (s.modifyBuf h f).dst = s.dst := rfl
@[simp] theorem State.modifyBuf_arbLog : (s.modifyBuf h f).arbLog = s.arbLog := rfl
@[simp] theorem State.modifyBuf_inputs : (s.modifyBuf h f).inputs = s.inputs := rfl
@[simp] theorem State.modifyBuf_initAnswers : (s.modifyBuf h f).initAnswers = s.initAnswers := rfl
@[simp] theorem State.modifyBuf_draws : (s.modifyBuf h f).draws = s.draws := rfl

end

/-! ### `bufWrite` -/

section
variable (s : State) (h : Nat) (i : Nat) (b : Byte)

@[simp] theorem State.bufWrite_cfg : (s.bufWrite h i b).cfg = s.cfg := rfl
@[simp] theorem State.bufWrite_phase : (s.bufWrite h i b).phase = s.phase := rfl
@[simp] theorem State.bufWrite_buf : (s.bufWrite h i b).buf = s.buf.modify h fun x => { x with data := Memory.write x.data i b } := rfl
@[simp] theorem State.bufWrite_availQ : (s.bufWrite h i b).availQ = s.availQ := rfl
@[simp] theorem State.bufWrite_readyQ : (s.bufWrite h i b).readyQ = s.readyQ := rfl
@[simp] theorem State.bufWrite_cur : (s.bufWrite h i b).cur = s.cur := rfl
@[simp] theorem State.bufWrite_cursor : (s.bufWrite h i b).cursor = s.cursor := rfl
@[simp] theorem State.bufWrite_out : (s.bufWrite h i b).out = s.out := rfl
@[simp] theorem State.bufWrite_tx : (s.bufWrite h i b).tx = s.tx := rfl
@[simp] theorem State.bufWrite_txLog : (s.bufWrite h i b).txLog = s.txLog := rfl
@[simp] theorem State.bufWrite_evLog : (s.bufWrite h i b).evLog = s.evLog := rfl
@[simp] theorem State.bufWrite_fault : (s.bufWrite h i b).fault = s.fault := rfl
@[simp] theorem State.bufWrite_rspLog : (s.bufWrite h i b).rspLog = s.rspLog := rfl
@[simp] theorem State.bufWrite_dst : (s.bufWrite h i b).dst = s.dst := rfl
@[simp] theorem State.bufWrite_arbLog : (s.bufWrite h i b).arbLog = s.arbLog := rfl
@[simp] theorem State.bufWrite_inputs : (s.bufWrite h i b).inputs = s.inputs := rfl
@[simp] theorem State.bufWrite_initAnswers : (s.bufWrite h i b).initAnswers = s.initAnswers := rfl
@[simp] theorem State.bufWrite_draws : (s.bufWrite h i b).draws = s.draws := rfl

end

/-! ### `setLen` -/

section
variable (s : State) (h : Nat) (v : Option Nat)

@[simp] theorem State.setLen_cfg : (s.setLen h v).cfg = s.cfg := rfl
@[simp] theorem State.setLen_phase : (s.setLen h v).phase = s.phase := rfl
@[simp] theorem State.setLen_buf : (s.setLen h v).buf = s.buf.modify h fun x => { x with len := v } := rfl
@[simp] theorem State.setLen_availQ : (s.setLen h v).availQ = s.availQ := rfl
@[simp] theorem State.setLen_readyQ : (s.setLen h v).readyQ = s.readyQ := rfl
@[simp] theorem State.setLen_cur : (s.setLen h v).cur = s.cur := rfl
@[simp] theorem State.setLen_cursor : (s.setLen h v).cursor = s.cursor := rfl
@[simp] theorem State.setLen_out : (s.setLen h v).out = s.out := rfl
@[simp] theorem State.setLen_tx : (s.setLen h v).tx = s.tx := rfl
@[simp] theorem State.setLen_txLog : (s.setLen h v).txLog = s.txLog := rfl
@[simp] theorem State.setLen_evLog : (s.setLen h v).evLog = s.evLog := rfl
@[simp] theorem State.setLen_fault : (s.setLen h v).fault = s.fault := rfl
@[simp] theorem State.setLen_rspLog : (s.setLen h v).rspLog = s.rspLog := rfl
@[simp] theorem State.setLen_dst : (s.setLen h v).dst = s.dst := rfl
@[simp] theorem State.setLen_arbLog : (s.setLen h v).arbLog = s.arbLog := rfl
@[simp] theorem State.setLen_inputs : (s.setLen h v).inputs = s.inputs := rfl
@[simp] theorem State.setLen_initAnswers : (s.setLen h v).initAnswers = s.initAnswers := rfl
@[simp] theorem State.setLen_draws : (s.setLen h v).draws = s.draws := rfl

end

/-! ### `clearData` -/

section
variable (s : State) (h : Nat)

@[simp] theorem State.clearData_cfg : (s.clearData h).cfg = s.cfg := rfl
@[simp] theorem State.clearData_phase : (s.clearData h).phase = s.phase := rfl
@[simp] theorem State.clearData_buf : (s.clearData h).buf = s.buf.modify h fun x => { x with data := [] } := rfl
@[simp] theorem State.clearData_availQ : (s.clearData h).availQ = s.availQ := rfl
@[simp] theorem State.clearData_readyQ : (s.clearData h).readyQ = s.readyQ := rfl
@[simp] theorem State.clearData_cur : (s.clearData h).cur = s.cur := rfl
@[simp] theorem State.clearData_cursor : (s.clearData h).cursor = s.cursor := rfl
@[simp] theorem State.clearData_out : (s.clearData h).out = s.out := rfl
@[simp] theorem State.clearData_tx : (s.clearData h).tx = s.tx := rfl
@[simp] theorem State.clearData_txLog : (s.clearData h).txLog = s.txLog := rfl
@[simp] theorem State.clearData_evLog : (s.clearData h).evLog = s.evLog := rfl
@[simp] theorem State.clearData_fault : (s.clearData h).fault = s.fault := rfl
@[simp] theorem State.clearData_rspLog : (s.clearData h).rspLog = s.rspLog := rfl
@[simp] theorem State.clearData_dst : (s.clearData h).dst = s.dst := rfl
@[simp] theorem State.clearData_arbLog : (s.clearData h).arbLog = s.arbLog := rfl
@[simp] theorem State.clearData_inputs : (s.clearData h).inputs = s.inputs := rfl
@[simp] theorem State.clearData_initAnswers : (s.clearData h).initAnswers = s.initAnswers := rfl
@[simp] theorem State.clearData_draws : (s.clearData h).draws = s.draws := rfl

end

/-! ### `emit` -/

section
variable (s : State) (e : Event)

@[simp] theorem State.emit_cfg : (s.emit e).cfg = s.cfg := rfl
@[simp] theorem State.emit_phase : (s.emit e).phase = s.phase := rfl
@[simp] theorem State.emit_buf : (s.emit e).buf = s.buf := rfl
@[simp] theorem State.emit_availQ : (s.emit e).availQ = s.availQ := rfl
@[simp] theorem State.emit_readyQ : (s.emit e).readyQ = s.readyQ := rfl
@[simp] theorem State.emit_cur : (s.emit e).cur = s.cur := rfl
@[simp] theorem State.emit_cursor : (s.emit e).cursor = s.cursor := rfl
@[simp] theorem State.emit_out : (s.emit e).out = s.out := rfl
@[simp] theorem State.emit_tx : (s.emit e).tx = s.tx := rfl
@[simp] theorem State.emit_txLog : (s.emit e).txLog = s.txLog := rfl
@[simp] theorem State.emit_evLog : (s.emit e).evLog = s.evLog ++ [e] := rfl
@[simp] theorem State.emit_fault : (s.emit e).fault = s.fault := rfl
@[simp] theorem State.emit_rspLog : (s.emit e).rspLog = s.rspLog := rfl
@[simp] theorem State.emit_dst : (s.emit e).dst = s.dst := rfl
@[simp] theorem State.emit_arbLog : (s.emit e).arbLog = s.arbLog := rfl
@[simp] theorem State.emit_inputs : (s.emit e).inputs = s.inputs := rfl
@[simp] theorem State.emit_initAnswers : (s.emit e).initAnswers = s.initAnswers := rfl
@[simp] theorem State.emit_draws : (s.emit e).draws = s.draws := rfl

end

/-! ### `respond` -/

section
variable (s : State) (r : BitVec 64)

@[simp] theorem State.respond_cfg : (s.respond r).cfg = s.cfg := rfl
@[simp] theorem State.respond_phase : (s.respond r).phase = s.phase := rfl
@[simp] theorem State.respond_buf : (s.respond r).buf = s.buf := rfl
@[simp] theorem State.respond_availQ : (s.respond r).availQ = s.availQ := rfl
@[simp] theorem State.respond_readyQ : (s.respond r).readyQ = s.readyQ := rfl
@[simp] theorem State.respond_cur : (s.respond r).cur = s.cur := rfl
@[simp] theorem State.respond_cursor : (s.respond r).cursor = s.cursor := rfl
@[simp] theorem State.respond_out : (s.respond r).out = s.out := rfl
@[simp] theorem State.respond_tx : (s.respond r).tx = s.tx := rfl
@[simp] theorem State.respond_txLog : (s.respond r).txLog = s.txLog := rfl
@[simp] theorem State.respond_evLog : (s.respond r).evLog = s.evLog := rfl
@[simp] theorem State.respond_fault : (s.respond r).fault = s.fault := rfl
@[simp] theorem State.respond_rspLog : (s.respond r).rspLog = s.rspLog ++ [r] := rfl
@[simp] theorem State.respond_dst : (s.respond r).dst = s.dst := rfl
@[simp] theorem State.respond_arbLog : (s.respond r).arbLog = s.arbLog := rfl
@[simp] theorem State.respond_inputs : (s.respond r).inputs = s.inputs := rfl
@[simp] theorem State.respond_initAnswers : (s.respond r).initAnswers = s.initAnswers := rfl
@[simp] theorem State.respond_draws : (s.respond r).draws = s.draws := rfl

end

/-! ### `reply` -/

section
variable (s : State) (r : BitVec 16)

@[simp] theorem State.reply_cfg : (s.reply r).cfg = s.cfg := rfl
@[simp] theorem State.reply_phase : (s.reply r).phase = s.phase := rfl
@[simp] theorem State.reply_buf : (s.reply r).buf = s.buf := rfl
@[simp] theorem State.reply_availQ : (s.reply r).availQ = s.availQ := rfl
@[simp] theorem State.reply_readyQ : (s.reply r).readyQ = s.readyQ := rfl
@[simp] theorem State.reply_cur : (s.reply r).cur = s.cur := rfl
@[simp] theorem State.reply_cursor : (s.reply r).cursor = s.cursor := rfl
@[simp] theorem State.reply_out : (s.reply r).out = s.out := rfl
@[simp] theorem State.reply_tx : (s.reply r).tx = s.tx := rfl
@[simp] theorem State.reply_txLog : (s.reply r).txLog = s.txLog := rfl
@[simp] theorem State.reply_evLog : (s.reply r).evLog = s.evLog := rfl
@[simp] theorem State.reply_fault : (s.reply r).fault = s.fault := rfl
@[simp] theorem State.reply_rspLog : (s.reply r).rspLog = s.rspLog := rfl
@[simp] theorem State.reply_dst : (s.reply r).dst = s.dst := rfl
@[simp] theorem State.reply_arbLog : (s.reply r).arbLog = s.arbLog ++ [r] := rfl
@[simp] theorem State.reply_inputs : (s.reply r).inputs = s.inputs := rfl
@[simp] theorem State.reply_initAnswers : (s.reply r).initAnswers = s.initAnswers := rfl
@[simp] theorem State.reply_draws : (s.reply r).draws = s.draws := rfl

end

/-! ### `mark` -/

section
variable (s : State) (r : FaultReason)

@[simp] theorem State.mark_cfg : (s.mark r).cfg = s.cfg := rfl
@[simp] theorem State.mark_phase : (s.mark r).phase = s.phase := rfl
@[simp] theorem State.mark_buf : (s.mark r).buf = s.buf := rfl
@[simp] theorem State.mark_availQ : (s.mark r).availQ = s.availQ := rfl
@[simp] theorem State.mark_readyQ : (s.mark r).readyQ = s.readyQ := rfl
@[simp] theorem State.mark_cur : (s.mark r).cur = s.cur := rfl
@[simp] theorem State.mark_cursor : (s.mark r).cursor = s.cursor := rfl
@[simp] theorem State.mark_out : (s.mark r).out = s.out := rfl
@[simp] theorem State.mark_tx : (s.mark r).tx = s.tx := rfl
@[simp] theorem State.mark_txLog : (s.mark r).txLog = s.txLog := rfl
@[simp] theorem State.mark_evLog : (s.mark r).evLog = s.evLog := rfl
@[simp] theorem State.mark_fault : (s.mark r).fault = some r := rfl
@[simp] theorem State.mark_rspLog : (s.mark r).rspLog = s.rspLog := rfl
@[simp] theorem State.mark_dst : (s.mark r).dst = s.dst := rfl
@[simp] theorem State.mark_arbLog : (s.mark r).arbLog = s.arbLog := rfl
@[simp] theorem State.mark_inputs : (s.mark r).inputs = s.inputs := rfl
@[simp] theorem State.mark_initAnswers : (s.mark r).initAnswers = s.initAnswers := rfl
@[simp] theorem State.mark_draws : (s.mark r).draws = s.draws := rfl

end

/-! ### Reading buffers after an update of other fields -/

section
variable (s : State) (g : Nat) (i : Nat)

@[simp] theorem State.bufAt_emit (e : Event) : (s.emit e).bufAt g = s.bufAt g := rfl
@[simp] theorem State.lenAt_emit (e : Event) : (s.emit e).lenAt g = s.lenAt g := rfl
@[simp] theorem State.bufRead_emit (e : Event) : (s.emit e).bufRead g i = s.bufRead g i := rfl
@[simp] theorem State.bufAt_respond (r : BitVec 64) : (s.respond r).bufAt g = s.bufAt g := rfl
@[simp] theorem State.lenAt_respond (r : BitVec 64) : (s.respond r).lenAt g = s.lenAt g := rfl
@[simp] theorem State.bufRead_respond (r : BitVec 64) : (s.respond r).bufRead g i = s.bufRead g i := rfl
@[simp] theorem State.bufAt_reply (r : BitVec 16) : (s.reply r).bufAt g = s.bufAt g := rfl
@[simp] theorem State.lenAt_reply (r : BitVec 16) : (s.reply r).lenAt g = s.lenAt g := rfl
@[simp] theorem State.bufRead_reply (r : BitVec 16) : (s.reply r).bufRead g i = s.bufRead g i := rfl
@[simp] theorem State.bufAt_mark (r : FaultReason) : (s.mark r).bufAt g = s.bufAt g := rfl
@[simp] theorem State.lenAt_mark (r : FaultReason) : (s.mark r).lenAt g = s.lenAt g := rfl
@[simp] theorem State.bufRead_mark (r : FaultReason) : (s.mark r).bufRead g i = s.bufRead g i := rfl

end

/-! ### Reading buffers after an update of a buffer -/

section
variable (s : State) {g h : Nat}

/-- An update of one buffer leaves every other alone. -/
theorem State.bufAt_modifyBuf_ne (f : LineBuffer → LineBuffer) (hne : h ≠ g) :
    (s.modifyBuf h f).bufAt g = s.bufAt g := by
  simp [State.bufAt, State.modifyBuf, List.getD_eq_getElem?_getD, hne]

/-- The updated buffer, where the handle names one. -/
theorem State.bufAt_modifyBuf_self (f : LineBuffer → LineBuffer) (hlt : h < s.buf.length) :
    (s.modifyBuf h f).bufAt h = f (s.bufAt h) := by
  simp [State.bufAt, State.modifyBuf, List.getD_eq_getElem?_getD, hlt]

/-- Outside the arena nothing is updated. -/
theorem State.modifyBuf_of_le (f : LineBuffer → LineBuffer) (hle : s.buf.length ≤ h) : s.modifyBuf h f = s := by
  have hb : s.buf.modify h f = s.buf := by
    apply List.ext_getElem?
    intro i
    rw [List.getElem?_modify]
    by_cases hi : h = i
    · subst hi
      simp [List.getElem?_eq_none hle]
    · simp [hi]
  simp [State.modifyBuf, hb]

@[simp] theorem State.length_modifyBuf (f : LineBuffer → LineBuffer) :
    (s.modifyBuf h f).buf.length = s.buf.length := by
  simp [State.modifyBuf]

theorem State.bufAt_bufWrite_ne (i : Nat) (b : Byte) (hne : h ≠ g) : (s.bufWrite h i b).bufAt g = s.bufAt g :=
  s.bufAt_modifyBuf_ne _ hne

theorem State.bufAt_bufWrite_self (i : Nat) (b : Byte) (hlt : h < s.buf.length) :
    (s.bufWrite h i b).bufAt h = { s.bufAt h with data := Memory.write (s.bufAt h).data i b } :=
  s.bufAt_modifyBuf_self _ hlt

theorem State.bufAt_setLen_ne (v : Option Nat) (hne : h ≠ g) : (s.setLen h v).bufAt g = s.bufAt g :=
  s.bufAt_modifyBuf_ne _ hne

theorem State.bufAt_setLen_self (v : Option Nat) (hlt : h < s.buf.length) :
    (s.setLen h v).bufAt h = { s.bufAt h with len := v } :=
  s.bufAt_modifyBuf_self _ hlt

theorem State.bufAt_clearData_ne (hne : h ≠ g) : (s.clearData h).bufAt g = s.bufAt g :=
  s.bufAt_modifyBuf_ne _ hne

theorem State.bufAt_clearData_self (hlt : h < s.buf.length) :
    (s.clearData h).bufAt h = { s.bufAt h with data := [] } :=
  s.bufAt_modifyBuf_self _ hlt

/-- Outside the arena there is nothing in a buffer. -/
theorem State.bufAt_of_le (hle : s.buf.length ≤ h) : s.bufAt h = {} := by
  simp [State.bufAt, List.getD_eq_getElem?_getD, List.getElem?_eq_none hle]

/-- Clearing a buffer, for every handle. -/
theorem State.bufAt_clearData :
    (s.clearData h).bufAt g = if h = g then { s.bufAt g with data := [] } else s.bufAt g := by
  split
  · subst h
    by_cases hlt : g < s.buf.length
    · exact s.bufAt_clearData_self hlt
    · have hle := Nat.le_of_not_lt hlt
      rw [State.clearData, s.modifyBuf_of_le _ hle, s.bufAt_of_le hle]
  · exact s.bufAt_clearData_ne (by assumption)

/-- Invalidating a length, for every handle. -/
theorem State.bufAt_setLen_none :
    (s.setLen h none).bufAt g = if h = g then { s.bufAt g with len := none } else s.bufAt g := by
  split
  · subst h
    by_cases hlt : g < s.buf.length
    · exact s.bufAt_setLen_self _ hlt
    · have hle := Nat.le_of_not_lt hlt
      rw [State.setLen, s.modifyBuf_of_le _ hle, s.bufAt_of_le hle]
  · exact s.bufAt_setLen_ne _ (by assumption)

end

end Sys2Proof.Machine
end

