-- ==== Sys2Proof/Laws/Ops.lean ====
section
/-! SUPPORT. What the shared operations can do, one lemma each: the enabling gate, the phase gate, completing, and
picking the next input. -/

namespace Sys2Proof.Machine

open Sys2Proof

section
variable {s t : State} {a : Agent} {k : Host.Outcome State Fault Refusal}

@[simp] theorem TxState.isIdle_eq_true (x : TxState) : x.isIdle = true ↔ x = .idle := by
  cases x <;> simp [TxState.isIdle]

@[simp] theorem TxState.isIdle_eq_false (x : TxState) : x.isIdle = false ↔ ∃ src cut k, x = .busy src cut k := by
  cases x <;> simp [TxState.isIdle]

theorem State.enabled_foreground : s.enabled .foreground = true ↔ s.fault = none ∧ s.tx = .idle := by
  simp [State.enabled]

theorem State.enabled_interrupt : s.enabled .interrupt = true ↔ s.fault = none ∧ s.phase = .running := by
  simp [State.enabled]

theorem State.enabled_transport :
    s.enabled .transport = true ↔ s.fault = none ∧ ∃ src cut k, s.tx = .busy src cut k := by
  simp [State.enabled]

theorem State.enabled_platform : s.enabled .platform = true ↔ s.fault = none := by
  simp [State.enabled]

theorem State.enabled_unit : s.enabled .unit = true ↔ s.fault = none := by
  simp [State.enabled]

theorem State.fault_of_enabled (h : s.enabled a = true) : s.fault = none := by
  simp only [State.enabled, Bool.and_eq_true, Option.isNone_iff_eq_none] at h
  exact h.1

/-- The gate of an agent that has a step lets its meaning through. -/
theorem whenEnabled_of_enabled (h : s.enabled a = true) : whenEnabled a s k = k := by
  simp [whenEnabled, State.fault_of_enabled h, h]

/-- A next state comes through the gate only from an enabled agent. -/
theorem whenEnabled_next (h : whenEnabled a s k = .next t) : s.enabled a = true ∧ k = .next t := by
  unfold whenEnabled at h
  split at h
  · cases h
  · split at h
    · exact ⟨by assumption, h⟩
    · cases h

/-- In phase Running the phase gate is open. -/
theorem whenRunning_of_running (h : s.phase = .running) : whenRunning s k = k := if_pos h

/-- A next state behind the phase gate is the meaning's, or the mark NotRunning. -/
theorem whenRunning_next (h : whenRunning s k = .next t) :
    (s.phase = .running ∧ k = .next t) ∨ (s.phase ≠ .running ∧ t = s.mark .notRunning) := by
  unfold whenRunning at h
  split at h
  · exact .inl ⟨by assumption, h⟩
  · simp only [raiseFault, Host.Outcome.next.injEq] at h
    exact .inr ⟨by assumption, h.symm⟩

@[simp] theorem raiseFault_next (r : FaultReason) : raiseFault r s = .next t ↔ s.mark r = t := by
  simp [raiseFault]

/-- A completed operation's next state is its result, or the state it began in with the mark. -/
theorem complete_next {r : Except FaultReason State} (h : complete s r = .next t) :
    r = .ok t ∨ ∃ e, r = .error e ∧ t = s.mark e := by
  cases r with
  | ok u =>
    simp only [complete, Host.Outcome.next.injEq] at h
    exact .inl (h ▸ rfl)
  | error e =>
    simp only [complete, raiseFault, Host.Outcome.next.injEq] at h
    exact .inr ⟨e, rfl, h.symm⟩

@[simp] theorem complete_ok (u : State) : complete s (.ok u) = .next u := rfl

@[simp] theorem complete_error (e : FaultReason) : complete s (.error e) = .next (s.mark e) := rfl

end

/-- An input with a step has an enabled agent. -/
theorem State.enabled_of_ready {s : State} {x : Input} (h : s.ready x = true) : s.enabled x.agent = true := by
  simp only [State.ready, Bool.and_eq_true] at h
  exact h.1

/-- What `nextInput` picks: an input with a step, that no input of its own agent waits before; the others keep their
order. -/
theorem nextInput_some {s : State} {passed : List Agent} {xs : List Input} {x : Input} {left : List Input}
    (h : nextInput s passed xs = some (x, left)) :
    ∃ pre post, xs = pre ++ x :: post ∧ left = pre ++ post ∧ s.ready x = true ∧ x.agent ∉ passed ∧
      ∀ z ∈ pre, z.agent ≠ x.agent := by
  induction xs generalizing passed left with
  | nil => simp [nextInput] at h
  | cons z rest ih =>
    rw [nextInput] at h
    split at h
    · rename_i hz
      simp only [Bool.and_eq_true, decide_eq_true_eq] at hz
      simp only [Option.some.injEq, Prod.mk.injEq] at h
      obtain ⟨rfl, rfl⟩ := h
      exact ⟨[], rest, rfl, rfl, hz.1, hz.2, by simp⟩
    · split at h
      · rename_i y l hr
        simp only [Option.some.injEq, Prod.mk.injEq] at h
        obtain ⟨rfl, rfl⟩ := h
        obtain ⟨pre, post, rfl, rfl, hx, hp, hz⟩ := ih hr
        simp only [List.mem_cons, not_or] at hp
        refine ⟨z :: pre, post, rfl, rfl, hx, hp.2, ?_⟩
        intro w hw
        rcases List.mem_cons.mp hw with rfl | hw
        · exact fun he => hp.1 he.symm
        · exact hz w hw
      · cases h

/-- Inputs that have no step, or stand behind one of their own agent, are passed over. -/
theorem nextInput_append {s : State} {passed : List Agent} {pre rest : List Input}
    (h : ∀ p y q, pre = p ++ y :: q → s.ready y = false ∨ y.agent ∈ passed ∨ ∃ z ∈ p, z.agent = y.agent) :
    nextInput s passed (pre ++ rest) =
      (nextInput s ((pre.map Input.agent).reverse ++ passed) rest).map fun q => (q.1, pre ++ q.2) := by
  induction pre generalizing passed with
  | nil => simp
  | cons z pre ih =>
    have hz : (s.ready z && decide (z.agent ∉ passed)) = false := by
      rcases h [] z pre rfl with hz | hz | ⟨w, hw, -⟩
      · simp [hz]
      · simp [hz]
      · cases hw
    have hrest := ih (passed := z.agent :: passed) fun p y q hq => by
      rcases h (z :: p) y q (by rw [hq]; rfl) with hy | hy | ⟨w, hw, he⟩
      · exact .inl hy
      · exact .inr (.inl (List.mem_cons_of_mem _ hy))
      · rcases List.mem_cons.mp hw with rfl | hw
        · exact .inr (.inl (he ▸ List.mem_cons_self ..))
        · exact .inr (.inr ⟨w, hw, he⟩)
    rw [List.cons_append, nextInput, hz, hrest]
    simp only [List.map_cons, List.reverse_cons, List.append_assoc, List.singleton_append]
    cases nextInput s ((pre.map Input.agent).reverse ++ z.agent :: passed) rest with
    | none => rfl
    | some q => rfl

/-- An input with a step is taken when no input of its agent was passed over. -/
theorem nextInput_cons {s : State} {passed : List Agent} {x : Input} {rest : List Input} (hx : s.ready x = true)
    (hp : x.agent ∉ passed) : nextInput s passed (x :: rest) = some (x, rest) := by
  rw [nextInput]
  simp [hx, hp]

/-- What a step can do: nothing, when no input has a step, or the next input. -/
theorem step_next {s t : State} (h : step s = .next t) :
    s.cfg.valid = true ∧ s.fault = none ∧
      (t = s ∨ ∃ x left, nextInput s [] s.inputs = some (x, left) ∧ exec (decode x) { s with inputs := left } = .next t) := by
  unfold step at h
  split at h
  · rename_i hv
    split at h
    · cases h
    · rename_i hf
      refine ⟨hv, hf, ?_⟩
      split at h
      · rename_i i u hfetch
        unfold fetch at hfetch
        split at hfetch
        · rename_i x left hx
          simp only [Option.some.injEq, Prod.mk.injEq] at hfetch
          obtain ⟨rfl, rfl⟩ := hfetch
          exact .inr ⟨x, left, hx, h⟩
        · cases hfetch
      · simp only [Host.Outcome.next.injEq] at h
        exact .inl h.symm
  · cases h

end Sys2Proof.Machine
end

