-- ==== Sys2Proof/Laws/Pool.lean ====
section
/-! SUPPORT. What each request of the arbiter can do, one lemma each (spec 40). -/

namespace Sys2Proof.Machine

open Sys2Proof

section
variable {s t : State} {h : Nat}

/-- 40 R101. -/
theorem acquire_some_iff :
    acquire s = some (h, t) ↔ ∃ rest, s.availQ = h :: rest ∧ t = State.clearData { s with availQ := rest } h := by
  unfold acquire
  cases s.availQ with
  | nil => simp
  | cons g rest =>
    simp only [Option.some.injEq, Prod.mk.injEq, List.cons.injEq]
    constructor
    · rintro ⟨rfl, rfl⟩
      exact ⟨rest, ⟨rfl, rfl⟩, rfl⟩
    · rintro ⟨rest, ⟨rfl, rfl⟩, rfl⟩
      exact ⟨rfl, rfl⟩

/-- 40 R101: exhaustion. -/
theorem acquire_none_iff : acquire s = none ↔ s.availQ = [] := by
  unfold acquire
  cases s.availQ <;> simp

/-- 40 R102, R107. -/
theorem release_ok_iff :
    release h s = .ok t ↔ (h < s.cfg.n ∧ h ∉ s.availQ ∧ h ∉ s.readyQ ∧ s.cur ≠ some h) ∧
      t = { s.setLen h none with availQ := s.availQ ++ [h] } := by
  unfold release
  split
  · rename_i hc
    constructor
    · intro h'; cases h'
    · rintro ⟨⟨h1, h2, h3, h4⟩, -⟩
      rcases hc with hc | hc | hc | hc
      · exact absurd h1 (Nat.not_lt.mpr hc)
      · exact absurd hc h2
      · exact absurd hc h3
      · exact absurd hc h4
  · rename_i hc
    push Not at hc
    constructor
    · intro h'
      cases h'
      exact ⟨hc, rfl⟩
    · rintro ⟨-, rfl⟩
      rfl

/-- 40 R106, R107: a release that would break I1. -/
theorem release_error {e : FaultReason} (he : release h s = .error e) : e = .arbiterMisuse := by
  unfold release at he
  split at he
  · simpa using he.symm
  · cases he

/-- 40 R103, R107. -/
theorem publish_ok_iff :
    publish h s = .ok t ↔ (h < s.cfg.n ∧ s.cur = some h ∧ s.lenAt h ≠ none) ∧ t = { s with readyQ := s.readyQ ++ [h] } := by
  unfold publish
  split
  · rename_i hc
    constructor
    · intro h'; cases h'
    · rintro ⟨⟨h1, h2, h3⟩, -⟩
      rcases hc with hc | hc | hc
      · exact absurd h1 (Nat.not_lt.mpr hc)
      · exact absurd h2 hc
      · exact absurd hc h3
  · rename_i hc
    push Not at hc
    constructor
    · intro h'
      cases h'
      exact ⟨hc, rfl⟩
    · rintro ⟨-, rfl⟩
      rfl

/-- 40 R106, R107: a publish that would break I1. -/
theorem publish_error {e : FaultReason} (he : publish h s = .error e) : e = .arbiterMisuse := by
  unfold publish at he
  split at he
  · simpa using he.symm
  · cases he

/-- 40 R104. -/
theorem takeReady_some_iff :
    takeReady s = some (h, t) ↔ ∃ rest, s.readyQ = h :: rest ∧ t = { s with readyQ := rest } := by
  unfold takeReady
  cases s.readyQ with
  | nil => simp
  | cons g rest =>
    simp only [Option.some.injEq, Prod.mk.injEq, List.cons.injEq]
    constructor
    · rintro ⟨rfl, rfl⟩
      exact ⟨rest, ⟨rfl, rfl⟩, rfl⟩
    · rintro ⟨rest, ⟨rfl, rfl⟩, rfl⟩
      exact ⟨rfl, rfl⟩

theorem takeReady_none_iff : takeReady s = none ↔ s.readyQ = [] := by
  unfold takeReady
  cases s.readyQ <;> simp

/-- 40 R105: the deferred recycling: nothing with no buffer checked out, else RELEASE of it. -/
theorem recycle_ok_iff :
    recycle s = .ok t ↔ (s.out = none ∧ t = s) ∨
      ∃ h0, s.out = some h0 ∧ (h0 < s.cfg.n ∧ h0 ∉ s.availQ ∧ h0 ∉ s.readyQ ∧ s.cur ≠ some h0) ∧
        t = { s.setLen h0 none with availQ := s.availQ ++ [h0], out := none } := by
  unfold recycle
  cases ho : s.out with
  | none => simp [eq_comm]
  | some h0 =>
    simp only [reduceCtorEq, false_and, Option.some.injEq, exists_eq_left', false_or]
    cases hr : release h0 s with
    | error e =>
      have hn : ¬∃ u, release h0 s = .ok u := by simp [hr]
      simp only [release_ok_iff, exists_and_left, exists_eq, and_true] at hn
      simp [hn]
    | ok u =>
      obtain ⟨hc, rfl⟩ := release_ok_iff.mp hr
      simp only [hc, Except.ok.injEq, not_false_eq_true, ne_eq, and_self, true_and]
      exact eq_comm

/-- 40 R105: RECYCLE_FETCH is the recycling, then TAKE_READY into `out`. -/
theorem recycleFetch_ok_iff {r : Option Nat} :
    recycleFetch s = .ok (r, t) ↔ ∃ u, recycle s = .ok u ∧
      ((u.readyQ = [] ∧ r = none ∧ t = u) ∨
        ∃ h rest, u.readyQ = h :: rest ∧ r = some h ∧ t = { u with readyQ := rest, out := some h }) := by
  unfold recycleFetch
  cases recycle s with
  | error e => simp
  | ok u =>
    simp only [Except.ok.injEq, exists_eq_left']
    cases hq : u.readyQ with
    | nil =>
      have hn := takeReady_none_iff.mpr hq
      simp only [hn, Except.ok.injEq, Prod.mk.injEq, true_and, List.nil_eq, reduceCtorEq, false_and, exists_false, or_false]
      constructor <;> rintro ⟨rfl, rfl⟩ <;> exact ⟨rfl, rfl⟩
    | cons g rest =>
      have hs := takeReady_some_iff.mpr ⟨rest, hq, rfl⟩
      simp only [hs, Except.ok.injEq, Prod.mk.injEq, reduceCtorEq, false_and, false_or, List.cons.injEq]
      constructor
      · rintro ⟨rfl, rfl⟩
        exact ⟨g, rest, ⟨rfl, rfl⟩, rfl, rfl⟩
      · rintro ⟨h, rest', ⟨rfl, rfl⟩, rfl, rfl⟩
        exact ⟨rfl, rfl⟩

/-- 40 R105, R107: RECYCLE_FETCH can only end in the misuse of its RELEASE. -/
theorem recycleFetch_error {e : FaultReason} (he : recycleFetch s = .error e) : e = .arbiterMisuse := by
  unfold recycleFetch recycle at he
  cases ho : s.out with
  | none =>
    simp only [ho] at he
    split at he <;> cases he
  | some h0 =>
    simp only [ho] at he
    cases hr : release h0 s with
    | error e' =>
      simp only [hr] at he
      cases he
      exact release_error hr
    | ok u =>
      simp only [hr] at he
      split at he <;> cases he

end

end Sys2Proof.Machine
end

