-- ==== Sys2Proof/Laws/Assembler.lean ====
section
/-! SUPPORT. What the parts of the Line Assembler can do (spec 41): one lemma per part, and the induction over a frame's
bytes packaged once (`assemble_keeps`). -/

namespace Sys2Proof.Machine

open Sys2Proof

section
variable {s t : State} {h : Nat} {b : Byte}

/-- 41 R124: with room in the buffer the byte is stored at the cursor. -/
theorem appendByte_of_lt (hc : s.cursor < s.cfg.c) :
    appendByte h b s = { s.bufWrite h s.cursor b with cursor := s.cursor + 1 } := if_pos hc

/-- 41 R125: at capacity the byte is dropped. -/
theorem appendByte_of_ge (hc : s.cfg.c ≤ s.cursor) : appendByte h b s = s := if_neg (Nat.not_lt.mpr hc)

/-- Appending a byte writes the claimed buffer and the cursor, nothing else. -/
theorem appendByte_frame :
    appendByte h b s = { s with buf := (appendByte h b s).buf, cursor := (appendByte h b s).cursor } := by
  unfold appendByte
  split <;> rfl

@[simp] theorem appendByte_cfg : (appendByte h b s).cfg = s.cfg := by unfold appendByte; split <;> rfl
@[simp] theorem appendByte_phase : (appendByte h b s).phase = s.phase := by unfold appendByte; split <;> rfl
@[simp] theorem appendByte_availQ : (appendByte h b s).availQ = s.availQ := by unfold appendByte; split <;> rfl
@[simp] theorem appendByte_readyQ : (appendByte h b s).readyQ = s.readyQ := by unfold appendByte; split <;> rfl
@[simp] theorem appendByte_cur : (appendByte h b s).cur = s.cur := by unfold appendByte; split <;> rfl
@[simp] theorem appendByte_out : (appendByte h b s).out = s.out := by unfold appendByte; split <;> rfl
@[simp] theorem appendByte_tx : (appendByte h b s).tx = s.tx := by unfold appendByte; split <;> rfl
@[simp] theorem appendByte_evLog : (appendByte h b s).evLog = s.evLog := by unfold appendByte; split <;> rfl
@[simp] theorem appendByte_fault : (appendByte h b s).fault = s.fault := by unfold appendByte; split <;> rfl
@[simp] theorem appendByte_dst : (appendByte h b s).dst = s.dst := by unfold appendByte; split <;> rfl
@[simp] theorem appendByte_inputs : (appendByte h b s).inputs = s.inputs := by unfold appendByte; split <;> rfl

@[simp] theorem appendByte_buf_length : (appendByte h b s).buf.length = s.buf.length := by
  unfold appendByte
  split
  · exact s.length_modifyBuf _
  · rfl

/-- The cursor after a byte: one further, or at capacity. -/
theorem appendByte_cursor : (appendByte h b s).cursor = if s.cursor < s.cfg.c then s.cursor + 1 else s.cursor := by
  unfold appendByte
  split <;> rfl

/-- Appending a byte leaves every other buffer alone. -/
theorem appendByte_bufAt_ne {g : Nat} (hne : h ≠ g) : (appendByte h b s).bufAt g = s.bufAt g := by
  unfold appendByte
  split
  · exact s.bufAt_bufWrite_ne _ _ hne
  · rfl

/-- Appending a byte leaves every length alone. -/
theorem appendByte_lenAt (g : Nat) : (appendByte h b s).lenAt g = s.lenAt g := by
  unfold appendByte
  split
  · by_cases hne : h = g
    · subst hne
      by_cases hlt : h < s.buf.length
      · show ((s.bufWrite h s.cursor b).bufAt h).len = (s.bufAt h).len
        rw [s.bufAt_bufWrite_self _ _ hlt]
      · show ((s.modifyBuf h _).bufAt h).len = (s.bufAt h).len
        rw [s.modifyBuf_of_le _ (Nat.le_of_not_lt hlt)]
    · show ((s.bufWrite h s.cursor b).bufAt g).len = (s.bufAt g).len
      rw [s.bufAt_bufWrite_ne _ _ hne]
  · rfl

/-- 41 R126: ending a line sets the length, publishes and lets go. -/
theorem endLine_ok_iff :
    endLine h s = .ok t ↔ (h < s.cfg.n ∧ s.cur = some h ∧ (s.setLen h (some s.cursor)).lenAt h ≠ none) ∧
      t = { s.setLen h (some s.cursor) with readyQ := s.readyQ ++ [h], cur := none, cursor := 0 } := by
  unfold endLine
  cases hp : publish h (s.setLen h (some s.cursor)) with
  | error e =>
    have hn : ¬∃ u, publish h (s.setLen h (some s.cursor)) = .ok u := by simp [hp]
    simp only [publish_ok_iff, exists_and_left, exists_eq, and_true, State.setLen_cfg, State.setLen_cur] at hn
    simp [hn]
  | ok u =>
    obtain ⟨hc, rfl⟩ := publish_ok_iff.mp hp
    simp only [State.setLen_cfg, State.setLen_cur] at hc
    simp only [hc, Except.ok.injEq, not_false_eq_true, ne_eq, and_self, true_and]
    exact eq_comm

/-- 41 R126: within the arena a line can always be ended. -/
theorem endLine_of_claimed (hn : h < s.cfg.n) (hb : h < s.buf.length) (hc : s.cur = some h) :
    endLine h s = .ok { s.setLen h (some s.cursor) with readyQ := s.readyQ ++ [h], cur := none, cursor := 0 } := by
  refine endLine_ok_iff.mpr ⟨⟨hn, hc, ?_⟩, rfl⟩
  show ((s.setLen h (some s.cursor)).bufAt h).len ≠ none
  rw [s.bufAt_setLen_self _ hb]
  simp

/-- 41 R124 to R126: one byte of a claimed buffer. -/
theorem storeByte_of_not_term (hb : isTerm s.cfg b = false) : storeByte h b s = .ok (appendByte h b s) := by
  simp [storeByte, hb]

theorem storeByte_of_term (hb : isTerm s.cfg b = true) : storeByte h b s = endLine h (appendByte h b s) := by
  simp [storeByte, hb]

/-- 41 R122: what a claim does. -/
theorem claim_some_iff :
    claim s = some t ↔ ∃ h rest, s.availQ = h :: rest ∧
      t = { State.clearData { s with availQ := rest } h with cur := some h } := by
  unfold claim
  cases ha : acquire s with
  | none =>
    have hn := acquire_none_iff.mp ha
    simp [hn]
  | some p =>
    obtain ⟨g, u⟩ := p
    obtain ⟨rest, hq, rfl⟩ := acquire_some_iff.mp ha
    simp only [Option.some.injEq, hq, List.cons.injEq]
    constructor
    · rintro rfl
      exact ⟨g, rest, ⟨rfl, rfl⟩, rfl⟩
    · rintro ⟨h, rest', ⟨rfl, rfl⟩, rfl⟩
      rfl

theorem claim_none_iff : claim s = none ↔ s.availQ = [] := by
  unfold claim
  cases ha : acquire s with
  | none => simp [acquire_none_iff.mp ha]
  | some p =>
    obtain ⟨rest, hq, -⟩ := acquire_some_iff.mp ha
    simp [hq]

end

@[simp] theorem assemble_nil (s : State) : assemble [] s = .ok s := rfl

/-- 41 R124 to R126: a byte with a buffer claimed. -/
theorem assemble_cons_some {s : State} {h : Nat} (hc : s.cur = some h) (b : Byte) (rest : List Byte) :
    assemble (b :: rest) s = (storeByte h b s).bind (assemble rest) := by
  rw [assemble, hc]
  dsimp only
  cases storeByte h b s <;> rfl

/-- 41 R128: a terminator with no buffer claimed is dropped. -/
theorem assemble_cons_none_term {s : State} (hc : s.cur = none) {b : Byte} (hb : isTerm s.cfg b = true)
    (rest : List Byte) : assemble (b :: rest) s = assemble rest s := by
  rw [assemble, hc]
  simp [hb]

/-- 41 R127: another byte with no buffer claimed claims one, and is then processed into it. -/
theorem assemble_cons_none {s : State} (hc : s.cur = none) {b : Byte} (hb : isTerm s.cfg b = false)
    (rest : List Byte) :
    assemble (b :: rest) s =
      match claim s with
      | none => .ok (s.emit .poolExhausted)
      | some t => assemble (b :: rest) t := by
  rw [assemble, hc]
  simp only [hb, Bool.false_eq_true, if_false, claim]
  cases ha : acquire s with
  | none => rfl
  | some p =>
    obtain ⟨h, t⟩ := p
    dsimp only
    rw [assemble_cons_some (s := { t with cur := some h }) rfl]
    cases storeByte h b { t with cur := some h } <;> rfl

/-- The induction over a frame's bytes: what a claim, a processed byte and the event of a failed claim keep, a whole
frame keeps. -/
theorem assemble_keeps {P : State → Prop}
    (hclaim : ∀ u v, P u → u.cur = none → claim u = some v → P v)
    (hstore : ∀ u v h b, P u → u.cur = some h → storeByte h b u = .ok v → P v)
    (hemit : ∀ u, P u → u.cur = none → u.availQ = [] → P (u.emit .poolExhausted))
    {bs : List Byte} {s t : State} (hs : P s) (ht : assemble bs s = .ok t) : P t := by
  induction bs generalizing s with
  | nil =>
    cases ht
    exact hs
  | cons b rest ih =>
    have claimed : ∀ u h, P u → u.cur = some h → assemble (b :: rest) u = .ok t → P t := by
      intro u h hu hc hr
      rw [assemble_cons_some hc] at hr
      cases hst : storeByte h b u with
      | error e =>
        rw [hst] at hr
        cases hr
      | ok v =>
        rw [hst] at hr
        exact ih (hstore u v h b hu hc hst) hr
    cases hc : s.cur with
    | some h => exact claimed s h hs hc ht
    | none =>
      cases hb : isTerm s.cfg b with
      | true =>
        rw [assemble_cons_none_term hc hb] at ht
        exact ih hs ht
      | false =>
        rw [assemble_cons_none hc hb] at ht
        cases hcl : claim s with
        | none =>
          rw [hcl] at ht
          cases ht
          exact hemit s hs hc (claim_none_iff.mp hcl)
        | some u =>
          rw [hcl] at ht
          obtain ⟨h, r, hq, rfl⟩ := claim_some_iff.mp hcl
          exact claimed _ h (hclaim s _ hs hc hcl) rfl ht

/-- The same for a frame with its claim at the start (41 R122). -/
theorem assembleFrame_keeps {P : State → Prop}
    (hclaim : ∀ u v, P u → u.cur = none → claim u = some v → P v)
    (hstore : ∀ u v h b, P u → u.cur = some h → storeByte h b u = .ok v → P v)
    (hemit : ∀ u, P u → u.cur = none → u.availQ = [] → P (u.emit .poolExhausted))
    {bs : List Byte} {s t : State} (hs : P s) (ht : assembleFrame bs s = .ok t) : P t := by
  unfold assembleFrame at ht
  cases hc : s.cur with
  | some h =>
    rw [hc] at ht
    exact assemble_keeps hclaim hstore hemit hs ht
  | none =>
    rw [hc] at ht
    cases hcl : claim s with
    | none =>
      simp only [hcl] at ht
      cases ht
      exact hemit s hs hc (claim_none_iff.mp hcl)
    | some u =>
      simp only [hcl] at ht
      exact assemble_keeps hclaim hstore hemit (hclaim s u hs hc hcl) ht

/-- 41 R129: what RX_FRAME can do: fault on a malformed record, nothing on a frame the filter rejects, else assemble. -/
theorem execRxFrame_next {f : FrameRecord} {s t : State} (h : execRxFrame f s = .next t) :
    s.fault = none ∧ s.phase = .running ∧
      ((recordOk s.cfg f = false ∧ t = s.mark .malformedFrame) ∨
        (recordOk s.cfg f = true ∧ passesFilter s.cfg (frameOf f) = false ∧ t = s) ∨
        (recordOk s.cfg f = true ∧ passesFilter s.cfg (frameOf f) = true ∧
          (assembleFrame (frameOf f).data s = .ok t ∨
            ∃ e, assembleFrame (frameOf f).data s = .error e ∧ t = s.mark e))) := by
  obtain ⟨he, hk⟩ := whenEnabled_next h
  obtain ⟨hf, hp⟩ := State.enabled_interrupt.mp he
  refine ⟨hf, hp, ?_⟩
  split at hk
  · rename_i hok
    split at hk
    · rename_i hpass
      exact .inr (.inr ⟨hok, hpass, complete_next hk⟩)
    · rename_i hpass
      simp only [Host.Outcome.next.injEq] at hk
      exact .inr (.inl ⟨hok, by simpa using hpass, hk.symm⟩)
  · rename_i hok
    exact .inl ⟨by simpa using hok, ((raiseFault_next _).mp hk).symm⟩

end Sys2Proof.Machine
end

