-- ==== Sys2Proof/Laws/Control.lean ====
section
/-! SUPPORT. What the chunker's inputs, INIT, RESET and the illegal words can do (spec 43, 44, 70), one lemma each, and
the arithmetic of chunks. -/

namespace Sys2Proof.Machine

open Sys2Proof

section
variable {s t : State}

/-- What WRITE can do: the mark NotRunning, or the start of a write of exactly `count` bytes. -/
theorem execWrite_next {count : BitVec 28} {src : List Byte} (h : execWrite count src s = .next t) :
    s.fault = none ∧ s.tx = .idle ∧ ((s.phase = .running ∧ src.length = count.toNat ∧ t = startWrite src s) ∨
      (s.phase ≠ .running ∧ t = s.mark .notRunning)) := by
  obtain ⟨he, hk⟩ := whenEnabled_next h
  obtain ⟨hf, ht⟩ := State.enabled_foreground.mp he
  refine ⟨hf, ht, ?_⟩
  rcases whenRunning_next hk with ⟨hp, hk⟩ | hr
  · split at hk
    · rename_i hl
      simp only [Host.Outcome.next.injEq] at hk
      exact .inl ⟨hp, hl, hk.symm⟩
    · cases hk
  · exact .inr hr

/-- What TX_ACCEPT can do. -/
theorem execTxAccept_next (h : execTxAccept s = .next t) :
    s.fault = none ∧ ∃ src cut k, s.tx = .busy src cut k ∧ t = acceptChunk src cut k s := by
  obtain ⟨he, hk⟩ := whenEnabled_next h
  obtain ⟨hf, src, cut, k, ht⟩ := State.enabled_transport.mp he
  refine ⟨hf, src, cut, k, ht, ?_⟩
  simp only [ht, Host.Outcome.next.injEq] at hk
  exact hk.symm

/-- 43 R165: the last chunk accepted completes the write. -/
theorem acceptChunk_last {src : List Byte} {cut k : Nat} (h : k + 1 = chunkCount s.cfg cut) :
    acceptChunk src cut k s =
      State.respond { s with txLog := s.txLog ++ [chunkFrame s.cfg src cut k], tx := .idle } rspZero := if_pos h

/-- 43 R165: any other chunk accepted offers the next. -/
theorem acceptChunk_more {src : List Byte} {cut k : Nat} (h : k + 1 ≠ chunkCount s.cfg cut) :
    acceptChunk src cut k s =
      { s with txLog := s.txLog ++ [chunkFrame s.cfg src cut k], tx := .busy src cut (k + 1) } := if_neg h

/-- What INIT can do. -/
theorem execInit_next (h : execInit s = .next t) :
    s.fault = none ∧ s.tx = .idle ∧
      ((s.phase = .uninit ∧
          t = State.respond { takeOutcome s with phase := phaseAfterInit (initOutcome s) } (rspStatus (initOutcome s))) ∨
        (s.phase ≠ .uninit ∧ t = s.mark .reInit)) := by
  obtain ⟨he, hk⟩ := whenEnabled_next h
  obtain ⟨hf, ht⟩ := State.enabled_foreground.mp he
  refine ⟨hf, ht, ?_⟩
  split at hk
  · rename_i hp
    simp only [Host.Outcome.next.injEq] at hk
    exact .inl ⟨hp, hk.symm⟩
  · rename_i hp
    exact .inr ⟨hp, ((raiseFault_next _).mp hk).symm⟩

/-- Drawing the outcome of INIT moves the answers or the counter, nothing else. -/
theorem takeOutcome_frame :
    takeOutcome s = { s with initAnswers := (takeOutcome s).initAnswers, draws := (takeOutcome s).draws } := by
  unfold takeOutcome
  split <;> rfl

/-- What an illegal word can do. -/
theorem execIllegalCmd_next {op : BitVec 4} {arg : BitVec 28} (h : execIllegalCmd op arg s = .next t) :
    s.fault = none ∧ s.tx = .idle ∧ t = s.mark .illegalCommand := by
  obtain ⟨he, hk⟩ := whenEnabled_next h
  obtain ⟨hf, ht⟩ := State.enabled_foreground.mp he
  exact ⟨hf, ht, ((raiseFault_next _).mp hk).symm⟩

/-- What RESET can do. -/
theorem execReset_next (h : execReset s = .next t) : s.fault = none ∧ t = resetBlock s := by
  obtain ⟨he, hk⟩ := whenEnabled_next h
  simp only [Host.Outcome.next.injEq] at hk
  exact ⟨State.enabled_platform.mp he, hk.symm⟩

end

/-- Chunk `k` of `cut` bytes is one of the chunks exactly when its first byte is one of the bytes. -/
theorem lt_ceilDiv_iff {k cut p : Nat} (hp : 1 ≤ p) : k < ceilDiv cut p ↔ k * p < cut := by
  unfold ceilDiv
  rw [Nat.lt_iff_add_one_le, Nat.le_div_iff_mul_le (by omega), Nat.add_one_mul]
  omega

/-- The length of a chunk. -/
theorem chunk_length (g : Config) (src : List Byte) (cut k : Nat) (hc : cut ≤ src.length) :
    (chunk g src cut k).length = min ((k + 1) * g.p) cut - k * g.p := by
  unfold chunk sublist
  rw [List.length_drop, List.length_take]
  omega

/-- The end-of-stream cut is within the source. -/
theorem eosCut_le (eos : Byte) (src : List Byte) : eosCut eos src ≤ src.length := by
  induction src with
  | nil => simp [eosCut]
  | cons b rest ih =>
    unfold eosCut
    split
    · simp
    · simpa using ih

/-- A configuration's bounds, as the rules use them (00 R7). -/
theorem Config.bounds_of_valid {g : Config} (h : g.valid = true) :
    1 ≤ g.n ∧ g.n ≤ 8192 ∧ 1 ≤ g.c ∧ 1 ≤ g.p ∧ g.p ≤ 8 ∧ g.rxMax = 8 := by
  simp only [Config.valid, Bool.and_eq_true, decide_eq_true_eq] at h
  omega

end Sys2Proof.Machine
end

