-- ==== Sys2Proof/Laws/Decode.lean ====
section
/-! SUPPORT. The fields of the words the decoders read and the encoder writes (spec 30 R72, R80, R84): taking a word
apart and putting it together are inverse. -/

namespace Sys2Proof

/-- Two fields side by side, as a number. -/
theorem toNat_append_eq {m n : Nat} (x : BitVec m) (y : BitVec n) : (x ++ y).toNat = x.toNat * 2 ^ n + y.toNat := by
  rw [BitVec.toNat_append, ← Nat.shiftLeft_add_eq_or_of_lt y.isLt, Nat.shiftLeft_eq]

/-- The low field of two side by side. -/
@[simp] theorem extract_low_append {m n : Nat} (x : BitVec m) (y : BitVec n) : (x ++ y).extractLsb' 0 n = y := by
  apply BitVec.eq_of_toNat_eq
  rw [BitVec.extractLsb'_toNat, toNat_append_eq, Nat.shiftRight_zero, Nat.mul_add_mod_self_right, Nat.mod_eq_of_lt y.isLt]

/-- The high field of two side by side. -/
@[simp] theorem extract_high_append {m n : Nat} (x : BitVec m) (y : BitVec n) : (x ++ y).extractLsb' n m = x := by
  apply BitVec.eq_of_toNat_eq
  rw [BitVec.extractLsb'_toNat, toNat_append_eq, Nat.shiftRight_eq_div_pow, Nat.mul_comm,
    Nat.mul_add_div (Nat.two_pow_pos n), Nat.div_eq_of_lt y.isLt, Nat.add_zero, Nat.mod_eq_of_lt x.isLt]

/-- The two fields of a word, side by side again. -/
@[simp] theorem append_extract {m n : Nat} (w : BitVec (m + n)) : w.extractLsb' n m ++ w.extractLsb' 0 n = w := by
  apply BitVec.eq_of_toNat_eq
  have hw := w.isLt
  rw [Nat.pow_add] at hw
  rw [toNat_append_eq, BitVec.extractLsb'_toNat, BitVec.extractLsb'_toNat, Nat.shiftRight_zero,
    Nat.shiftRight_eq_div_pow, Nat.mod_eq_of_lt (Nat.div_lt_of_lt_mul (by rwa [Nat.mul_comm] at hw)), Nat.mul_comm]
  exact Nat.div_add_mod _ _

/-- A one-bit field as a flag. -/
@[simp] theorem getLsbD_zero_ofBool (b : Bool) : (BitVec.ofBool b).getLsbD 0 = b := by
  cases b <;> rfl

/-- A bit below the low field's width is a bit of the low field. -/
theorem getLsbD_append_low {m n i : Nat} (x : BitVec m) (y : BitVec n) (h : i < n) :
    (x ++ y).getLsbD i = y.getLsbD i := by
  rw [BitVec.getLsbD_append]
  simp [h]

/-- A bit from the low field's width on is a bit of the high field. -/
theorem getLsbD_append_high {m n : Nat} (i : Nat) (x : BitVec m) (y : BitVec n) :
    (x ++ y).getLsbD (n + i) = x.getLsbD i := by
  rw [BitVec.getLsbD_append]
  simp

/-- 30 R80: the fields of a frame header written from its fields. -/
theorem decodeFrame_frameHeader (rsv ide rtr : Bool) (id : BitVec 29) (dlc : BitVec 4) (data : BitVec 64) :
    decodeFrame (frameHeader rsv ide rtr id) dlc data = ⟨rsv, ide, rtr, id, dlc, data⟩ := by
  unfold decodeFrame frameHeader
  rw [FrameRecord.mk.injEq]
  refine ⟨?_, ?_, ?_, extract_low_append _ _, rfl, rfl⟩
  · exact ((getLsbD_append_high 2 _ id).trans (getLsbD_append_high 1 _ _)).trans
      ((getLsbD_append_high 0 _ _).trans (getLsbD_zero_ofBool rsv))
  · exact ((getLsbD_append_high 1 _ id).trans (getLsbD_append_high 0 _ _)).trans
      ((getLsbD_append_low _ _ (by omega)).trans (getLsbD_zero_ofBool ide))
  · exact (getLsbD_append_high 0 _ id).trans ((getLsbD_append_low _ _ (by omega)).trans (getLsbD_zero_ofBool rtr))

/-- 30 R80: the header written from the fields it was read as. -/
theorem frameHeader_decodeFrame (fh : BitVec 32) :
    frameHeader (fh.getLsbD 31) (fh.getLsbD 30) (fh.getLsbD 29) (fh.extractLsb' 0 29) = fh := by
  have hbit : ∀ k, BitVec.ofBool (fh.getLsbD k) = fh.extractLsb' k 1 := by
    intro k
    apply BitVec.eq_of_toNat_eq
    rw [BitVec.extractLsb'_toNat, BitVec.getLsbD, Nat.testBit_eq_decide_div_mod_eq, Nat.shiftRight_eq_div_pow]
    rcases Nat.mod_two_eq_zero_or_one (fh.toNat / 2 ^ k) with h | h <;> simp [h, BitVec.ofBool]
  apply BitVec.eq_of_toNat_eq
  have hw := fh.isLt
  unfold frameHeader
  rw [hbit, hbit, hbit, toNat_append_eq, toNat_append_eq, toNat_append_eq]
  simp only [BitVec.extractLsb'_toNat, Nat.shiftRight_eq_div_pow]
  omega

/-- 30 R72: the operation field of a command word. -/
theorem toNat_op (w : BitVec 32) : (w.extractLsb' 28 4).toNat = w.toNat / 2 ^ 28 := by
  have hw := w.isLt
  rw [BitVec.extractLsb'_toNat, Nat.shiftRight_eq_div_pow]
  omega

/-- 30 R84: the request field of an arbiter word. -/
theorem toNat_aop (w : BitVec 16) : (w.extractLsb' 13 3).toNat = w.toNat / 2 ^ 13 := by
  have hw := w.isLt
  rw [BitVec.extractLsb'_toNat, Nat.shiftRight_eq_div_pow]
  omega

/-- 30 R93: the decoder on a word given by its fields. -/
theorem decode_cmdInput (op : BitVec 4) (arg : BitVec 28) (src : List Byte) :
    decode (cmdInput op arg src) =
      match op.toNat with
      | 1 => if arg = 0 then .init else .illegalCmd op arg
      | 2 => .write arg (src.take arg.toNat)
      | 3 => if arg = 0 then .getLine else .illegalCmd op arg
      | 4 => .read arg
      | 5 => .lineByte arg
      | _ => .illegalCmd op arg := by
  show decodeCmd (op ++ arg) src = _
  rw [decodeCmd, extract_low_append, extract_high_append] <;> rfl

/-- 30 R85, 40 R106: the arbiter's decoder on a word given by its fields. -/
theorem decode_arbWord (aop : BitVec 3) (h : BitVec 13) :
    decode (.arb (arbWord aop h)) =
      match aop.toNat with
      | 0 => if h = 0 then .acquire else .arbReserved aop h
      | 1 => .publish h
      | 2 => .release h
      | 3 => if h = 0 then .takeReady else .arbReserved aop h
      | 4 => if h = 0 then .recycleFetch else .arbReserved aop h
      | _ => .arbReserved aop h := by
  show decodeArb (aop ++ h) = _
  rw [decodeArb, extract_low_append, extract_high_append] <;> rfl

end Sys2Proof
end

