-- ==== Sys2Proof/Laws/Flags.lean ====
section
/-! SUPPORT. The response and reply words with their zero fields put together (spec 30 R75, R87). -/

namespace Sys2Proof.Machine

open Sys2Proof

/-- A response word, as a number: each field at its place. -/
theorem toNat_rspWord (status : BitVec 8) (nl hv : Bool) (handle : BitVec 13) (byte : BitVec 8) (count : BitVec 28) :
    (rspWord status nl hv handle byte count).toNat =
      status.toNat * 2 ^ 56 + nl.toNat * 2 ^ 55 + hv.toNat * 2 ^ 54 + handle.toNat * 2 ^ 41 + byte.toNat * 2 ^ 29 +
        count.toNat := by
  unfold rspWord
  simp only [toNat_append_eq, BitVec.toNat_ofBool, BitVec.toNat_ofNat]
  ring_nf

theorem rspStatus_eq (st : Byte) : rspStatus st = st ++ 0#56 := by
  apply BitVec.eq_of_toNat_eq
  rw [rspStatus, toNat_rspWord, toNat_append_eq]
  simp

theorem rspZero_eq : rspZero = 0#64 := by decide

theorem rspNoLine_eq : rspNoLine = 0#64 := by decide

theorem rspReadNone_eq : rspReadNone = 0#64 := by decide

theorem rspLine_eq (h len : Nat) :
    rspLine h len = 0#8 ++ 1#1 ++ 1#1 ++ BitVec.ofNat 13 h ++ 0#13 ++ BitVec.ofNat 28 len := by
  apply BitVec.eq_of_toNat_eq
  rw [rspLine, toNat_rspWord]
  simp only [toNat_append_eq, BitVec.toNat_ofNat]
  simp
  omega

theorem rspRead_eq (n : Nat) : rspRead n = 0#8 ++ 1#1 ++ 0#27 ++ BitVec.ofNat 28 n := by
  apply BitVec.eq_of_toNat_eq
  rw [rspRead, toNat_rspWord]
  simp only [toNat_append_eq, BitVec.toNat_ofNat]
  simp

theorem rspByte_eq (b : Byte) : rspByte b = 0#27 ++ b ++ 0#29 := by
  apply BitVec.eq_of_toNat_eq
  rw [rspByte, toNat_rspWord]
  simp only [toNat_append_eq, BitVec.toNat_ofNat]
  simp

theorem arbReplyHandle_some (h : Nat) : arbReplyHandle (some h) = 1#1 ++ 0#2 ++ BitVec.ofNat 13 h := rfl

theorem arbReplyHandle_none : arbReplyHandle none = 0x0000#16 := by decide

theorem arbAck_eq : arbAck = 0x8000#16 := by decide

end Sys2Proof.Machine
end

