-- ==== Sys2Proof/Laws/Operands.lean ====
section
/-! SUPPORT. The bytes of a DATA word, read and written (spec 30 R80), and the two predicates on frames as their rules
state them (30 R81, 44 R181). -/

namespace Sys2Proof.Machine

open Sys2Proof

/-- 30 R80: a frame has as many data bytes as its record's DLC says. -/
@[simp] theorem length_frameOf (f : FrameRecord) : (frameOf f).data.length = f.dlc.toNat := by
  simp [frameOf, dataBytes]

/-- 30 R80: data byte `i` of a frame is bits `[8i+7:8i]` of its record's DATA. -/
theorem getElem?_frameOf (f : FrameRecord) {i : Nat} (hi : i < f.dlc.toNat) :
    (frameOf f).data[i]? = some (f.data.extractLsb' (8 * i) 8) := by
  simp [frameOf, dataBytes, dataByte, hi]

/-- Bit `k` of a DATA word is a bit of byte `k / 8`, or 0 past the last byte. -/
theorem getLsbD_dataWord (bs : List Byte) {k : Nat} (hk : k < 64) :
    (dataWord bs).getLsbD k = (bs[k / 8]?.getD 0).getLsbD (k % 8) := by
  induction bs generalizing k with
  | nil => simp [dataWord]
  | cons b rest ih =>
    rw [dataWord, BitVec.getLsbD_or, BitVec.getLsbD_shiftLeft, BitVec.getLsbD_setWidth]
    by_cases h : k < 8
    · have h0 : k / 8 = 0 := by omega
      have h1 : k % 8 = k := by omega
      simp [h, hk, h0, h1]
    · have h0 : k / 8 = (k - 8) / 8 + 1 := by omega
      have h1 : k % 8 = (k - 8) % 8 := by omega
      rw [ih (by omega), BitVec.getLsbD_of_ge b k (by omega), h0, List.getElem?_cons_succ, h1]
      simp [h, hk]

/-- 30 R80: byte `i` of a DATA word, the bytes past the last one 0. -/
theorem extract_dataWord (bs : List Byte) {i : Nat} (hi : i < 8) :
    (dataWord bs).extractLsb' (8 * i) 8 = bs[i]?.getD 0 := by
  apply BitVec.eq_of_getLsbD_eq
  intro j hj
  have h0 : (8 * i + j) / 8 = i := by omega
  have h1 : (8 * i + j) % 8 = j := by omega
  rw [BitVec.getLsbD_extractLsb', getLsbD_dataWord bs (by omega), h0, h1]
  simp [hj]

/-- 30 R81, with 00 R7's `RX_MAX = 8`. -/
theorem recordOk_iff {g : Config} (hg : g.rxMax = 8) (f : FrameRecord) :
    recordOk g f = true ↔ f.rsv = false ∧ f.dlc.toNat ≤ 8 ∧ (f.ide = true ∨ f.id.toNat ≤ 0x7FF) := by
  simp [recordOk, extId, hg, and_assoc]

/-- 44 R181. -/
theorem passesFilter_iff (g : Config) (f : Frame) :
    passesFilter g f = true ↔ f.rtr = false ∧ f.ide = rxExt g ∧ f.id = g.rxId := by
  simp [passesFilter, and_assoc]

end Sys2Proof.Machine
end

