-- ==== Sys2Proof/Laws/PerInstr.lean ====
section
/-! SUPPORT. The per-instruction family `Issuer`: the words of an instruction arrive at the port of the agent that the
tables of the spec name for it (30 R70, R71, R85). -/

namespace Sys2Proof.Laws.Issuer

open Sys2Proof

/-- The port of the encoded words is the issuing agent's. -/
def Statement (i : Instr) : Prop := (encode i).agent = issuer i

theorem init : Statement .init := rfl

theorem write (count : BitVec 28) (src : List Byte) : Statement (.write count src) := rfl

theorem getLine : Statement .getLine := rfl

theorem read (cap : BitVec 28) : Statement (.read cap) := rfl

theorem lineByte (i : BitVec 28) : Statement (.lineByte i) := rfl

theorem illegalCmd (op : BitVec 4) (arg : BitVec 28) : Statement (.illegalCmd op arg) := rfl

theorem rxFrame (f : FrameRecord) : Statement (.rxFrame f) := rfl

theorem txAccept : Statement .txAccept := rfl

theorem reset : Statement .reset := rfl

theorem acquire : Statement .acquire := rfl

theorem publish (h : BitVec 13) : Statement (.publish h) := rfl

theorem release (h : BitVec 13) : Statement (.release h) := rfl

theorem takeReady : Statement .takeReady := rfl

theorem recycleFetch : Statement .recycleFetch := rfl

theorem arbReserved (aop : BitVec 3) (h : BitVec 13) : Statement (.arbReserved aop h) := rfl

end Sys2Proof.Laws.Issuer
end

