-- ==== Sys2Proof/Laws/Reader.lean ====
section
/-! SUPPORT. What the Line Reader's operations can do (spec 42), one lemma each. -/

namespace Sys2Proof.Machine

open Sys2Proof

section
variable {s t : State}

/-- 42 R140: GET_LINE is RECYCLE_FETCH and a response. -/
theorem getLine_ok (h : getLine s = .ok t) :
    ∃ r u, recycleFetch s = .ok (r, u) ∧ ∃ w, t = u.respond w ∧
      ((r = none ∧ w = rspNoLine) ∨ ∃ g len, r = some g ∧ u.lenAt g = some len ∧ w = rspLine g len) := by
  unfold getLine at h
  split at h
  · cases h
  · rename_i u hr
    cases h
    exact ⟨none, u, hr, _, rfl, .inl ⟨rfl, rfl⟩⟩
  · rename_i g u hr
    split at h
    · cases h
    · rename_i len hl
      cases h
      exact ⟨some g, u, hr, _, rfl, .inr ⟨g, len, rfl, hl, rfl⟩⟩

/-- 42 R142: READ is RECYCLE_FETCH, a copy to the destination, and a response. -/
theorem readLine_ok {cap : Nat} (h : readLine cap s = .ok t) :
    ∃ r u, recycleFetch s = .ok (r, u) ∧
      ((r = none ∧ t = u.respond rspReadNone) ∨
        ∃ g len bs, r = some g ∧ u.lenAt g = some len ∧
          Memory.readMany (u.bufAt g).data 0 (min len cap) = some bs ∧
          t = State.respond { u with dst := Memory.writeMany u.dst 0 bs } (rspRead (min len cap))) := by
  unfold readLine at h
  split at h
  · cases h
  · rename_i u hr
    cases h
    exact ⟨none, u, hr, .inl ⟨rfl, rfl⟩⟩
  · rename_i g u hr
    split at h
    · cases h
    · rename_i len hl
      unfold copyOut at h
      split at h
      · cases h
      · rename_i bs hb
        cases h
        exact ⟨some g, u, hr, .inr ⟨g, len, bs, rfl, hl, hb, rfl⟩⟩

/-- 42 R144: LINE_BYTE changes nothing but the responses. -/
theorem lineByte_ok {i : Nat} (h : lineByte i s = .ok t) :
    ∃ g len b, s.out = some g ∧ s.lenAt g = some len ∧ i < len ∧ s.bufRead g i = some b ∧
      t = s.respond (rspByte b) := by
  unfold lineByte at h
  split at h
  · cases h
  · rename_i g ho
    split at h
    · cases h
    · rename_i len hl
      split at h
      · cases h
      · rename_i hi
        split at h
        · cases h
        · rename_i b hb
          cases h
          exact ⟨g, len, b, ho, hl, Nat.lt_of_not_le hi, hb, rfl⟩

/-- What GET_LINE can do. -/
theorem execGetLine_next (h : execGetLine s = .next t) :
    s.fault = none ∧ s.tx = .idle ∧ (getLine s = .ok t ∨ ∃ e, t = s.mark e) := by
  obtain ⟨he, hk⟩ := whenEnabled_next h
  obtain ⟨hf, ht⟩ := State.enabled_foreground.mp he
  refine ⟨hf, ht, ?_⟩
  rcases whenRunning_next hk with ⟨-, hk⟩ | ⟨-, rfl⟩
  · rcases complete_next hk with hk | ⟨e, -, rfl⟩
    · exact .inl hk
    · exact .inr ⟨e, rfl⟩
  · exact .inr ⟨_, rfl⟩

/-- What READ can do. -/
theorem execRead_next {cap : BitVec 28} (h : execRead cap s = .next t) :
    s.fault = none ∧ s.tx = .idle ∧ (readLine cap.toNat s = .ok t ∨ ∃ e, t = s.mark e) := by
  obtain ⟨he, hk⟩ := whenEnabled_next h
  obtain ⟨hf, ht⟩ := State.enabled_foreground.mp he
  refine ⟨hf, ht, ?_⟩
  rcases whenRunning_next hk with ⟨-, hk⟩ | ⟨-, rfl⟩
  · rcases complete_next hk with hk | ⟨e, -, rfl⟩
    · exact .inl hk
    · exact .inr ⟨e, rfl⟩
  · exact .inr ⟨_, rfl⟩

/-- What LINE_BYTE can do. -/
theorem execLineByte_next {i : BitVec 28} (h : execLineByte i s = .next t) :
    s.fault = none ∧ s.tx = .idle ∧ (lineByte i.toNat s = .ok t ∨ ∃ e, t = s.mark e) := by
  obtain ⟨he, hk⟩ := whenEnabled_next h
  obtain ⟨hf, ht⟩ := State.enabled_foreground.mp he
  refine ⟨hf, ht, ?_⟩
  rcases whenRunning_next hk with ⟨-, hk⟩ | ⟨-, rfl⟩
  · rcases complete_next hk with hk | ⟨e, -, rfl⟩
    · exact .inl hk
    · exact .inr ⟨e, rfl⟩
  · exact .inr ⟨_, rfl⟩

end

end Sys2Proof.Machine
end

