-- ==== Sys2Proof/Tests/Slice0.lean ====
section
/-! SUPPORT. Tests of single steps against the vectors of spec 95 (named in each comment), decoding tests on words
written out from the encoding tables of spec 30, and a witness for the hypotheses of every obligation that has some. -/

namespace Sys2Proof.Tests

open Sys2Proof Sys2Proof.Machine

/-! ### Small states -/

/-- Running, with nothing else done since reset (spec 95 section 2: `availQ = [0, 1]`). -/
def idle : State := { State.reset with phase := .running }

/-- The same for other parameters. -/
def idleWith (n c : Nat) : State := { State.resetOf { Config.test with n := n, c := c } with phase := .running }

/-- Buffer 0 claimed with `hi` written (spec 95 A9: `cur = some 0`, `cursor = 2`). -/
def filling : State :=
  { idle with buf := [{ data := [(0, 0x68), (1, 0x69)] }, {}], availQ := [1], cur := some 0, cursor := 2 }

/-- Buffer 0 claimed and full. -/
def full : State :=
  { idleWith 2 2 with buf := [{ data := [(0, 0x68), (1, 0x69)] }, {}], availQ := [1], cur := some 0, cursor := 2 }

/-- The buffers of the line `hi` and of nothing. -/
def hiBuf : List LineBuffer := [{ data := [(0, 0x68), (1, 0x69), (2, 0x0A)], len := some 3 }, {}]

/-- One line ready (spec 95 A1, R2). -/
def lineReady : State := { idle with buf := hiBuf, availQ := [1], readyQ := [0] }

/-- That line checked out (spec 95 after R2). -/
def lineOut : State := { idle with buf := hiBuf, availQ := [1], out := some 0 }

/-- One line checked out and one ready (spec 95 section 1.1, after step 3). -/
def bothLines : State :=
  { idle with
    buf := [{ data := [(0, 0x68), (1, 0x69), (2, 0x0A)], len := some 3 }, { data := [(0, 0x78), (1, 0x0A)], len := some 2 }]
    availQ := []
    readyQ := [1]
    out := some 0 }

/-- One line ready and nothing available, `N = 1` (spec 95 before A10). -/
def exhausted : State :=
  { idleWith 1 16 with buf := [{ data := [(0, 0x78), (1, 0x0A)], len := some 2 }], availQ := [], readyQ := [0] }

/-- Buffer 0 claimed and nothing available, `N = 1`. -/
def lastBuffer : State := { idleWith 1 16 with availQ := [], cur := some 0 }

/-- A write of ten bytes with its second chunk on offer (spec 95 Z2). -/
def writing : State := { idle with tx := .busy (List.replicate 10 0x31) 10 1 }

/-- The input of a WRITE of two bytes, the second not yet at the port. -/
def partialWrite : Input := .port { sel := 0, cmd := 0x20000002, src := [0x41] }

/-- A frame record from its three words. -/
def frameRec (fh : BitVec 32) (dlc : BitVec 4) (data : BitVec 64) : FrameRecord := decodeFrame fh dlc data

/-- The record of the line `hi` (spec 95 A1). -/
def hiFrame : FrameRecord := frameRec 0x00000123 3 0x00000000000A6968

/-- Whether the instruction has a next state with the property. -/
def after (i : Instr) (s : State) (p : State → Bool) : Bool :=
  match exec i s with
  | .next t => p t
  | .fault _ => false
  | .refused _ => false

/-! ### Well-formedness: one ill-formed term for each check -/

/-- 30 R77: WRITE of two bytes with one byte. -/
theorem test_wellFormed_write : WellFormed (.write 2 [0x41]) = false := by decide

/-- 30 R89: `OP = 2` is no illegal word, and INIT with `ARG = 0` is none. -/
theorem test_wellFormed_illegalCmd : WellFormed (.illegalCmd 2 0) = false ∧ WellFormed (.illegalCmd 1 0) = false := by
  decide

/-- 40 R106: `AOP = 1` is no reserved request, and TAKE_READY with `H = 0` is none. -/
theorem test_wellFormed_arbReserved : WellFormed (.arbReserved 1 5) = false ∧ WellFormed (.arbReserved 3 0) = false := by
  decide

/-! ### Decoding: a word of every constructor, bit by bit from 30 R71, R73, R80, R85 -/

/-- 30 R73: `OP` in bits 31..28, `ARG` in bits 27..0. -/
theorem test_decode_commands :
    decode (.port { sel := 0b00, cmd := 0b00010000000000000000000000000000 }) = .init ∧
    decode (.port { sel := 0b00, cmd := 0b00100000000000000000000000000010, src := [0x41, 0x42] }) = .write 2 [0x41, 0x42] ∧
    decode (.port { sel := 0b00, cmd := 0b00110000000000000000000000000000 }) = .getLine ∧
    decode (.port { sel := 0b00, cmd := 0b01001000000000000000000000000001 }) = .read 0x8000001 ∧
    decode (.port { sel := 0b00, cmd := 0b01011000000000000000000000000011 }) = .lineByte 0x8000003 := by
  decide

/-- 30 R89 (spec 95 X1 to X5). -/
theorem test_decode_illegal :
    decode (.port { sel := 0b00, cmd := 0x00000000 }) = .illegalCmd 0 0 ∧
    decode (.port { sel := 0b00, cmd := 0x60000000 }) = .illegalCmd 6 0 ∧
    decode (.port { sel := 0b00, cmd := 0xF0000000 }) = .illegalCmd 15 0 ∧
    decode (.port { sel := 0b00, cmd := 0x10000001 }) = .illegalCmd 1 1 ∧
    decode (.port { sel := 0b00, cmd := 0x30000001 }) = .illegalCmd 3 1 := by
  decide

/-- 30 R80: header bits 31, 30, 29 and the identifier below them; 30 R71: the selectors. -/
theorem test_decode_ports :
    decode (.port { sel := 0b01, fh := 0b01011000110110100000000011110001, dlc := 2, data := 0x0A78 }) =
      .rxFrame { rsv := false, ide := true, rtr := false, id := 0x18DA00F1, dlc := 2, data := 0x0A78 } ∧
    decode (.port { sel := 0b01, fh := 0b10100000000000000000000100100011, dlc := 0 }) =
      .rxFrame { rsv := true, ide := false, rtr := true, id := 0x123, dlc := 0, data := 0 } ∧
    decode (.port { sel := 0b10 }) = .txAccept ∧
    decode (.port { sel := 0b11 }) = .reset := by
  decide

/-- 30 R84, R85: `AOP` in bits 15..13, `H` in bits 12..0 (spec 95 B1 to B15). -/
theorem test_decode_requests :
    decode (.arb 0b0000000000000000) = .acquire ∧
    decode (.arb 0b0011000000000001) = .publish 0x1001 ∧
    decode (.arb 0b0100000000000010) = .release 2 ∧
    decode (.arb 0b0110000000000000) = .takeReady ∧
    decode (.arb 0b1000000000000000) = .recycleFetch ∧
    decode (.arb 0b1010000000000000) = .arbReserved 5 0 ∧
    decode (.arb 0b0000000000000001) = .arbReserved 0 1 := by
  decide

/-- spec/opcode_table.json: the table's own words, one of each width. -/
theorem test_decode_table :
    decodeTableWord 32 0x20000002 = some (.write 2 [0, 0]) ∧
    decodeTableWord 8 1 = some (.rxFrame (frameRec 0 0 0)) ∧
    decodeTableWord 16 0x4001 = some (.release 1) := by
  decide

/-! ### Steps -/

/-- 95 I1. -/
theorem test_init_success :
    after .init { State.reset with initAnswers := [0x00] } (fun t => t.phase == .running && t.rspLog == [0x0]) = true := by
  decide

/-- 95 I2. -/
theorem test_init_failure :
    after .init { State.reset with initAnswers := [0x05] }
      (fun t => t.phase == .failed && t.rspLog == [0x0500000000000000]) = true := by
  decide

/-- 95 W4: cut at the marker. -/
theorem test_write_cut :
    after (.write 5 [0x61, 0x62, 0x00, 0x63, 0x64]) idle
      (fun t => t.tx == .busy [0x61, 0x62, 0x00, 0x63, 0x64] 2 0 && t.rspLog == []) = true := by
  decide

/-- 95 W5: nothing before the marker. -/
theorem test_write_empty :
    after (.write 2 [0x00, 0x0A]) idle (fun t => t.tx == .idle && t.rspLog == [0x0] && t.txLog == []) = true := by
  decide

/-- 95 R2. -/
theorem test_getLine :
    after .getLine lineReady
      (fun t => t.rspLog == [0x00C0000000000003] && t.out == some 0 && t.readyQ == [] && t.availQ == [1]) = true := by
  decide

/-- 95 R12, 1.1 step 5: no line follows, the buffer is released all the same. -/
theorem test_getLine_none :
    after .getLine lineOut
      (fun t => t.rspLog == [0x0] && t.out == none && t.availQ == [1, 0] && t.lenAt 0 == none) = true := by
  decide

/-- 95 R8, with a line of three bytes: `READ 2`. -/
theorem test_read :
    after (.read 2) lineReady
      (fun t => t.rspLog == [0x0080000000000002] && t.dst == [(0, 0x68), (1, 0x69)] && t.out == some 0) = true := by
  decide

/-- 95 R11. -/
theorem test_read_none :
    after (.read 8) { idle with dst := [(5, 0x77)] } (fun t => t.rspLog == [0x0] && t.dst == [(5, 0x77)]) = true := by
  decide

/-- 95 R5. -/
theorem test_lineByte : after (.lineByte 2) lineOut (fun t => t.rspLog == [0x0000000140000000] && t.out == some 0) = true := by
  decide

/-- 95 R6. -/
theorem test_lineByte_past : after (.lineByte 3) lineOut (fun t => t == lineOut.mark .noLineData) = true := by decide

/-- 95 X4: an illegal word in Uninit. -/
theorem test_illegalCmd :
    after (.illegalCmd 1 1) State.reset (fun t => t == State.reset.mark .illegalCommand) = true := by
  decide

/-- 95 A4: truncation at `C = 4`, no event. -/
theorem test_rxFrame_truncates :
    after (.rxFrame (frameRec 0x00000123 7 0x000A666564636261)) (idleWith 2 4)
      (fun t => t.bufAt 0 == { data := [(0, 0x61), (1, 0x62), (2, 0x63), (3, 0x64)], len := some 4 } &&
        t.readyQ == [0] && t.evLog == [] && t.cur == none && t.cursor == 0) = true := by
  decide

/-- 95 A7: two lines and the start of a third in one frame, a terminator dropped. -/
theorem test_rxFrame_lines :
    after (.rxFrame (frameRec 0x00000123 6 0x0000630A0A620A61)) (idleWith 3 8)
      (fun t => t.readyQ == [0, 1] && t.lineAt 0 == [0x61, 0x0A] && t.lineAt 1 == [0x62, 0x0A] && t.cur == some 2 &&
        t.cursor == 1 && t.bufRead 2 0 == some 0x63) = true := by
  decide

/-- 95 program 2, step 8: the last chunk completes the write. -/
theorem test_txAccept_last :
    after .txAccept writing
      (fun t => t.tx == .idle && t.rspLog == [0x0] &&
        t.txLog == [{ id := 0x321, ide := false, rtr := false, data := [0x31, 0x31] }]) = true := by
  decide

/-- 95 W8: the record on the transmit port under extended addressing. -/
theorem test_offer_extended :
    (offered { writing with cfg := { Config.test with txId := 0x1ABCDE00 }, tx := .busy [0x61, 0x62, 0x0A] 3 0 }).map
        (fun f => (frameHeader false f.ide f.rtr f.id, (recordOf f).dlc, (recordOf f).data)) =
      some (0x5ABCDE00, 3, 0x00000000000A6261) := by
  decide

/-- 95 Z1. -/
theorem test_reset_pool :
    after .reset bothLines
      (fun t => t.phase == .uninit && t.availQ == [0, 1] && t.readyQ == [] && t.out == none && t.lenAt 0 == none &&
        t.lenAt 1 == none) = true := by
  decide

/-- 95 Z2: the logs are kept, the write never responds. -/
theorem test_reset_write :
    after .reset { writing with txLog := [chunkFrame Config.test (List.replicate 10 0x31) 10 0] }
      (fun t => t.tx == .idle && t.txLog.length == 1 && t.rspLog == []) = true := by
  decide

/-- 95 B2. -/
theorem test_acquire :
    after .acquire { idle with availQ := [1, 0] } (fun t => t.arbLog == [0x8001] && t.availQ == [0] && t.cur == none) = true := by
  decide

/-- 95 B3. -/
theorem test_acquire_none :
    after .acquire { idle with availQ := [] } (fun t => t.arbLog == [0x0000] && t.availQ == []) = true := by
  decide

/-- 95 B5. -/
theorem test_publish :
    after (.publish 1) { idle with buf := [{ len := some 1 }, { len := some 2 }], availQ := [], readyQ := [0], cur := some 1 }
      (fun t => t.arbLog == [0x8000] && t.readyQ == [0, 1]) = true := by
  decide

/-- 95 B12. -/
theorem test_publish_unclaimed : after (.publish 0) idle (fun t => t == idle.mark .arbiterMisuse) = true := by decide

/-- 95 B4. -/
theorem test_release :
    after (.release 1) { idle with buf := [{}, { len := some 3 }], availQ := [0], out := some 1 }
      (fun t => t.arbLog == [0x8000] && t.availQ == [0, 1] && t.lenAt 1 == none) = true := by
  decide

/-- 95 B11, B15. -/
theorem test_release_misuse :
    after (.release 0) idle (fun t => t == idle.mark .arbiterMisuse) = true ∧
    after (.release 2) idle (fun t => t == idle.mark .arbiterMisuse) = true := by
  decide

/-- 95 B6. -/
theorem test_takeReady :
    after .takeReady { idle with availQ := [], readyQ := [0, 1] } (fun t => t.arbLog == [0x8000] && t.readyQ == [1]) = true := by
  decide

/-- 95 B8. -/
theorem test_recycleFetch :
    after .recycleFetch bothLines
      (fun t => t.arbLog == [0x8001] && t.out == some 1 && t.readyQ == [] && t.availQ == [0]) = true := by
  decide

/-- 95 B9. -/
theorem test_recycleFetch_none :
    after .recycleFetch lineOut (fun t => t.arbLog == [0x0000] && t.out == none && t.availQ == [1, 0]) = true := by
  decide

/-- 95 B14. -/
theorem test_arbReserved : after (.arbReserved 0 1) idle (fun t => t == idle.mark .arbiterMisuse) = true := by decide

/-! ### Witnesses: states and operands that meet the hypotheses of the obligations -/

/-- What `BlockInv` asks, on small states. -/
theorem idle_inv : BlockInv idle :=
  ⟨by decide, by decide, by decide, by decide, by decide, by decide, by decide, by decide, by decide, by decide,
    by decide, by decide, by decide⟩

theorem reset_inv : BlockInv State.reset :=
  ⟨by decide, by decide, by decide, by decide, by decide, by decide, by decide, by decide, by decide, by decide,
    by decide, by decide, by decide⟩

theorem filling_inv : BlockInv filling :=
  ⟨by decide, by decide, by decide, by decide, by decide, by decide, by decide, by decide, by decide, by decide,
    by decide, by decide, by decide⟩

theorem lineReady_inv : BlockInv lineReady :=
  ⟨by decide, by decide, by decide, by decide, by decide, by decide, by decide, by decide, by decide, by decide,
    by decide, by decide, by decide⟩

theorem lineOut_inv : BlockInv lineOut :=
  ⟨by decide, by decide, by decide, by decide, by decide, by decide, by decide, by decide, by decide, by decide,
    by decide, by decide, by decide⟩

theorem bothLines_inv : BlockInv bothLines :=
  ⟨by decide, by decide, by decide, by decide, by decide, by decide, by decide, by decide, by decide, by decide,
    by decide, by decide, by decide⟩

theorem writing_inv : BlockInv writing :=
  ⟨by decide, by decide, by decide, by decide, by decide, by decide, by decide, by decide, by decide, by decide,
    by decide, by decide, by decide⟩

theorem exhausted_inv : BlockInv exhausted :=
  ⟨by decide, by decide, by decide, by decide, by decide, by decide, by decide, by decide, by decide, by decide,
    by decide, by decide, by decide⟩

theorem lastBuffer_inv : BlockInv lastBuffer :=
  ⟨by decide, by decide, by decide, by decide, by decide, by decide, by decide, by decide, by decide, by decide,
    by decide, by decide, by decide⟩

/-- DecodeOfEncodeIsTheInstruction: one term of each checked form, at the boundary of its check. -/
theorem witness_DecodeOfEncodeIsTheInstruction :
    WellFormed (.write 1 [0x41]) = true ∧ WellFormed (.write 0 []) = true ∧ WellFormed (.illegalCmd 1 1) = true ∧
    WellFormed (.illegalCmd 6 0) = true ∧ WellFormed (.arbReserved 4 1) = true ∧ WellFormed (.arbReserved 7 0) = true := by
  decide

/-- Two inputs that wait, the second behind the first. -/
theorem held_pair {s : State} {a b : Input} (ha : s.held [] a) (hb : s.held [a] b) :
    ∀ p y q, [a, b] = p ++ y :: q → s.held p y
  | [], _, _, h => by cases h; exact ha
  | [_], _, _, h => by cases h; exact hb
  | _ :: _ :: p, _, _, h => by cases p <;> simp at h

/-- StepRunsTheNextEnabledInput: a WRITE whose second byte is missing, a command that waits behind it, and the frame
that has a step; and an accept with nothing on offer twice, with a command after both. -/
theorem witness_StepRunsTheNextEnabledInput :
    (let s : State := { idle with inputs := [partialWrite, encode .getLine] ++ rxInput hiFrame :: [] }
     s.cfg.valid = true ∧ s.fault = none ∧
      (∀ p y q, [partialWrite, encode .getLine] = p ++ y :: q → s.held p y) ∧ s.ready (rxInput hiFrame) = true ∧
      ∀ z ∈ [partialWrite, encode .getLine], z.agent ≠ (rxInput hiFrame).agent) ∧
    (let s : State := { idle with inputs := [encode .txAccept, encode .txAccept] ++ encode .getLine :: [] }
     s.cfg.valid = true ∧ s.fault = none ∧
      (∀ p y q, [encode .txAccept, encode .txAccept] = p ++ y :: q → s.held p y) ∧ s.ready (encode .getLine) = true ∧
      ∀ z ∈ [encode .txAccept, encode .txAccept], z.agent ≠ (encode .getLine).agent) :=
  ⟨⟨by decide, by decide, held_pair (.inl (by decide)) (.inr (by decide)), by decide, by decide⟩,
    by decide, by decide, held_pair (.inl (by decide)) (.inl (by decide)), by decide, by decide⟩

/-- StepWaitsWhileNothingIsEnabled: a WRITE whose second byte is missing, and a command behind it. -/
theorem witness_StepWaitsWhileNothingIsEnabled :
    let s : State := { idle with inputs := [partialWrite, encode .getLine] }
    s.cfg.valid = true ∧ s.fault = none ∧ (∀ p y q, s.inputs = p ++ y :: q → s.held p y) ∧ step s = .next s :=
  ⟨by decide, by decide, held_pair (.inl (by decide)) (.inr (by decide)), rfl⟩

/-- EveryStepCompletes: with nothing waiting, and with that WRITE waiting. -/
theorem witness_EveryStepCompletes :
    (State.reset.cfg.valid = true ∧ State.reset.fault = none) ∧
    let s : State := { idle with inputs := [partialWrite] }
    s.cfg.valid = true ∧ s.fault = none := by
  decide

/-- MarkedStateHasNoStep. -/
theorem witness_MarkedStateHasNoStep :
    (idle.mark .reInit).fault = some .reInit ∧ (idle.mark .reInit).cfg.valid = true := by
  decide

/-- DisabledInputsHaveNoStep: one of each agent; a WRITE with a byte missing, and one with a byte too many. -/
theorem witness_DisabledInputsHaveNoStep :
    (writing.fault = none ∧ issuer .getLine = .foreground ∧ writing.tx ≠ .idle) ∧
    (State.reset.fault = none ∧ issuer (.rxFrame hiFrame) = .interrupt ∧ State.reset.phase ≠ .running) ∧
    (idle.fault = none ∧ issuer .txAccept = .transport ∧ idle.tx = .idle) ∧
    (idle.fault = none ∧ idle.phase = .running ∧ [0x41#8].length ≠ (2 : BitVec 28).toNat ∧
      [0x41#8].length ≠ (0 : BitVec 28).toNat) := by
  decide

/-- InvalidConfigurationsAreRefused: `C = 0`, and `P = 9`. -/
theorem witness_InvalidConfigurationsAreRefused :
    (idleWith 2 0).cfg.valid = false ∧ ({ idle with cfg := { Config.test with p := 9 } } : State).cfg.valid = false := by
  decide

/-- FetchWordIsRunNext: a word of each width. -/
theorem witness_FetchWordIsRunNext :
    State.reset.cfg.valid = true ∧
    inputOfTableWord 32 0x30000000 = some (encode .getLine) ∧
    inputOfTableWord 16 0x4001 = some (encode (.release 1)) ∧
    inputOfTableWord 2 3 = some (encode .reset) := by
  decide

/-- ResetGivesTheTableOfValues: the first reset and a later one. -/
theorem witness_ResetGivesTheTableOfValues :
    (∃ g, State.reset = State.resetOf g) ∧ ∃ t, exec .reset bothLines = .next t := ⟨⟨_, rfl⟩, ⟨_, rfl⟩⟩

/-- ResetCommand: in Running with lines held, and in the middle of a write. -/
theorem witness_ResetCommand :
    bothLines.fault = none ∧ writing.fault = none ∧ ∃ t, exec .reset writing = .next t := ⟨by decide, by decide, _, rfl⟩

/-- The clauses 'has a step only where': IllegalWordsFault, WriteCommand, TransmitAccept, GetLineCommand, ReadCommand,
LineByteCommand. -/
theorem witness_HasAStep :
    (∃ t, exec (.illegalCmd 6 0) idle = .next t) ∧ (∃ t, exec (.write 1 [0x41]) idle = .next t) ∧
    (∃ t, exec .txAccept writing = .next t) ∧ (∃ t, exec .getLine bothLines = .next t) ∧
    (∃ t, exec (.read 1) lineReady = .next t) ∧ ∃ t, exec (.lineByte 2) lineOut = .next t :=
  ⟨⟨_, rfl⟩, ⟨_, rfl⟩, ⟨_, rfl⟩, ⟨_, rfl⟩, ⟨_, rfl⟩, ⟨_, rfl⟩⟩

/-- ResetStateKeepsTheInvariant: the test configuration, and the largest one. -/
theorem witness_ResetStateKeepsTheInvariant :
    Config.test.valid = true ∧ ({ Config.test with n := 8192, c := 2 ^ 24 - 1, p := 8 } : Config).valid = true := by
  decide

/-- InitCommand: both outcomes in Uninit, and Running. -/
theorem witness_InitCommand :
    (let s : State := { State.reset with initAnswers := [0x00] }
     s.fault = none ∧ s.tx = .idle ∧ s.initAnswers = [0x00] ∧ s.phase = .uninit) ∧
    (let s : State := { State.reset with initAnswers := [0x01, 0x00] }
     s.fault = none ∧ s.tx = .idle ∧ s.initAnswers = 0x01 :: [0x00] ∧ s.phase = .uninit) ∧
    (let s : State := { idle with initAnswers := [0x00] }
     s.fault = none ∧ s.tx = .idle ∧ s.initAnswers = [0x00] ∧ s.phase ≠ .uninit) := by
  decide

/-- InitDrawsAFreeOutcome. -/
theorem witness_InitDrawsAFreeOutcome :
    State.reset.fault = none ∧ State.reset.tx = .idle ∧ State.reset.phase = .uninit ∧ State.reset.initAnswers = [] := by
  decide

/-- PhaseGate: Uninit and Failed for the commands, Running for INIT. -/
theorem witness_PhaseGate :
    (State.reset.fault = none ∧ State.reset.tx = .idle ∧ State.reset.phase ≠ .running) ∧
    (let s : State := { idle with phase := .failed }
     s.fault = none ∧ s.tx = .idle ∧ s.phase ≠ .running ∧ s.phase ≠ .uninit) ∧
    (idle.fault = none ∧ idle.tx = .idle ∧ idle.phase ≠ .uninit) := by
  decide

/-- IllegalWordsFault: a boundary of each clause. -/
theorem witness_IllegalWordsFault :
    idle.fault = none ∧ idle.tx = .idle ∧ (0#4 = 0) ∧ (6 ≤ (6#4).toNat) ∧ (6 ≤ (15#4).toNat) ∧
    ((1#4 = 1 ∨ 1#4 = 3) ∧ (1 : BitVec 28) ≠ 0) ∧ ((3#4 = 1 ∨ 3#4 = 3) ∧ (0xFFFFFFF : BitVec 28) ≠ 0) := by
  decide

/-- WriteCommand: outside Running; no byte, the marker first, and a chunk. -/
theorem witness_WriteCommand :
    (State.reset.fault = none ∧ State.reset.tx = .idle ∧ State.reset.phase ≠ .running) ∧
    idle.fault = none ∧ idle.tx = .idle ∧ idle.phase = .running ∧
    (([] : List Byte).length = (0 : BitVec 28).toNat ∧ eosCut idle.cfg.eos [] = 0) ∧
    (([0x00, 0x0A] : List Byte).length = (2 : BitVec 28).toNat ∧ eosCut idle.cfg.eos [0x00, 0x0A] = 0) ∧
    (([0x41] : List Byte).length = (1 : BitVec 28).toNat ∧ eosCut idle.cfg.eos [0x41] ≠ 0) := by
  decide

/-- EndOfStreamCut: with a marker and without one. -/
theorem witness_EndOfStreamCut : (0x00#8 ∈ [0x61#8, 0x00#8, 0x00#8]) ∧ (0x00#8 ∉ [0x61#8]) := by decide

/-- ChunksCoverTheSource: nothing to cover, an exact multiple of `P`, and a short last chunk. -/
theorem witness_ChunksCoverTheSource :
    1 ≤ Config.test.p ∧ (0 ≤ ([] : List Byte).length) ∧
    (16 ≤ (List.replicate 16 0x41#8).length ∧ (0 + 1 < (16 + Config.test.p - 1) / Config.test.p) ∧
      (1 + 1 = (16 + Config.test.p - 1) / Config.test.p)) ∧
    (9 ≤ (List.replicate 9 0x41#8).length ∧ (1 + 1 = (9 + Config.test.p - 1) / Config.test.p)) := by
  decide

/-- TransmitAccept: the last chunk, and one before it. -/
theorem witness_TransmitAccept :
    (writing.fault = none ∧ writing.tx = .busy (List.replicate 10 0x31) 10 1 ∧
      1 + 1 = (10 + writing.cfg.p - 1) / writing.cfg.p) ∧
    (let s : State := { idle with tx := .busy (List.replicate 10 0x31) 10 0 }
     s.fault = none ∧ s.tx = .busy (List.replicate 10 0x31) 10 0 ∧ 0 + 1 ≠ (10 + s.cfg.p - 1) / s.cfg.p) := by
  decide

/-- OfferedFrames: Idle and Busy. -/
theorem witness_OfferedFrames :
    (BlockInv idle ∧ idle.tx = .idle) ∧ BlockInv writing ∧ writing.tx = .busy (List.replicate 10 0x31) 10 1 :=
  ⟨⟨idle_inv, by decide⟩, writing_inv, by decide⟩

/-- WriteCompletesAfterItsChunks: a write of two chunks; no chunk, with no byte and with the marker first. -/
theorem witness_WriteCompletesAfterItsChunks :
    idle.cfg.valid = true ∧ idle.fault = none ∧ idle.tx = .idle ∧ idle.phase = .running ∧
    (List.replicate 10 0x31#8).length = (10 : BitVec 28).toNat ∧
    1 < (eosCut idle.cfg.eos (List.replicate 10 0x31) + idle.cfg.p - 1) / idle.cfg.p ∧
    (([] : List Byte).length = (0 : BitVec 28).toNat ∧
      (eosCut idle.cfg.eos [] + idle.cfg.p - 1) / idle.cfg.p = 0) ∧
    ([0x00#8, 0x0A#8].length = (2 : BitVec 28).toNat ∧
      (eosCut idle.cfg.eos [0x00, 0x0A] + idle.cfg.p - 1) / idle.cfg.p = 0) := by
  decide

/-- ChunkerIsIndependentOfThePool: two states that differ in the pool alone; an accept and a write. -/
theorem witness_ChunkerIsIndependentOfThePool :
    let s' : State := { lineReady with tx := writing.tx }
    (s'.cfg = writing.cfg ∧ s'.phase = writing.phase ∧ s'.tx = writing.tx ∧ s'.fault = writing.fault ∧
      s'.txLog = writing.txLog ∧ s'.rspLog = writing.rspLog ∧ ∃ t, exec .txAccept writing = .next t) ∧
    (lineReady.cfg = idle.cfg ∧ lineReady.phase = idle.phase ∧ lineReady.tx = idle.tx ∧ lineReady.fault = idle.fault ∧
      lineReady.txLog = idle.txLog ∧ lineReady.rspLog = idle.rspLog ∧ ∃ t, exec (.write 1 [0x41]) idle = .next t) :=
  ⟨⟨rfl, rfl, rfl, rfl, rfl, rfl, _, rfl⟩, rfl, rfl, rfl, rfl, rfl, rfl, _, rfl⟩

/-- AcquireRequest, TakeReadyRequest: an empty queue and a handle. -/
theorem witness_AcquireRequest :
    (exhausted.fault = none ∧ exhausted.availQ = []) ∧ idle.fault = none ∧ idle.availQ = 0 :: [1] := by
  decide

theorem witness_TakeReadyRequest :
    (idle.fault = none ∧ idle.readyQ = []) ∧ lineReady.fault = none ∧ lineReady.readyQ = 0 :: [] := by
  decide

/-- ReleaseRequest: the buffer checked out (the last handle of the arena); a handle in each queue, and claimed. -/
theorem witness_ReleaseRequest :
    (idle.fault = none ∧ (0 : BitVec 13).toNat < idle.cfg.n ∧ (0 : BitVec 13).toNat ∈ idle.availQ) ∧
    (lineReady.fault = none ∧ (0 : BitVec 13).toNat < lineReady.cfg.n ∧ (0 : BitVec 13).toNat ∈ lineReady.readyQ) ∧
    (filling.fault = none ∧ (0 : BitVec 13).toNat < filling.cfg.n ∧ filling.cur = some (0 : BitVec 13).toNat) ∧
    let s : State := { idle with availQ := [0], out := some 1 }
    s.fault = none ∧ (1 : BitVec 13).toNat < s.cfg.n ∧ (1 : BitVec 13).toNat ∉ s.availQ ∧
      (1 : BitVec 13).toNat ∉ s.readyQ ∧ s.cur ≠ some (1 : BitVec 13).toNat := by
  decide

/-- PublishRequest: the claimed buffer with its length set; a buffer not claimed; the claimed one with no length. -/
theorem witness_PublishRequest :
    (idle.fault = none ∧ (1 : BitVec 13).toNat < idle.cfg.n ∧ idle.cur ≠ some (1 : BitVec 13).toNat) ∧
    (filling.fault = none ∧ (0 : BitVec 13).toNat < filling.cfg.n ∧ filling.cur = some (0 : BitVec 13).toNat ∧
      filling.lenAt (0 : BitVec 13).toNat = none) ∧
    let s : State := { idle with buf := [{}, { len := some 2 }], availQ := [0], cur := some 1 }
    s.fault = none ∧ (1 : BitVec 13).toNat < s.cfg.n ∧ s.cur = some (1 : BitVec 13).toNat ∧
      s.lenAt (1 : BitVec 13).toNat ≠ none := by
  decide

/-- RecycleFetchRequest: a buffer checked out, and none. -/
theorem witness_RecycleFetchRequest :
    (bothLines.fault = none ∧ ∀ h0, bothLines.out = some h0 →
      h0 < bothLines.cfg.n ∧ h0 ∉ bothLines.availQ ∧ h0 ∉ bothLines.readyQ ∧ bothLines.cur ≠ some h0) ∧
    idle.fault = none ∧ ∀ h0, idle.out = some h0 →
      h0 < idle.cfg.n ∧ h0 ∉ idle.availQ ∧ h0 ∉ idle.readyQ ∧ idle.cur ≠ some h0 := by
  refine ⟨⟨by decide, ?_⟩, by decide, ?_⟩
  · rintro h0 ⟨⟩
    decide
  · rintro h0 ⟨⟩

/-- ReservedRequestsFault: a boundary of each clause. -/
theorem witness_ReservedRequestsFault :
    idle.fault = none ∧ (5 ≤ (5#3).toNat) ∧ (5 ≤ (7#3).toNat) ∧
    ((0#3 = 0 ∨ 0#3 = 3 ∨ 0#3 = 4) ∧ (1 : BitVec 13) ≠ 0) ∧
    ((4#3 = 0 ∨ 4#3 = 3 ∨ 4#3 = 4) ∧ (0x1FFF : BitVec 13) ≠ 0) ∧ idle.cfg.n ≤ (2 : BitVec 13).toNat := by
  decide

/-- MalformedRecordsFault: a boundary of each clause (spec 95 M1 to M3). -/
theorem witness_MalformedRecordsFault :
    idle.cfg.valid = true ∧ idle.fault = none ∧ idle.phase = .running ∧
    (frameRec 0x80000123 1 0).rsv = true ∧ 8 < (frameRec 0x00000123 9 0).dlc.toNat ∧
    ((frameRec 0x00000800 1 0).ide = false ∧ 0x7FF < (frameRec 0x00000800 1 0).id.toNat) := by
  decide

/-- FrameOfARecord: the last byte of eight; two records that differ past their one byte alone. -/
theorem witness_FrameOfARecord :
    7 < (frameRec 0x123 8 0x0A67666564636261).dlc.toNat ∧
    let f := frameRec 0x123 1 0x0A78
    let g := frameRec 0x123 1 0x6278
    f ≠ g ∧ f = { g with data := f.data } ∧
      ∀ i < f.dlc.toNat, f.data.extractLsb' (8 * i) 8 = g.data.extractLsb' (8 * i) 8 := by
  decide

/-- UnmatchedFramesHaveNoEffect: each clause (spec 95 F1 to F3). -/
theorem witness_UnmatchedFramesHaveNoEffect :
    idle.fault = none ∧ idle.phase = .running ∧
    (recordOk idle.cfg (frameRec 0x20000123 0 0) = true ∧ (frameRec 0x20000123 0 0).rtr = true) ∧
    (recordOk idle.cfg (frameRec 0x40000123 2 0xA78) = true ∧
      (frameRec 0x40000123 2 0xA78).ide ≠ decide (0x7FF < idle.cfg.rxId.toNat)) ∧
    (recordOk idle.cfg (frameRec 0x00000124 2 0xA78) = true ∧ (frameRec 0x00000124 2 0xA78).id ≠ idle.cfg.rxId) := by
  decide

/-- FrameDroppedOnExhaustion (spec 95 A10, A11): with bytes and without. -/
theorem witness_FrameDroppedOnExhaustion :
    exhausted.fault = none ∧ exhausted.phase = .running ∧ exhausted.cur = none ∧ exhausted.availQ = [] ∧
    (recordOk exhausted.cfg hiFrame = true ∧ passesFilter exhausted.cfg (frameOf hiFrame) = true) ∧
    (recordOk exhausted.cfg (frameRec 0x123 0 0) = true ∧
      passesFilter exhausted.cfg (frameOf (frameRec 0x123 0 0)) = true) := by
  decide

/-- EmptyFrame: a buffer claimed, the pool exhausted, a buffer available (spec 95 A8, A9, A11). -/
theorem witness_EmptyFrame :
    let f := frameRec 0x123 0 0
    (f.dlc = 0) ∧
    (filling.fault = none ∧ filling.phase = .running ∧ recordOk filling.cfg f = true ∧
      passesFilter filling.cfg (frameOf f) = true ∧ filling.cur ≠ none) ∧
    (exhausted.fault = none ∧ exhausted.phase = .running ∧ recordOk exhausted.cfg f = true ∧
      passesFilter exhausted.cfg (frameOf f) = true ∧ exhausted.cur = none ∧ exhausted.availQ = []) ∧
    (idle.fault = none ∧ idle.phase = .running ∧ recordOk idle.cfg f = true ∧
      passesFilter idle.cfg (frameOf f) = true ∧ idle.cur = none ∧ idle.availQ = 0 :: [1]) := by
  decide

/-- BytesAppendedOrDropped: with room for both bytes, at capacity, and with room for the first byte alone. -/
theorem witness_BytesAppendedOrDropped :
    let f := frameRec 0x123 2 0x6261
    (filling.fault = none ∧ filling.phase = .running ∧ recordOk filling.cfg f = true ∧
      passesFilter filling.cfg (frameOf f) = true ∧ filling.cur = some 0 ∧ filling.cursor ≤ filling.cfg.c ∧
      filling.cfg.term ∉ (frameOf f).data ∧ 0 < filling.buf.length ∧ 1 < f.dlc.toNat ∧
      filling.cursor + 1 < filling.cfg.c) ∧
    (full.fault = none ∧ full.phase = .running ∧ recordOk full.cfg f = true ∧
      passesFilter full.cfg (frameOf f) = true ∧ full.cur = some 0 ∧ full.cursor ≤ full.cfg.c ∧
      full.cfg.term ∉ (frameOf f).data) ∧
    let s : State := { full with cfg := { full.cfg with c := 3 } }
    s.fault = none ∧ s.phase = .running ∧ recordOk s.cfg f = true ∧ passesFilter s.cfg (frameOf f) = true ∧
      s.cur = some 0 ∧ s.cursor ≤ s.cfg.c ∧ s.cfg.term ∉ (frameOf f).data ∧ 0 < s.buf.length ∧ 0 < f.dlc.toNat ∧
      s.cursor + 0 < s.cfg.c ∧ ¬s.cursor + 1 < s.cfg.c := by
  decide

/-- TerminatorPublishesTheLine: with room, and at capacity. -/
theorem witness_TerminatorPublishesTheLine :
    let f := frameRec 0x123 2 0x0A61
    (filling.fault = none ∧ filling.phase = .running ∧ recordOk filling.cfg f = true ∧
      passesFilter filling.cfg (frameOf f) = true ∧ filling.cur = some 0 ∧ 0 < filling.cfg.n ∧
      0 < filling.buf.length ∧ filling.cursor ≤ filling.cfg.c ∧
      (frameOf f).data = [0x61] ++ [filling.cfg.term] ∧ filling.cfg.term ∉ [0x61#8]) ∧
    (full.fault = none ∧ full.phase = .running ∧ recordOk full.cfg f = true ∧
      passesFilter full.cfg (frameOf f) = true ∧ full.cur = some 0 ∧ 0 < full.cfg.n ∧
      0 < full.buf.length ∧ full.cursor ≤ full.cfg.c ∧
      (frameOf f).data = [0x61] ++ [full.cfg.term] ∧ full.cfg.term ∉ [0x61#8]) := by
  decide

/-- ExhaustionInsideAFrame: a line ends, one terminator is dropped, the next byte finds no buffer. -/
theorem witness_ExhaustionInsideAFrame :
    let f := frameRec 0x123 4 0x620A0A61
    lastBuffer.fault = none ∧ lastBuffer.phase = .running ∧ recordOk lastBuffer.cfg f = true ∧
      passesFilter lastBuffer.cfg (frameOf f) = true ∧ lastBuffer.cur = some 0 ∧ 0 < lastBuffer.cfg.n ∧
      0 < lastBuffer.buf.length ∧ lastBuffer.cursor ≤ lastBuffer.cfg.c ∧ lastBuffer.availQ = [] ∧
      (frameOf f).data =
        ([0x61] ++ [lastBuffer.cfg.term]) ++ (List.replicate 1 lastBuffer.cfg.term ++ 0x62 :: []) ∧
      lastBuffer.cfg.term ∉ [0x61#8] ∧ 0x62#8 ≠ lastBuffer.cfg.term := by
  decide

/-- FramesComplete. -/
theorem witness_FramesComplete :
    BlockInv filling ∧ filling.fault = none ∧ filling.phase = .running ∧ recordOk filling.cfg hiFrame = true :=
  ⟨filling_inv, by decide, by decide, by decide⟩

/-- AssemblerRefinesLineCutting: with a buffer claimed, and with none. -/
theorem witness_AssemblerRefinesLineCutting :
    (BlockInv filling ∧ filling.fault = none ∧ filling.phase = .running ∧ recordOk filling.cfg hiFrame = true ∧
      passesFilter filling.cfg (frameOf hiFrame) = true ∧
      buffersNeeded filling (frameOf hiFrame).data ≤ filling.availQ.length + filling.cur.toList.length) ∧
    (BlockInv idle ∧ idle.fault = none ∧ idle.phase = .running ∧ recordOk idle.cfg hiFrame = true ∧
      passesFilter idle.cfg (frameOf hiFrame) = true ∧
      buffersNeeded idle (frameOf hiFrame).data ≤ idle.availQ.length + idle.cur.toList.length) :=
  ⟨⟨filling_inv, by decide, by decide, by decide, by decide, by decide⟩,
    idle_inv, by decide, by decide, by decide, by decide, by decide⟩

/-- FramesCutLinesWithinThePool: a buffer claimed; one to claim; none at the frame's start; and two lines, the second
finding no buffer (41 R127). -/
theorem witness_FramesCutLinesWithinThePool :
    (BlockInv filling ∧ filling.fault = none ∧ filling.phase = .running ∧ recordOk filling.cfg hiFrame = true ∧
      passesFilter filling.cfg (frameOf hiFrame) = true) ∧
    (BlockInv idle ∧ idle.fault = none ∧ idle.phase = .running ∧ recordOk idle.cfg hiFrame = true ∧
      passesFilter idle.cfg (frameOf hiFrame) = true) ∧
    (BlockInv exhausted ∧ exhausted.fault = none ∧ exhausted.phase = .running ∧
      recordOk exhausted.cfg hiFrame = true ∧ passesFilter exhausted.cfg (frameOf hiFrame) = true ∧
      frameCut exhausted (frameOf hiFrame).data = { lines := [], line := none, used := 0, exhausted := true }) ∧
    let f := frameRec 0x123 4 0x620A0A61
    BlockInv lastBuffer ∧ lastBuffer.fault = none ∧ lastBuffer.phase = .running ∧
      recordOk lastBuffer.cfg f = true ∧ passesFilter lastBuffer.cfg (frameOf f) = true ∧
      frameCut lastBuffer (frameOf f).data =
        { lines := [[0x61, 0x0A]], line := none, used := 0, exhausted := true } :=
  ⟨⟨filling_inv, by decide, by decide, by decide, by decide⟩, ⟨idle_inv, by decide, by decide, by decide, by decide⟩,
    ⟨exhausted_inv, by decide, by decide, by decide, by decide, by decide⟩,
    lastBuffer_inv, by decide, by decide, by decide, by decide, by decide⟩

/-- AtMostOneEventPerFrame: a frame dropped with an event, and one without. -/
theorem witness_AtMostOneEventPerFrame :
    (∃ t, exec (.rxFrame hiFrame) exhausted = .next t ∧ t.evLog = exhausted.evLog ++ [.poolExhausted]) ∧
    ∃ t, exec (.rxFrame hiFrame) idle = .next t ∧ t.evLog = idle.evLog :=
  ⟨⟨_, rfl, by decide⟩, _, rfl, by decide⟩

/-- FramesKeepQueueOrder: a frame that publishes, into a pool with a line ready. -/
theorem witness_FramesKeepQueueOrder :
    ∃ t, exec (.rxFrame hiFrame) lineReady = .next t ∧ t.readyQ = [0, 1] ∧ t.availQ = [] := ⟨_, rfl, by decide, by decide⟩

/-- FramesTouchOnlyTheirBuffers: buffer 0 ready, buffer 0 claimed below the cursor, buffer 0 claimed past its end,
and buffer 1 available after the frame too. -/
theorem witness_FramesTouchOnlyTheirBuffers :
    (0 ∉ lineReady.availQ ∧ lineReady.cur ≠ some 0 ∧ ∃ t, exec (.rxFrame hiFrame) lineReady = .next t) ∧
    (0 ∉ filling.availQ ∧ filling.cur = some 0 ∧ 1 < filling.cursor ∧ filling.cfg.c ≤ 16 ∧
      ∃ t, exec (.rxFrame hiFrame) filling = .next t) ∧
    (BlockInv idle ∧ ∃ t, exec (.rxFrame hiFrame) idle = .next t ∧ 1 ∈ t.availQ) :=
  ⟨⟨by decide, by decide, _, rfl⟩, ⟨by decide, by decide, by decide, by decide, _, rfl⟩, idle_inv, _, rfl, by decide⟩

/-- GetLineCommand: outside Running; no line, a line, and a line with another checked out. -/
theorem witness_GetLineCommand :
    (BlockInv State.reset ∧ State.reset.fault = none ∧ State.reset.tx = .idle ∧ State.reset.phase ≠ .running) ∧
    (BlockInv idle ∧ idle.fault = none ∧ idle.tx = .idle ∧ idle.phase = .running ∧ idle.readyQ = []) ∧
    (BlockInv lineReady ∧ lineReady.fault = none ∧ lineReady.tx = .idle ∧ lineReady.phase = .running ∧
      lineReady.readyQ = 0 :: []) ∧
    (BlockInv bothLines ∧ bothLines.fault = none ∧ bothLines.tx = .idle ∧ bothLines.phase = .running ∧
      bothLines.readyQ = 1 :: []) :=
  ⟨⟨reset_inv, by decide, by decide, by decide⟩, ⟨idle_inv, by decide, by decide, by decide, by decide⟩,
    ⟨lineReady_inv, by decide, by decide, by decide, by decide⟩,
    bothLines_inv, by decide, by decide, by decide, by decide⟩

/-- ReadCommand: as GetLineCommand; the capacity above the length and zero, where the copied bytes end. -/
theorem witness_ReadCommand :
    (BlockInv State.reset ∧ State.reset.fault = none ∧ State.reset.tx = .idle ∧ State.reset.phase ≠ .running) ∧
    (BlockInv idle ∧ idle.fault = none ∧ idle.tx = .idle ∧ idle.phase = .running ∧ idle.readyQ = []) ∧
    (BlockInv lineReady ∧ lineReady.fault = none ∧ lineReady.tx = .idle ∧ lineReady.phase = .running ∧
      lineReady.readyQ = 0 :: [] ∧ lineReady.lenAt 0 = some 3) ∧
    (2 < min 3 (4 : BitVec 28).toNat ∧ min 3 (4 : BitVec 28).toNat ≤ 3 ∧ min 3 (0 : BitVec 28).toNat ≤ 0) :=
  ⟨⟨reset_inv, by decide, by decide, by decide⟩, ⟨idle_inv, by decide, by decide, by decide, by decide⟩,
    ⟨lineReady_inv, by decide, by decide, by decide, by decide, by decide⟩, by decide⟩

/-- LineByteCommand: outside Running; no line; the last byte; one past it (spec 95 R5 to R7). -/
theorem witness_LineByteCommand :
    (BlockInv State.reset ∧ State.reset.fault = none ∧ State.reset.tx = .idle ∧ State.reset.phase ≠ .running) ∧
    (BlockInv idle ∧ idle.fault = none ∧ idle.tx = .idle ∧ idle.phase = .running ∧ idle.out = none) ∧
    (BlockInv lineOut ∧ lineOut.fault = none ∧ lineOut.tx = .idle ∧ lineOut.phase = .running ∧ lineOut.out = some 0 ∧
      lineOut.lenAt 0 = some 3 ∧ 3 ≤ (3 : BitVec 28).toNat ∧ (2 : BitVec 28).toNat < 3) :=
  ⟨⟨reset_inv, by decide, by decide, by decide⟩, ⟨idle_inv, by decide, by decide, by decide, by decide⟩,
    lineOut_inv, by decide, by decide, by decide, by decide, by decide, by decide, by decide⟩

/-- ReturnedLineStaysValid: a frame while a line is checked out. -/
theorem witness_ReturnedLineStaysValid :
    BlockInv lineOut ∧ lineOut.out = some 0 ∧ (rxInput hiFrame).isPort = true ∧ decode (rxInput hiFrame) ≠ .getLine ∧
      (∀ cap, decode (rxInput hiFrame) ≠ .read cap) ∧ decode (rxInput hiFrame) ≠ .reset ∧
      ∃ t, exec (decode (rxInput hiFrame)) lineOut = .next t :=
  ⟨lineOut_inv, by decide, by decide, by decide, fun _ h => (by cases h), by decide, _, rfl⟩

/-- EveryStepKeepsTheInvariant: a state with a frame waiting; no run from reset leads to a line without an INIT before
it, and this state is met as it stands. -/
theorem witness_EveryStepKeepsTheInvariant :
    let s : State := { filling with inputs := [rxInput hiFrame] }
    BlockInv s ∧ ∃ t, step s = .next t :=
  ⟨⟨by decide, by decide, by decide, by decide, by decide, by decide, by decide, by decide, by decide, by decide,
    by decide, by decide, by decide⟩, _, rfl⟩

/-- BuffersAreConserved. -/
theorem witness_BuffersAreConserved : BlockInv bothLines := bothLines_inv

/-- BufferLifecycle: a claimed, an available, a ready and a checked-out buffer. -/
theorem witness_BufferLifecycle :
    (BlockInv filling ∧ (rxInput hiFrame).isPort = true ∧ decode (rxInput hiFrame) ≠ .reset ∧
      (∃ t, exec (decode (rxInput hiFrame)) filling = .next t) ∧ filling.cur = some 0 ∧ 1 ∈ filling.availQ) ∧
    (BlockInv bothLines ∧ (encode .getLine).isPort = true ∧ decode (encode .getLine) ≠ .reset ∧
      (∃ t, exec (decode (encode .getLine)) bothLines = .next t) ∧ 1 ∈ bothLines.readyQ ∧ bothLines.out = some 0) :=
  ⟨⟨filling_inv, by decide, by decide, ⟨_, rfl⟩, by decide, by decide⟩,
    bothLines_inv, by decide, by decide, ⟨_, rfl⟩, by decide, by decide⟩

/-- FieldsHaveTheirWriters: an instruction that writes each field. -/
theorem witness_FieldsHaveTheirWriters :
    (∃ t, exec .init State.reset = .next t ∧ t.draws ≠ State.reset.draws) ∧
    (∃ t, exec .reset bothLines = .next t ∧ t.phase ≠ bothLines.phase) ∧
    (∃ t, exec .txAccept writing = .next t ∧ t.tx ≠ writing.tx ∧ t.txLog ≠ writing.txLog ∧ t.rspLog ≠ writing.rspLog) ∧
    (∃ t, exec (.rxFrame hiFrame) exhausted = .next t ∧ t.evLog ≠ exhausted.evLog) ∧
    (∃ t, exec (.rxFrame hiFrame) filling = .next t ∧ t.cur ≠ filling.cur ∧ t.readyQ ≠ filling.readyQ ∧
      t.buf ≠ filling.buf) ∧
    (∃ t, exec (.read 1) lineReady = .next t ∧ t.out ≠ lineReady.out ∧ t.dst ≠ lineReady.dst) ∧
    (∃ t, exec .acquire idle = .next t ∧ t.arbLog ≠ idle.arbLog) :=
  ⟨⟨_, rfl, by decide⟩, ⟨_, rfl, by decide⟩, ⟨_, rfl, by decide, by decide, by decide⟩, ⟨_, rfl, by decide⟩,
    ⟨_, rfl, by decide, by decide, by decide⟩, ⟨_, rfl, by decide, by decide⟩, _, rfl, by decide⟩

/-- OnlyFramesStoreBytes: GET_LINE, that recycles a buffer. -/
theorem witness_OnlyFramesStoreBytes :
    (∃ t, exec .getLine bothLines = .next t) ∧ (∀ f, Instr.getLine ≠ .rxFrame f) ∧ Instr.getLine ≠ .acquire ∧
      Instr.getLine ≠ .reset :=
  ⟨⟨_, rfl⟩, fun _ h => (by cases h), by decide, by decide⟩

/-- HistoriesOnlyGrow: a step that performs RESET. -/
theorem witness_HistoriesOnlyGrow : ∃ t, step { writing with inputs := [encode .reset] } = .next t := ⟨_, rfl⟩

/-- FaultsChangeOnlyTheMark: LINE_BYTE with no line. -/
theorem witness_FaultsChangeOnlyTheMark : ∃ t, exec (.lineByte 0) idle = .next t ∧ t.fault ≠ none := ⟨_, rfl, by decide⟩

/-- ShortLinesEndWithTheTerminator: shorter than the buffer, with a byte before the last. -/
theorem witness_ShortLinesEndWithTheTerminator :
    BlockInv lineReady ∧ 0 ∈ lineReady.readyQ ∧ lineReady.lenAt 0 = some 3 ∧ 3 < lineReady.cfg.c ∧ 1 + 1 < 3 :=
  ⟨lineReady_inv, by decide, by decide, by decide, by decide⟩

end Sys2Proof.Tests
end

namespace Sys2Proof.Machine

open Sys2Proof

/-! ### Steps: the queue discipline and the refusal of a configuration -/

section
variable {s : State}

/-- Under a valid configuration and with no mark set, an input that is picked is the one a step performs. -/
theorem step_of_nextInput {x : Input} {left : List Input} (hv : s.cfg.valid = true) (hf : s.fault = none)
    (h : nextInput s [] s.inputs = some (x, left)) : step s = exec (decode x) { s with inputs := left } := by
  simp [step, fetch, hv, hf, h]

/-- 60 R207: an invalid configuration is refused as a whole, whatever the rest of the state holds. -/
theorem step_of_invalid (hv : s.cfg.valid = false) : step s = .refused .invalidConfig := by
  simp [step, hv]

/-- 60 R211: behind inputs that are all held, an input with a step is picked unless one of its own agent is among
them; the held ones go on waiting in their order. -/
theorem nextInput_behind_held {x : Input} {pre post : List Input}
    (hheld : ∀ p y q, pre = p ++ y :: q → s.held p y) (hx : s.ready x = true) (hag : ∀ z ∈ pre, z.agent ≠ x.agent) :
    nextInput s [] (pre ++ x :: post) = some (x, pre ++ post) := by
  have hpassed : x.agent ∉ (pre.map Input.agent).reverse ++ [] := by simpa using hag
  rw [nextInput_append fun p y q hq => (hheld p y q hq).imp_right .inr, nextInput_cons hx hpassed]
  rfl

end

/-- 00 R7, R8: the configurations that have a run. -/
theorem Config.valid_iff (g : Config) : g.valid = true ↔
    (1 ≤ g.n ∧ g.n ≤ 8192) ∧ (1 ≤ g.c ∧ g.c ≤ 2 ^ 24 - 1) ∧ (1 ≤ g.p ∧ g.p ≤ 8) ∧ g.term = 0x0A#8 ∧ g.rxMax = 8 := by
  simp only [Config.valid, Bool.and_eq_true, decide_eq_true_eq, and_assoc]

/-- Settles O6: the input behind the held ones is the one `nextInput` picks, and a step performs what is picked. -/
theorem stepRunsTheNextEnabledInput : Obligations.StepRunsTheNextEnabledInput := by
  intro s x pre post hv hf hin hheld hx hag
  have hpick : nextInput s [] s.inputs = some (x, pre ++ post) := hin ▸ nextInput_behind_held hheld hx hag
  exact step_of_nextInput hv hf hpick

/-- Settles O11: `Config.valid` is the conjunction of the bounds, and it is the first thing a step asks. -/
theorem invalidConfigurationsAreRefused : Obligations.InvalidConfigurationsAreRefused :=
  ⟨Config.valid_iff, fun _ => step_of_invalid⟩

end Sys2Proof.Machine

namespace Sys2Proof.Machine

open Sys2Proof

/-! ### Lines, buffers and stores: what the clauses of the invariant look at -/

/-- A line is good by its own buffer and the configuration alone. -/
theorem State.lineOk_of_bufAt {s t : State} {h : Nat} (hl : s.lineOk h = true) (hg : t.cfg = s.cfg)
    (hb : t.bufAt h = s.bufAt h) : t.lineOk h = true := by
  simpa only [State.lineOk, State.lenAt, State.cells, hg, hb] using hl

/-- A claimed buffer is good by its own contents, the cursor and the configuration alone. -/
theorem State.openOk_of_bufAt {s t : State} {h : Nat} (ho : s.openOk h = true) (hg : t.cfg = s.cfg)
    (hk : t.cursor = s.cursor) (hb : t.bufAt h = s.bufAt h) : t.openOk h = true := by
  simpa only [State.openOk, State.lenAt, State.cells, hg, hk, hb] using ho

/-- 10 R46, 20 R56, 41 R132: what a published line is. -/
theorem State.lineOk_iff {s : State} {h : Nat} :
    s.lineOk h = true ↔ ∃ len bs, s.lenAt h = some len ∧ 1 ≤ len ∧ len ≤ s.cfg.c ∧ s.cells h len = some bs ∧
      lineShape s.cfg bs = true := by
  unfold State.lineOk
  cases s.lenAt h with
  | none => simp
  | some len => cases hc : s.cells h len <;> simp [hc, and_assoc]

/-- 10 R39: what a claimed buffer is. -/
theorem State.openOk_iff {s : State} {h : Nat} :
    s.openOk h = true ↔ s.lenAt h = none ∧ ∃ bs, s.cells h s.cursor = some bs ∧ s.cfg.term ∉ bs := by
  unfold State.openOk
  cases hc : s.cells h s.cursor <;> simp

/-- 41 R132: a line cut by its terminator. -/
theorem lineShape_append_term {g : Config} {bs : List Byte} (hbs : g.term ∉ bs) :
    lineShape g (bs ++ [g.term]) = true := by
  simp [lineShape, hbs]

/-- 41 R132: a line that fills its buffer. -/
theorem lineShape_of_full {g : Config} {bs : List Byte} (hbs : g.term ∉ bs) (hfull : g.c ≤ bs.length) :
    lineShape g bs = true := by
  have hlast : g.term ∉ bs.dropLast := fun hm => hbs (List.mem_of_mem_dropLast hm)
  simp [lineShape, hlast, hfull]

/-- The elements of a list with one of them modified. -/
theorem mem_or_eq_of_mem_modify {α : Type} {f : α → α} {l : List α} {i : Nat} {x : α} (hx : x ∈ l.modify i f) :
    x ∈ l ∨ ∃ y ∈ l, x = f y := by
  obtain ⟨j, hj⟩ := List.mem_iff_getElem?.mp hx
  rw [List.getElem?_modify] at hj
  cases hy : l[j]? with
  | none => simp [hy] at hj
  | some y =>
    have hmem : y ∈ l := List.mem_of_getElem? hy
    by_cases hij : i = j
    · exact .inr ⟨y, hmem, by simpa [hy, hij] using hj.symm⟩
    · obtain rfl : y = x := by simpa [hy, hij] using hj
      exact .inl hmem

/-- 20 R51: what holds of every buffer and is kept by the modification of one holds of every buffer after it. -/
theorem State.bufferOk_modifyBuf {s : State} {g : Config} {h : Nat} {f : LineBuffer → LineBuffer}
    (hs : ∀ x ∈ s.buf, bufferOk g x = true) (hf : ∀ x, bufferOk g x = true → bufferOk g (f x) = true) :
    ∀ x ∈ (s.modifyBuf h f).buf, bufferOk g x = true := by
  intro x hx
  rcases mem_or_eq_of_mem_modify hx with hx | ⟨y, hy, rfl⟩
  · exact hs x hx
  · exact hf y (hs y hy)

/-- 20 R51: a byte stored inside the buffer keeps its store inside it. -/
theorem bufferOk_write {g : Config} {x : LineBuffer} {i : Nat} (hx : bufferOk g x = true) (hi : i < g.c) (b : Byte) :
    bufferOk g { x with data := Memory.write x.data i b } = true := by
  simp only [bufferOk, Bool.and_eq_true, List.all_eq_true, decide_eq_true_eq] at hx ⊢
  obtain ⟨hwf, hlt⟩ := hx
  refine ⟨Memory.wf_write hwf i b, fun cell hcell => ?_⟩
  rcases Memory.mem_write hcell with rfl | hcell
  · exact hi
  · exact hlt cell hcell

/-- Appending a byte keeps every buffer's store inside the buffer (41 R124, R125). -/
theorem bufferOk_appendByte {s : State} {h : Nat} {b : Byte} (hs : ∀ x ∈ s.buf, bufferOk s.cfg x = true) :
    ∀ x ∈ (appendByte h b s).buf, bufferOk s.cfg x = true := by
  by_cases hc : s.cursor < s.cfg.c
  · rw [appendByte_of_lt hc]
    exact State.bufferOk_modifyBuf hs fun x hx => bufferOk_write hx hc b
  · rwa [appendByte_of_ge (Nat.le_of_not_lt hc)]

/-- 41 R124, R125: the bytes of the line in progress after one more byte. -/
theorem cells_appendByte {s : State} {h : Nat} {b : Byte} {bs : List Byte} (hlt : h < s.buf.length)
    (hcells : s.cells h s.cursor = some bs) :
    (appendByte h b s).cells h (appendByte h b s).cursor = some (if s.cursor < s.cfg.c then bs ++ [b] else bs) := by
  by_cases hc : s.cursor < s.cfg.c
  · rw [appendByte_of_lt hc, if_pos hc]
    show Memory.readMany ((s.bufWrite h s.cursor b).bufAt h).data 0 (s.cursor + 1) = _
    rw [s.bufAt_bufWrite_self _ _ hlt]
    exact Memory.readMany_write_next b hcells
  · rw [appendByte_of_ge (Nat.le_of_not_lt hc), if_neg hc]
    exact hcells

/-- 41 R121. -/
theorem isTerm_eq_true {g : Config} {b : Byte} : isTerm g b = true ↔ b = g.term := by
  simp [isTerm]

theorem isTerm_eq_false {g : Config} {b : Byte} : isTerm g b = false ↔ b ≠ g.term := by
  simp [isTerm]

/-- 41 R124 to R126: what processing a byte into the claimed buffer can do. -/
theorem storeByte_ok {s t : State} {h : Nat} {b : Byte} (ht : storeByte h b s = .ok t) :
    (isTerm s.cfg b = false ∧ t = appendByte h b s) ∨
      (isTerm s.cfg b = true ∧ s.cur = some h ∧
        t = { (appendByte h b s).setLen h (some (appendByte h b s).cursor) with
          readyQ := s.readyQ ++ [h], cur := none, cursor := 0 }) := by
  cases hb : isTerm s.cfg b with
  | false =>
    rw [storeByte_of_not_term hb] at ht
    cases ht
    exact .inl ⟨rfl, rfl⟩
  | true =>
    rw [storeByte_of_term hb] at ht
    obtain ⟨⟨-, hc, -⟩, rfl⟩ := endLine_ok_iff.mp ht
    exact .inr ⟨rfl, by simpa using hc, by simp⟩

/-! ### The places of a buffer (10 R36): where a handle is, it is nowhere else -/

section
variable {s : State} {h : Nat}

theorem BlockInv.nodup (hs : BlockInv s) : s.members.Nodup :=
  hs.members.nodup_iff.mpr List.nodup_range

theorem BlockInv.lt_of_mem_members (hs : BlockInv s) (hm : h ∈ s.members) : h < s.cfg.n :=
  List.mem_range.mp (hs.members.mem_iff.mp hm)

theorem BlockInv.cur_lt_n (hs : BlockInv s) (hc : s.cur = some h) : h < s.cfg.n :=
  hs.lt_of_mem_members (by simp [State.members, hc])

theorem BlockInv.cur_lt_arena (hs : BlockInv s) (hc : s.cur = some h) : h < s.buf.length :=
  hs.arena ▸ hs.cur_lt_n hc

/-- 10 R36: the claimed buffer and the other places. -/
theorem State.members_perm_of_cur (hc : s.cur = some h) :
    s.members.Perm (h :: (s.availQ ++ s.readyQ ++ s.out.toList)) := by
  simpa [State.members, hc] using List.perm_middle (l₁ := s.availQ ++ s.readyQ) (l₂ := s.out.toList) (a := h)

theorem BlockInv.cur_apart (hs : BlockInv s) (hc : s.cur = some h) :
    h ∉ s.availQ ∧ h ∉ s.readyQ ∧ s.out ≠ some h := by
  have hnd := (State.members_perm_of_cur hc).nodup_iff.mp hs.nodup
  simpa [and_assoc] using (List.nodup_cons.mp hnd).1

theorem BlockInv.availQ_head_apart {rest : List Nat} (hs : BlockInv s) (hq : s.availQ = h :: rest) :
    h ∉ rest ∧ h ∉ s.readyQ ∧ s.cur ≠ some h ∧ s.out ≠ some h := by
  have hnd := hs.nodup
  rw [State.members, hq] at hnd
  simpa [and_assoc] using (List.nodup_cons.mp hnd).1

end

/-! ### The invariant, operation by operation -/

section
variable {s t : State} {h : Nat} {b : Byte}

/-- The invariant says nothing of the phase, the histories, the mark and the model's answers. -/
theorem BlockInv.withOutputs (hs : BlockInv s) {ph : Phase} {tl : List Frame} {ev : List Event}
    {fm : Option FaultReason} {rsp : List (BitVec 64)} {arb : List (BitVec 16)} {ans : List Byte} {dr : Nat} :
    BlockInv { s with phase := ph, txLog := tl, evLog := ev, fault := fm, rspLog := rsp, arbLog := arb,
                      initAnswers := ans, draws := dr } :=
  ⟨hs.config, hs.ports, hs.arena, hs.members, hs.cursorZero, hs.cursorLe, hs.stale, hs.claimed, hs.ready,
    hs.checkedOut, hs.chunker, hs.buffers, hs.destination⟩

theorem BlockInv.after_mark (hs : BlockInv s) (r : FaultReason) : BlockInv (s.mark r) := hs.withOutputs

theorem BlockInv.after_respond (hs : BlockInv s) (r : BitVec 64) : BlockInv (s.respond r) := hs.withOutputs

theorem BlockInv.after_emit (hs : BlockInv s) (e : Event) : BlockInv (s.emit e) := hs.withOutputs

/-- 30 R71: fewer inputs wait. -/
theorem BlockInv.withInputs (hs : BlockInv s) {xs : List Input} (hsub : ∀ x ∈ xs, x ∈ s.inputs) :
    BlockInv { s with inputs := xs } :=
  { hs with ports := fun x hx => hs.ports x (hsub x hx) }

/-- 10 R30: the chunker in another good state. -/
theorem BlockInv.withTx (hs : BlockInv s) {x : TxState} (hx : txOk s.cfg x = true) : BlockInv { s with tx := x } :=
  { hs with chunker := hx }

/-- 20 R55: the destination written. -/
theorem BlockInv.withDst (hs : BlockInv s) {d : Memory} (hd : Memory.wf d = true) : BlockInv { s with dst := d } :=
  { hs with destination := hd }

/-- 10 R45: after RESET every buffer is empty, with no length. -/
theorem bufAt_resetBlock (s : State) (h : Nat) : (resetBlock s).bufAt h = {} := by
  show (List.replicate s.cfg.n ({} : LineBuffer)).getD h {} = {}
  by_cases hlt : h < s.cfg.n <;> simp [List.getD_eq_getElem?_getD, hlt]

/-- 70 R230, R231: RESET gives the invariant, whatever the block held. -/
theorem blockInv_resetBlock (hv : s.cfg.valid = true) (hports : ∀ x ∈ s.inputs, x.isPort = true)
    (hdst : Memory.wf s.dst = true) : BlockInv (resetBlock s) where
  config := hv
  ports := hports
  arena := List.length_replicate
  members := by simp [State.members, resetBlock]
  cursorZero _ := rfl
  cursorLe := Nat.zero_le _
  stale g _ := by rw [State.lenAt, bufAt_resetBlock]
  claimed _ hm := by cases hm
  ready _ hm := by cases hm
  checkedOut _ hm := by cases hm
  chunker := rfl
  buffers x hx := by
    rw [List.eq_of_mem_replicate hx]
    rfl
  destination := hdst

/-- 41 R122, R127: a claim moves the head of AvailableQueue to `cur`, with no byte in it. -/
theorem BlockInv.after_claim (hs : BlockInv s) (hc : s.cur = none) (ht : claim s = some t) : BlockInv t := by
  obtain ⟨h, rest, hq, rfl⟩ := claim_some_iff.mp ht
  obtain ⟨hrest, hready, -, hout⟩ := hs.availQ_head_apart hq
  have hother : ∀ g, h ≠ g → (s.clearData h).bufAt g = s.bufAt g := fun g hg => s.bufAt_clearData_ne hg
  have hk : s.cursor = 0 := hs.cursorZero hc
  exact {
    config := hs.config
    ports := hs.ports
    arena := (s.length_modifyBuf _).trans hs.arena
    members := by
      refine List.Perm.trans ?_ hs.members
      simp only [State.members, hq, hc, Option.toList_some, Option.toList_none, List.append_nil]
      simpa using List.perm_middle (l₁ := rest ++ s.readyQ) (l₂ := s.out.toList) (a := h)
    cursorZero := fun h => by cases h
    cursorLe := hs.cursorLe
    stale := fun g hg => by
      have hlen := hs.stale g (hq ▸ List.mem_cons_of_mem h hg)
      show ((s.clearData h).bufAt g).len = none
      rwa [hother g (fun he => hrest (he ▸ hg))]
    claimed := fun g hg => by
      obtain rfl : h = g := (by simpa using hg : g = h).symm
      have hlen := hs.stale h (hq ▸ List.mem_cons_self ..)
      refine State.openOk_iff.mpr ⟨?_, [], ?_, by simp⟩
      · show ((s.clearData h).bufAt h).len = none
        rw [s.bufAt_clearData, if_pos rfl]
        exact hlen
      · show Memory.readMany _ 0 s.cursor = some []
        rw [hk]
        rfl
    ready := fun g hg => State.lineOk_of_bufAt (hs.ready g hg) rfl (hother g fun he => hready (he ▸ hg))
    checkedOut := fun g hg =>
      State.lineOk_of_bufAt (hs.checkedOut g hg) rfl (hother g fun he => hout (he ▸ Option.mem_toList.mp hg))
    chunker := hs.chunker
    buffers := State.bufferOk_modifyBuf hs.buffers fun _ _ => rfl
    destination := hs.destination }

/-- 10 R28: a byte appended leaves the cursor inside the buffer. -/
theorem BlockInv.cursor_appendByte_le (hs : BlockInv s) : (appendByte h b s).cursor ≤ s.cfg.c := by
  have hle := hs.cursorLe
  rw [appendByte_cursor]
  split <;> omega

/-- 41 R124, R125: a byte other than the terminator leaves the line open. -/
theorem BlockInv.after_appendByte (hs : BlockInv s) (hc : s.cur = some h) (hb : isTerm s.cfg b = false) :
    BlockInv (appendByte h b s) := by
  obtain ⟨havail, hready, hout⟩ := hs.cur_apart hc
  have hother : ∀ g, h ≠ g → (appendByte h b s).bufAt g = s.bufAt g := fun g hg => appendByte_bufAt_ne hg
  exact {
    config := by simpa using hs.config
    ports := by simpa using hs.ports
    arena := by simpa using hs.arena
    members := by simpa [State.members] using hs.members
    cursorZero := by simp [hc]
    cursorLe := by simpa using hs.cursor_appendByte_le
    stale := fun g hg => by
      rw [appendByte_lenAt]
      exact hs.stale g (by simpa using hg)
    claimed := fun g hg => by
      obtain rfl : h = g := (by simpa [hc, eq_comm] using hg : g = h).symm
      obtain ⟨hlen, bs, hcells, hterm⟩ := State.openOk_iff.mp (hs.claimed h (by simp [hc]))
      refine State.openOk_iff.mpr ⟨by rwa [appendByte_lenAt], _, cells_appendByte (hs.cur_lt_arena hc) hcells, ?_⟩
      have hne := isTerm_eq_false.mp hb
      split <;> simp [hterm, hne.symm]
    ready := fun g hg => by
      rw [appendByte_readyQ] at hg
      exact State.lineOk_of_bufAt (hs.ready g hg) appendByte_cfg (hother g fun he => hready (he ▸ hg))
    checkedOut := fun g hg => by
      rw [appendByte_out] at hg
      have hne : h ≠ g := fun he => hout (he ▸ Option.mem_toList.mp hg)
      exact State.lineOk_of_bufAt (hs.checkedOut g hg) appendByte_cfg (hother g hne)
    chunker := by simpa using hs.chunker
    buffers := by simpa using bufferOk_appendByte hs.buffers
    destination := by simpa using hs.destination }

/-- 41 R124 to R126: the line in progress with the terminator behind it, or full, is a good line. -/
theorem BlockInv.lineShape_appendByte (hs : BlockInv s) (hc : s.cur = some h) (hb : isTerm s.cfg b = true) :
    1 ≤ (appendByte h b s).cursor ∧
      ∃ bs, (appendByte h b s).cells h (appendByte h b s).cursor = some bs ∧ lineShape s.cfg bs = true := by
  obtain ⟨-, bs, hcells, hterm⟩ := State.openOk_iff.mp (hs.claimed h (by simp [hc]))
  obtain rfl := isTerm_eq_true.mp hb
  obtain ⟨-, -, hcap, -⟩ := Config.bounds_of_valid hs.config
  rw [cells_appendByte (hs.cur_lt_arena hc) hcells, appendByte_cursor]
  by_cases hlt : s.cursor < s.cfg.c
  · simp only [hlt, if_true]
    exact ⟨by omega, _, rfl, lineShape_append_term hterm⟩
  · simp only [hlt, if_false]
    have hfull : s.cfg.c ≤ bs.length := by
      rw [((Memory.readMany_eq_some_iff ..).mp hcells).1]
      omega
    exact ⟨by omega, _, rfl, lineShape_of_full hterm hfull⟩

/-- 41 R126: the terminator publishes the line. -/
theorem BlockInv.after_endLine (hs : BlockInv s) (hc : s.cur = some h) (hb : isTerm s.cfg b = true) :
    BlockInv { (appendByte h b s).setLen h (some (appendByte h b s).cursor) with
      readyQ := s.readyQ ++ [h], cur := none, cursor := 0 } := by
  obtain ⟨havail, hready, hout⟩ := hs.cur_apart hc
  obtain ⟨hpos, bs, hcells, hshape⟩ := hs.lineShape_appendByte hc hb
  have hle := hs.cursor_appendByte_le (h := h) (b := b)
  generalize hu : appendByte h b s = u at hpos hcells hle ⊢
  have hcfg : u.cfg = s.cfg := by simp [← hu]
  have hlt : h < u.buf.length := by simpa [← hu] using hs.cur_lt_arena hc
  have hother : ∀ g, h ≠ g → (u.setLen h (some u.cursor)).bufAt g = s.bufAt g := fun g hg => by
    rw [u.bufAt_setLen_ne _ hg, ← hu, appendByte_bufAt_ne hg]
  have hself : (u.setLen h (some u.cursor)).bufAt h = { u.bufAt h with len := some u.cursor } :=
    u.bufAt_setLen_self _ hlt
  exact {
    config := by simpa [← hu] using hs.config
    ports := by simpa [← hu] using hs.ports
    arena := by simpa [← hu] using hs.arena
    members := by
      simpa [← hu, State.members, hc] using hs.members
    cursorZero := fun _ => rfl
    cursorLe := Nat.zero_le _
    stale := fun g hg => by
      replace hg : g ∈ s.availQ := by simpa [← hu] using hg
      show ((u.setLen h (some u.cursor)).bufAt g).len = none
      rw [hother g fun he => havail (he ▸ hg)]
      exact hs.stale g hg
    claimed := fun g hg => by cases hg
    ready := fun g hg => by
      rcases List.mem_append.mp hg with hg | hg
      · exact State.lineOk_of_bufAt (hs.ready g hg) hcfg (hother g fun he => hready (he ▸ hg))
      · obtain rfl := List.mem_singleton.mp hg
        refine State.lineOk_iff.mpr ⟨u.cursor, bs, congrArg LineBuffer.len hself, hpos, hcfg ▸ hle, ?_, hcfg ▸ hshape⟩
        show Memory.readMany ((u.setLen g (some u.cursor)).bufAt g).data 0 u.cursor = some bs
        rw [hself]
        exact hcells
    checkedOut := fun g hg => by
      replace hg : g ∈ s.out.toList := by simpa [← hu] using hg
      exact State.lineOk_of_bufAt (hs.checkedOut g hg) hcfg (hother g fun he => hout (he ▸ Option.mem_toList.mp hg))
    chunker := by simpa [← hu] using hs.chunker
    buffers := by
      have hbuf := bufferOk_appendByte (h := h) (b := b) hs.buffers
      rw [hu, ← hcfg] at hbuf
      exact State.bufferOk_modifyBuf hbuf fun _ hx => hx
    destination := by simpa [← hu] using hs.destination }

/-- 41 R124 to R126: a byte processed into the claimed buffer. -/
theorem BlockInv.after_storeByte (hs : BlockInv s) (hc : s.cur = some h) (ht : storeByte h b s = .ok t) :
    BlockInv t := by
  rcases storeByte_ok ht with ⟨hb, rfl⟩ | ⟨hb, -, rfl⟩
  · exact hs.after_appendByte hc hb
  · exact hs.after_endLine hc hb

/-- 41 R122 to R128: a frame's bytes. -/
theorem BlockInv.after_assembleFrame {bs : List Byte} (hs : BlockInv s) (ht : assembleFrame bs s = .ok t) :
    BlockInv t :=
  assembleFrame_keeps (fun _ _ hu hc hv => hu.after_claim hc hv) (fun _ _ _ _ hu hc hv => hu.after_storeByte hc hv)
    (fun _ hu _ _ => hu.after_emit _) hs ht

/-- 40 R102, R105: the deferred recycling moves `out` to the tail of AvailableQueue, its length invalidated. -/
theorem BlockInv.after_recycle (hs : BlockInv s) (ht : recycle s = .ok t) : BlockInv t := by
  rcases recycle_ok_iff.mp ht with ⟨-, rfl⟩ | ⟨h, ho, ⟨-, havail, hready, hcur⟩, rfl⟩
  · exact hs
  have hother : ∀ g, h ≠ g → (s.setLen h none).bufAt g = s.bufAt g := fun g hg => s.bufAt_setLen_ne _ hg
  exact {
    config := hs.config
    ports := hs.ports
    arena := (s.length_modifyBuf _).trans hs.arena
    members := by
      refine List.Perm.trans ?_ hs.members
      simp only [State.members, ho, Option.toList_some, Option.toList_none, List.append_nil, List.append_assoc]
      exact (List.perm_append_comm (l₁ := [h])).append_left s.availQ |>.trans (by simp)
    cursorZero := hs.cursorZero
    cursorLe := hs.cursorLe
    stale := fun g hg => by
      show ((s.setLen h none).bufAt g).len = none
      rcases List.mem_append.mp hg with hg | hg
      · rw [hother g fun he => havail (he ▸ hg)]
        exact hs.stale g hg
      · rw [List.mem_singleton.mp hg, s.bufAt_setLen_none, if_pos rfl]
    claimed := fun g hg =>
      State.openOk_of_bufAt (hs.claimed g hg) rfl rfl (hother g fun he => hcur (he ▸ Option.mem_toList.mp hg))
    ready := fun g hg => State.lineOk_of_bufAt (hs.ready g hg) rfl (hother g fun he => hready (he ▸ hg))
    checkedOut := fun g hg => by cases hg
    chunker := hs.chunker
    buffers := State.bufferOk_modifyBuf hs.buffers fun _ hx => hx
    destination := hs.destination }

/-- 40 R104, R105: TAKE_READY into an empty `out`. -/
theorem BlockInv.after_takeLine {rest : List Nat} (hs : BlockInv s) (ho : s.out = none) (hq : s.readyQ = h :: rest) :
    BlockInv { s with readyQ := rest, out := some h } :=
  { hs with
    members := by
      refine List.Perm.trans ?_ hs.members
      simp only [State.members, ho, hq, Option.toList_some, Option.toList_none, List.append_nil, List.append_assoc]
      refine List.Perm.append_left s.availQ ?_
      rw [← List.append_assoc]
      exact List.perm_append_comm
    ready := fun g hg => hs.ready g (hq ▸ List.mem_cons_of_mem h hg)
    checkedOut := fun g hg => by
      obtain rfl : h = g := (by simpa using hg : g = h).symm
      exact hs.ready h (hq ▸ List.mem_cons_self ..) }

/-- 40 R105: after the recycling nothing is checked out. -/
theorem recycle_out (ht : recycle s = .ok t) : t.out = none := by
  rcases recycle_ok_iff.mp ht with ⟨ho, rfl⟩ | ⟨h, -, -, rfl⟩
  · exact ho
  · rfl

/-- 40 R105: RECYCLE_FETCH. -/
theorem BlockInv.after_recycleFetch {r : Option Nat} (hs : BlockInv s) (ht : recycleFetch s = .ok (r, t)) :
    BlockInv t := by
  obtain ⟨u, hu, ⟨-, -, rfl⟩ | ⟨h, rest, hq, -, rfl⟩⟩ := recycleFetch_ok_iff.mp ht
  · exact hs.after_recycle hu
  · exact (hs.after_recycle hu).after_takeLine (recycle_out hu) hq

/-! ### What the two reading commands have in common (42 R140, R142) -/

/-- GET_LINE faults, or is RECYCLE_FETCH and a response. -/
theorem execGetLine_pool (ht : execGetLine s = .next t) :
    (∃ e, t = s.mark e) ∨ ∃ r u w, recycleFetch s = .ok (r, u) ∧ t = u.respond w := by
  obtain ⟨-, -, hok | hmark⟩ := execGetLine_next ht
  · obtain ⟨r, u, hu, w, rfl, -⟩ := getLine_ok hok
    exact .inr ⟨r, u, w, hu, rfl⟩
  · exact .inl hmark

/-- READ faults, or is RECYCLE_FETCH, a canonical destination, and a response. -/
theorem execRead_pool {cap : BitVec 28} (ht : execRead cap s = .next t) :
    (∃ e, t = s.mark e) ∨ ∃ r u d w, recycleFetch s = .ok (r, u) ∧
      (Memory.wf u.dst = true → Memory.wf d = true) ∧ t = State.respond { u with dst := d } w := by
  obtain ⟨-, -, hok | hmark⟩ := execRead_next ht
  · obtain ⟨r, u, hu, ⟨-, rfl⟩ | ⟨g, len, bs, -, -, -, rfl⟩⟩ := readLine_ok hok
    · exact .inr ⟨r, u, u.dst, rspReadNone, hu, id, rfl⟩
    · exact .inr ⟨r, u, _, _, hu, fun hd => Memory.wf_writeMany hd 0 bs, rfl⟩
  · exact .inl hmark

/-! ### The invariant, instruction by instruction -/

theorem BlockInv.after_execInit (hs : BlockInv s) (ht : execInit s = .next t) : BlockInv t := by
  obtain ⟨-, -, ⟨-, rfl⟩ | ⟨-, rfl⟩⟩ := execInit_next ht
  · rw [takeOutcome_frame]
    exact hs.withOutputs
  · exact hs.after_mark _

/-- 43 R160 to R162: a write starts with chunk 0 of a source that has one. -/
theorem BlockInv.after_startWrite (hs : BlockInv s) (src : List Byte) : BlockInv (startWrite src s) := by
  unfold startWrite
  split
  · exact hs.after_respond _
  · rename_i hcut
    obtain ⟨-, -, -, hp, -⟩ := Config.bounds_of_valid hs.config
    have hchunk : 0 < chunkCount s.cfg (eosCut s.cfg.eos src) := (lt_ceilDiv_iff hp).mpr (by omega)
    exact hs.withTx (by simp [txOk, hchunk])

theorem BlockInv.after_execWrite {count : BitVec 28} {src : List Byte} (hs : BlockInv s)
    (ht : execWrite count src s = .next t) : BlockInv t := by
  obtain ⟨-, -, ⟨-, -, rfl⟩ | ⟨-, rfl⟩⟩ := execWrite_next ht
  · exact hs.after_startWrite src
  · exact hs.after_mark _

/-- 43 R165: behind an accepted chunk there is another one, or the write is complete. -/
theorem BlockInv.after_execTxAccept (hs : BlockInv s) (ht : execTxAccept s = .next t) : BlockInv t := by
  obtain ⟨-, src, cut, k, htx, rfl⟩ := execTxAccept_next ht
  have hok := hs.chunker
  simp only [htx, txOk, Bool.and_eq_true, decide_eq_true_eq] at hok
  obtain ⟨hcut, hk⟩ := hok
  by_cases hlast : k + 1 = chunkCount s.cfg cut
  · rw [acceptChunk_last hlast]
    exact (hs.withTx (x := .idle) rfl).withOutputs
  · rw [acceptChunk_more hlast]
    have hnext : k + 1 < chunkCount s.cfg cut := by omega
    exact (hs.withTx (x := .busy src cut (k + 1)) (by simp [txOk, ← hcut, hnext])).withOutputs

theorem BlockInv.after_execGetLine (hs : BlockInv s) (ht : execGetLine s = .next t) : BlockInv t := by
  obtain ⟨e, rfl⟩ | ⟨r, u, w, hu, rfl⟩ := execGetLine_pool ht
  · exact hs.after_mark e
  · exact (hs.after_recycleFetch hu).after_respond w

theorem BlockInv.after_execRead {cap : BitVec 28} (hs : BlockInv s) (ht : execRead cap s = .next t) : BlockInv t := by
  obtain ⟨e, rfl⟩ | ⟨r, u, d, w, hu, hd, rfl⟩ := execRead_pool ht
  · exact hs.after_mark e
  · have hinv := hs.after_recycleFetch hu
    exact (hinv.withDst (hd hinv.destination)).after_respond w

theorem BlockInv.after_execLineByte {i : BitVec 28} (hs : BlockInv s) (ht : execLineByte i s = .next t) :
    BlockInv t := by
  obtain ⟨-, -, hok | ⟨e, rfl⟩⟩ := execLineByte_next ht
  · obtain ⟨g, len, b, -, -, -, -, rfl⟩ := lineByte_ok hok
    exact hs.after_respond _
  · exact hs.after_mark e

theorem BlockInv.after_execRxFrame {f : FrameRecord} (hs : BlockInv s) (ht : execRxFrame f s = .next t) :
    BlockInv t := by
  obtain ⟨-, -, ⟨-, rfl⟩ | ⟨-, -, rfl⟩ | ⟨-, -, hok | ⟨e, -, rfl⟩⟩⟩ := execRxFrame_next ht
  · exact hs.after_mark _
  · exact hs
  · exact hs.after_assembleFrame hok
  · exact hs.after_mark e

/-- 10 R36: every instruction but an arbiter request keeps the invariant. An ACQUIRE by itself would not: its caller
keeps the handle (40 R101). -/
theorem BlockInv.after_exec {i : Instr} (hs : BlockInv s) (hi : issuer i ≠ .unit) (ht : exec i s = .next t) :
    BlockInv t := by
  cases i with
  | init => exact hs.after_execInit ht
  | write count src => exact hs.after_execWrite ht
  | getLine => exact hs.after_execGetLine ht
  | read cap => exact hs.after_execRead ht
  | lineByte i => exact hs.after_execLineByte ht
  | illegalCmd op arg =>
    obtain ⟨-, -, rfl⟩ := execIllegalCmd_next (op := op) (arg := arg) ht
    exact hs.after_mark _
  | rxFrame f => exact hs.after_execRxFrame ht
  | txAccept => exact hs.after_execTxAccept ht
  | reset =>
    obtain ⟨-, rfl⟩ := execReset_next ht
    exact blockInv_resetBlock hs.config hs.ports hs.destination
  | acquire => exact absurd rfl hi
  | publish h => exact absurd rfl hi
  | release h => exact absurd rfl hi
  | takeReady => exact absurd rfl hi
  | recycleFetch => exact absurd rfl hi
  | arbReserved aop h => exact absurd rfl hi

end

/-! ### The agent of a decoded input (30 R71) -/

theorem issuer_decodeCmd (w : BitVec 32) (src : List Byte) : issuer (decodeCmd w src) = .foreground := by
  unfold decodeCmd
  dsimp only
  split <;> (try split) <;> rfl

theorem issuer_decodeArb (w : BitVec 16) : issuer (decodeArb w) = .unit := by
  unfold decodeArb
  dsimp only
  split <;> (try split) <;> rfl

/-- 30 R70, R71: the agent whose step an input is issues the instruction it decodes to. -/
theorem issuer_decode (x : Input) : issuer (decode x) = x.agent := by
  cases x with
  | port p =>
    simp only [decode, decodePort, Input.agent]
    split
    · exact issuer_decodeCmd p.cmd p.src
    all_goals rfl
  | arb w => exact issuer_decodeArb w

/-- 30 R71: no port of the block carries an arbiter request. -/
theorem issuer_decode_ne_unit {x : Input} (hx : x.isPort = true) : issuer (decode x) ≠ .unit := by
  rw [issuer_decode]
  cases x with
  | port p =>
    simp only [Input.agent]
    split <;> simp
  | arb w => cases hx

/-- Settles O51: the input a step takes came from a port, and the instruction it decodes to keeps the invariant in the
state that goes on without it. -/
theorem everyStepKeepsTheInvariant : Obligations.EveryStepKeepsTheInvariant := by
  intro s t hs ht
  obtain ⟨-, -, rfl | ⟨x, left, hnext, hexec⟩⟩ := step_next ht
  · exact hs
  · obtain ⟨pre, post, hin, rfl, -⟩ := nextInput_some hnext
    have hport : x.isPort = true := hs.ports x (by simp [hin])
    have hleft : BlockInv { s with inputs := pre ++ post } := hs.withInputs fun y hy => by
      rw [hin]
      rcases List.mem_append.mp hy with hy | hy <;> simp [hy]
    exact hleft.after_exec (issuer_decode_ne_unit hport) hexec

/-! ### The gate (60 R205), RESET (10 R45, 70 R230) and the conservation of buffers (10 R37) -/

section
variable {s t : State}

/-- 60 R205: with the mark set no agent's gate opens. -/
theorem whenEnabled_of_fault {a : Agent} {k : Host.Outcome State Fault Refusal} {r : FaultReason}
    (h : s.fault = some r) : whenEnabled a s k = .fault (.faulted r) := by
  simp only [whenEnabled, h]

/-- Every meaning stands behind the gate of the agent that issues it. -/
theorem exec_gated (i : Instr) (s : State) : ∃ k, exec i s = whenEnabled (issuer i) s k := by
  cases i <;> exact ⟨_, rfl⟩

/-- 60 R205: a step looks at the mark before it takes an input. -/
theorem step_of_fault {r : FaultReason} (hv : s.cfg.valid = true) (h : s.fault = some r) :
    step s = .fault (.faulted r) := by
  simp only [step, hv, if_true, h]

/-- 70 R230: with no mark set RESET always has a step. -/
theorem exec_reset_of_no_fault (h : s.fault = none) : exec .reset s = .next (resetBlock s) :=
  whenEnabled_of_enabled (State.enabled_platform.mpr h)

/-- 70 R231: the initial state is one that RESET leaves as it is. -/
theorem resetBlock_resetOf (g : Config) : resetBlock (State.resetOf g) = State.resetOf g := rfl

/-- 10 R45: the table of values, for the fields that RESET writes. -/
theorem resetBlock_values (s : State) :
    (resetBlock s).phase = .uninit ∧ (resetBlock s).buf.length = (resetBlock s).cfg.n ∧
      (∀ h i, (resetBlock s).bufRead h i = none) ∧ (∀ h, (resetBlock s).lenAt h = none) ∧
      (resetBlock s).availQ = List.range (resetBlock s).cfg.n ∧ (resetBlock s).readyQ = [] ∧
      (resetBlock s).cur = none ∧ (resetBlock s).cursor = 0 ∧ (resetBlock s).out = none ∧
      (resetBlock s).tx = .idle := by
  refine ⟨rfl, List.length_replicate, fun h i => ?_, fun h => ?_, rfl, rfl, rfl, rfl, rfl, rfl⟩
  · rw [State.bufRead, bufAt_resetBlock, Memory.read_nil]
  · rw [State.lenAt, bufAt_resetBlock]

/-- 10 R36: the places of the buffers, counted. -/
theorem State.length_members (s : State) :
    s.members.length =
      s.availQ.length + s.readyQ.length + (if s.cur = none then 0 else 1) + (if s.out = none then 0 else 1) := by
  cases hc : s.cur <;> cases ho : s.out <;> simp [State.members, hc, ho, add_assoc]

end

/-- Settles O9: every meaning stands behind a gate that the mark keeps shut, and a step asks for the mark first. -/
theorem markedStateHasNoStep : Obligations.MarkedStateHasNoStep := by
  intro s r hf
  refine ⟨fun i => ?_, fun hv => step_of_fault hv hf⟩
  obtain ⟨k, hk⟩ := exec_gated i s
  rw [hk, whenEnabled_of_fault hf]

/-- Settles O13: both resets leave the state `resetBlock` gives, which holds the table of values. -/
theorem resetGivesTheTableOfValues : Obligations.ResetGivesTheTableOfValues := by
  refine ⟨fun g => ⟨rfl, rfl, rfl⟩, fun s t h => ?_⟩
  have hreset : exec .reset s = .next t → t = resetBlock s := fun ht => (execReset_next ht).2
  have hlogs : exec .reset s = .next t → t.txLog = s.txLog ∧ t.evLog = s.evLog ∧ t.fault = s.fault := fun ht => by
    obtain rfl := hreset ht
    exact ⟨rfl, rfl, rfl⟩
  obtain ⟨u, rfl⟩ : ∃ u, t = resetBlock u := by
    rcases h with ⟨g, rfl⟩ | h
    · exact ⟨_, (resetBlock_resetOf g).symm⟩
    · exact ⟨s, hreset h⟩
  obtain ⟨hphase, harena, hread, hlen, havail, hready, hcur, hcursor, hout, htx⟩ := resetBlock_values u
  exact ⟨hphase, harena, hread, hlen, havail, hready, hcur, hcursor, hout, htx, hlogs⟩

/-- Settles O14: RESET's gate asks for the mark alone, and the state it gives does not depend on what it writes. -/
theorem resetCommand : Obligations.ResetCommand := by
  intro s
  refine ⟨fun t ht => (execReset_next ht).1, fun hf => ?_⟩
  exact ⟨resetBlock s, exec_reset_of_no_fault hf, exec_reset_of_no_fault (s := resetBlock s) hf, rfl⟩

/-- Settles O15: the initial state is a state after RESET, with nothing at the ports and an empty destination. -/
theorem resetStateKeepsTheInvariant : Obligations.ResetStateKeepsTheInvariant := by
  intro g hg
  rw [← resetBlock_resetOf g]
  exact blockInv_resetBlock hg (fun x hx => by cases hx) rfl

/-- Settles O52: the places hold each of the `N` handles once (10 R36), so their sizes add up to `N`. -/
theorem buffersAreConserved : Obligations.BuffersAreConserved := by
  intro s hs
  have hsum : s.members.length = s.cfg.n := by
    rw [hs.members.length_eq, List.length_range]
  rw [State.length_members] at hsum
  exact ⟨hsum, by omega, by omega⟩

/-! ### What the arbiter's requests can do (spec 40), one lemma each -/

section
variable {s t : State} {h : BitVec 13}

theorem execAcquire_next (ht : execAcquire s = .next t) :
    s.fault = none ∧ ((s.availQ = [] ∧ t = s.reply (arbReplyHandle none)) ∨
      ∃ g u, acquire s = some (g, u) ∧ t = u.reply (arbReplyHandle (some g))) := by
  obtain ⟨he, hk⟩ := whenEnabled_next ht
  refine ⟨State.enabled_unit.mp he, ?_⟩
  split at hk
  · rename_i ha
    cases hk
    exact .inl ⟨acquire_none_iff.mp ha, rfl⟩
  · rename_i g u ha
    cases hk
    exact .inr ⟨g, u, ha, rfl⟩

theorem execPublish_next (ht : execPublish h s = .next t) :
    s.fault = none ∧ ((∃ e, publish h.toNat s = .error e ∧ t = s.mark e) ∨
      ∃ u, publish h.toNat s = .ok u ∧ t = u.reply arbAck) := by
  obtain ⟨he, hk⟩ := whenEnabled_next ht
  refine ⟨State.enabled_unit.mp he, ?_⟩
  split at hk
  · rename_i e hp
    exact .inl ⟨e, hp, ((raiseFault_next e).mp hk).symm⟩
  · rename_i u hp
    cases hk
    exact .inr ⟨u, hp, rfl⟩

theorem execRelease_next (ht : execRelease h s = .next t) :
    s.fault = none ∧ ((∃ e, release h.toNat s = .error e ∧ t = s.mark e) ∨
      ∃ u, release h.toNat s = .ok u ∧ t = u.reply arbAck) := by
  obtain ⟨he, hk⟩ := whenEnabled_next ht
  refine ⟨State.enabled_unit.mp he, ?_⟩
  split at hk
  · rename_i e hp
    exact .inl ⟨e, hp, ((raiseFault_next e).mp hk).symm⟩
  · rename_i u hp
    cases hk
    exact .inr ⟨u, hp, rfl⟩

theorem execTakeReady_next (ht : execTakeReady s = .next t) :
    s.fault = none ∧ ((s.readyQ = [] ∧ t = s.reply (arbReplyHandle none)) ∨
      ∃ g u, takeReady s = some (g, u) ∧ t = u.reply (arbReplyHandle (some g))) := by
  obtain ⟨he, hk⟩ := whenEnabled_next ht
  refine ⟨State.enabled_unit.mp he, ?_⟩
  split at hk
  · rename_i ha
    cases hk
    exact .inl ⟨takeReady_none_iff.mp ha, rfl⟩
  · rename_i g u ha
    cases hk
    exact .inr ⟨g, u, ha, rfl⟩

theorem execRecycleFetch_next (ht : execRecycleFetch s = .next t) :
    s.fault = none ∧ ((∃ e, recycleFetch s = .error e ∧ t = s.mark e) ∨
      ∃ r u, recycleFetch s = .ok (r, u) ∧ t = u.reply (arbReplyHandle r)) := by
  obtain ⟨he, hk⟩ := whenEnabled_next ht
  refine ⟨State.enabled_unit.mp he, ?_⟩
  split at hk
  · rename_i e hp
    exact .inl ⟨e, hp, ((raiseFault_next e).mp hk).symm⟩
  · rename_i r u hp
    cases hk
    exact .inr ⟨r, u, hp, rfl⟩

theorem execArbReserved_next {aop : BitVec 3} (ht : execArbReserved aop h s = .next t) :
    s.fault = none ∧ t = s.mark .arbiterMisuse := by
  obtain ⟨he, hk⟩ := whenEnabled_next ht
  exact ⟨State.enabled_unit.mp he, ((raiseFault_next _).mp hk).symm⟩

end

/-! ### Which fields each operation and each instruction can write (10 R43)

Each lemma names the fields; every other field of the next state is the old one. -/

section
variable {s t : State}

theorem acquire_frame {g : Nat} (ht : acquire s = some (g, t)) :
    t = { s with buf := t.buf, availQ := t.availQ } := by
  obtain ⟨rest, -, rfl⟩ := acquire_some_iff.mp ht
  rfl

theorem release_frame {g : Nat} (ht : release g s = .ok t) : t = { s with buf := t.buf, availQ := t.availQ } := by
  obtain ⟨-, rfl⟩ := release_ok_iff.mp ht
  rfl

theorem publish_frame {g : Nat} (ht : publish g s = .ok t) : t = { s with readyQ := t.readyQ } := by
  obtain ⟨-, rfl⟩ := publish_ok_iff.mp ht
  rfl

theorem takeReady_frame {g : Nat} (ht : takeReady s = some (g, t)) : t = { s with readyQ := t.readyQ } := by
  obtain ⟨rest, -, rfl⟩ := takeReady_some_iff.mp ht
  rfl

theorem recycleFetch_frame {r : Option Nat} (ht : recycleFetch s = .ok (r, t)) :
    t = { s with buf := t.buf, availQ := t.availQ, readyQ := t.readyQ, out := t.out } := by
  obtain ⟨u, hu, ht⟩ := recycleFetch_ok_iff.mp ht
  have hframe : u = { s with buf := u.buf, availQ := u.availQ, out := u.out } := by
    obtain ⟨-, rfl⟩ | ⟨h0, -, -, rfl⟩ := recycle_ok_iff.mp hu <;> rfl
  obtain ⟨-, -, rfl⟩ | ⟨h, rest, -, -, rfl⟩ := ht <;> rw [hframe]

theorem claim_frame (ht : claim s = some t) :
    t = { s with buf := t.buf, availQ := t.availQ, cur := t.cur } := by
  obtain ⟨h, rest, -, rfl⟩ := claim_some_iff.mp ht
  rfl

theorem storeByte_frame {h : Nat} {b : Byte} (ht : storeByte h b s = .ok t) :
    t = { s with buf := t.buf, cursor := t.cursor, cur := t.cur, readyQ := t.readyQ } := by
  obtain ⟨-, rfl⟩ | ⟨-, -, rfl⟩ := storeByte_ok ht
  · rw [appendByte_frame]
  · rw [appendByte_frame]
    rfl

/-- A frame's bytes: what a claim, a processed byte and the event of a failed claim relate, a whole frame relates. -/
theorem assembleFrame_relates {R : State → State → Prop} (hrefl : ∀ u, R u u)
    (htrans : ∀ u v w, R u v → R v w → R u w) (hclaim : ∀ u v, u.cur = none → claim u = some v → R u v)
    (hstore : ∀ u v h b, u.cur = some h → storeByte h b u = .ok v → R u v)
    (hemit : ∀ u, R u (u.emit .poolExhausted)) {bs : List Byte} (ht : assembleFrame bs s = .ok t) : R s t :=
  assembleFrame_keeps (P := R s) (fun u v hu hc hv => htrans s u v hu (hclaim u v hc hv))
    (fun u v h b hu hc hv => htrans s u v hu (hstore u v h b hc hv))
    (fun u hu _ _ => htrans s u _ hu (hemit u)) (hrefl s) ht

/-- 41 R129: the fields that a frame can write. -/
def FrameWrites (s t : State) : Prop :=
  t = { s with cur := t.cur, cursor := t.cursor, buf := t.buf, availQ := t.availQ, readyQ := t.readyQ,
               evLog := t.evLog, fault := t.fault }

theorem FrameWrites.trans {u : State} (h1 : FrameWrites s t) (h2 : FrameWrites t u) : FrameWrites s u := by
  unfold FrameWrites at *
  rw [h2, h1]

theorem assembleFrame_frame {bs : List Byte} (ht : assembleFrame bs s = .ok t) : FrameWrites s t := by
  refine assembleFrame_relates (fun _ => rfl) (fun _ _ _ => FrameWrites.trans) ?_ ?_ (fun _ => rfl) ht
  · intro u v _ hv
    unfold FrameWrites
    rw [claim_frame hv]
  · intro u v h b _ hv
    unfold FrameWrites
    rw [storeByte_frame hv]

theorem execInit_frame (ht : execInit s = .next t) :
    t = { s with phase := t.phase, rspLog := t.rspLog, initAnswers := t.initAnswers, draws := t.draws,
                 fault := t.fault } := by
  obtain ⟨-, -, ⟨-, rfl⟩ | ⟨-, rfl⟩⟩ := execInit_next ht
  · rw [takeOutcome_frame]
    rfl
  · rfl

theorem execWrite_frame {count : BitVec 28} {src : List Byte} (ht : execWrite count src s = .next t) :
    t = { s with tx := t.tx, rspLog := t.rspLog, fault := t.fault } := by
  obtain ⟨-, -, ⟨-, -, rfl⟩ | ⟨-, rfl⟩⟩ := execWrite_next ht
  · unfold startWrite
    split <;> rfl
  · rfl

theorem execGetLine_frame (ht : execGetLine s = .next t) :
    t = { s with buf := t.buf, availQ := t.availQ, readyQ := t.readyQ, out := t.out, rspLog := t.rspLog,
                 fault := t.fault } := by
  obtain ⟨e, rfl⟩ | ⟨r, u, w, hu, rfl⟩ := execGetLine_pool ht
  · rfl
  · rw [recycleFetch_frame hu]
    rfl

theorem execRead_frame {cap : BitVec 28} (ht : execRead cap s = .next t) :
    t = { s with buf := t.buf, availQ := t.availQ, readyQ := t.readyQ, out := t.out, rspLog := t.rspLog,
                 dst := t.dst, fault := t.fault } := by
  obtain ⟨e, rfl⟩ | ⟨r, u, d, w, hu, -, rfl⟩ := execRead_pool ht
  · rfl
  · rw [recycleFetch_frame hu]
    rfl

theorem execLineByte_frame {i : BitVec 28} (ht : execLineByte i s = .next t) :
    t = { s with rspLog := t.rspLog, fault := t.fault } := by
  obtain ⟨-, -, hok | ⟨e, rfl⟩⟩ := execLineByte_next ht
  · obtain ⟨g, len, b, -, -, -, -, rfl⟩ := lineByte_ok hok
    rfl
  · rfl

theorem execIllegalCmd_frame {op : BitVec 4} {arg : BitVec 28} (ht : execIllegalCmd op arg s = .next t) :
    t = { s with fault := t.fault } := by
  obtain ⟨-, -, rfl⟩ := execIllegalCmd_next ht
  rfl

theorem execRxFrame_frame {f : FrameRecord} (ht : execRxFrame f s = .next t) : FrameWrites s t := by
  obtain ⟨-, -, ⟨-, rfl⟩ | ⟨-, -, rfl⟩ | ⟨-, -, hok | ⟨e, -, rfl⟩⟩⟩ := execRxFrame_next ht
  · rfl
  · rfl
  · exact assembleFrame_frame hok
  · rfl

theorem execTxAccept_frame (ht : execTxAccept s = .next t) :
    t = { s with tx := t.tx, txLog := t.txLog, rspLog := t.rspLog } := by
  obtain ⟨-, src, cut, k, -, rfl⟩ := execTxAccept_next ht
  unfold acceptChunk
  dsimp only
  split <;> rfl

theorem execReset_frame (ht : execReset s = .next t) :
    t = { s with phase := t.phase, buf := t.buf, availQ := t.availQ, readyQ := t.readyQ, cur := t.cur,
                 cursor := t.cursor, out := t.out, tx := t.tx } := by
  obtain ⟨-, rfl⟩ := execReset_next ht
  rfl

theorem execAcquire_frame (ht : execAcquire s = .next t) :
    t = { s with buf := t.buf, availQ := t.availQ, arbLog := t.arbLog } := by
  obtain ⟨-, ⟨-, rfl⟩ | ⟨g, u, hu, rfl⟩⟩ := execAcquire_next ht
  · rfl
  · rw [acquire_frame hu]
    rfl

theorem execPublish_frame {h : BitVec 13} (ht : execPublish h s = .next t) :
    t = { s with readyQ := t.readyQ, arbLog := t.arbLog, fault := t.fault } := by
  obtain ⟨-, ⟨e, -, rfl⟩ | ⟨u, hu, rfl⟩⟩ := execPublish_next ht
  · rfl
  · rw [publish_frame hu]
    rfl

theorem execRelease_frame {h : BitVec 13} (ht : execRelease h s = .next t) :
    t = { s with buf := t.buf, availQ := t.availQ, arbLog := t.arbLog, fault := t.fault } := by
  obtain ⟨-, ⟨e, -, rfl⟩ | ⟨u, hu, rfl⟩⟩ := execRelease_next ht
  · rfl
  · rw [release_frame hu]
    rfl

theorem execTakeReady_frame (ht : execTakeReady s = .next t) :
    t = { s with readyQ := t.readyQ, arbLog := t.arbLog } := by
  obtain ⟨-, ⟨-, rfl⟩ | ⟨g, u, hu, rfl⟩⟩ := execTakeReady_next ht
  · rfl
  · rw [takeReady_frame hu]
    rfl

theorem execRecycleFetch_frame (ht : execRecycleFetch s = .next t) :
    t = { s with buf := t.buf, availQ := t.availQ, readyQ := t.readyQ, out := t.out, arbLog := t.arbLog,
                 fault := t.fault } := by
  obtain ⟨-, ⟨e, -, rfl⟩ | ⟨r, u, hu, rfl⟩⟩ := execRecycleFetch_next ht
  · rfl
  · rw [recycleFetch_frame hu]
    rfl

theorem execArbReserved_frame {aop : BitVec 3} {h : BitVec 13} (ht : execArbReserved aop h s = .next t) :
    t = { s with fault := t.fault } := by
  obtain ⟨-, rfl⟩ := execArbReserved_next ht
  rfl

end

/-- Settles O54: each instruction's own frame names the fields it can write. -/
theorem fieldsHaveTheirWriters : Obligations.FieldsHaveTheirWriters := by
  intro i s t ht
  cases i with
  | init => rw [execInit_frame ht]; simp [issuer]
  | write count src => rw [execWrite_frame (count := count) (src := src) ht]; simp [issuer]
  | getLine => rw [execGetLine_frame ht]; simp [issuer]
  | read cap => rw [execRead_frame (cap := cap) ht]; simp [issuer]
  | lineByte k => rw [execLineByte_frame (i := k) ht]; simp [issuer]
  | illegalCmd op arg => rw [execIllegalCmd_frame (op := op) (arg := arg) ht]; simp
  | rxFrame f => rw [execRxFrame_frame (f := f) ht]; simp
  | txAccept => rw [execTxAccept_frame ht]; simp
  | reset => rw [execReset_frame ht]; simp
  | acquire => rw [execAcquire_frame ht]; simp [issuer]
  | publish h => rw [execPublish_frame (h := h) ht]; simp [issuer]
  | release h => rw [execRelease_frame (h := h) ht]; simp [issuer]
  | takeReady => rw [execTakeReady_frame ht]; simp [issuer]
  | recycleFetch => rw [execRecycleFetch_frame ht]; simp [issuer]
  | arbReserved aop h => rw [execArbReserved_frame (aop := aop) (h := h) ht]; simp

/-! ### Frames: the queues, the buffers and the events (spec 41) -/

section
variable {s t : State} {h : Nat} {b : Byte}

/-- 41 R124, R126: a byte processed into a claimed buffer leaves the buffer claimed and its cursor no lower, or
publishes it. -/
theorem storeByte_places (ht : storeByte h b s = .ok t) :
    (t.cur = s.cur ∧ t.readyQ = s.readyQ ∧ s.cursor ≤ t.cursor) ∨ (t.cur = none ∧ t.readyQ = s.readyQ ++ [h]) := by
  rcases storeByte_ok ht with ⟨-, rfl⟩ | ⟨-, -, rfl⟩
  · refine .inl ⟨appendByte_cur, appendByte_readyQ, ?_⟩
    rw [appendByte_cursor]
    split <;> omega
  · exact .inr ⟨rfl, rfl⟩

/-- 41 R124 to R126: a byte processed into a buffer leaves every other buffer alone. -/
theorem storeByte_bufAt_ne {g : Nat} (ht : storeByte h b s = .ok t) (hne : h ≠ g) : t.bufAt g = s.bufAt g := by
  rcases storeByte_ok ht with ⟨-, rfl⟩ | ⟨-, -, rfl⟩
  · exact appendByte_bufAt_ne hne
  · exact (State.bufAt_setLen_ne _ _ hne).trans (appendByte_bufAt_ne hne)

theorem State.bufRead_of_bufAt_eq (hb : t.bufAt h = s.bufAt h) (i : Nat) : t.bufRead h i = s.bufRead h i :=
  congrArg (fun x : LineBuffer => Memory.read x.data i) hb

/-- The bytes of a buffer do not depend on any length. -/
@[simp] theorem State.bufRead_setLen (s : State) (h : Nat) (v : Option Nat) (g i : Nat) :
    (s.setLen h v).bufRead g i = s.bufRead g i := by
  unfold State.bufRead
  by_cases hne : h = g
  · subst hne
    by_cases hlt : h < s.buf.length
    · rw [s.bufAt_setLen_self v hlt]
    · rw [State.setLen, s.modifyBuf_of_le _ (Nat.le_of_not_lt hlt)]
  · rw [s.bufAt_setLen_ne v hne]

/-- 41 R124, R125: a byte appended writes the cell at the cursor, where the buffer has one, and no other. -/
theorem appendByte_bufRead {g i : Nat} (hi : i < s.cursor ∨ s.cfg.c ≤ i) :
    (appendByte h b s).bufRead g i = s.bufRead g i := by
  by_cases hc : s.cursor < s.cfg.c
  · rw [appendByte_of_lt hc]
    show Memory.read ((s.bufWrite h s.cursor b).bufAt g).data i = Memory.read (s.bufAt g).data i
    by_cases hne : h = g
    · subst hne
      by_cases hlt : h < s.buf.length
      · rw [s.bufAt_bufWrite_self _ _ hlt]
        exact Memory.read_write_ne _ b (by omega)
      · rw [State.bufWrite, s.modifyBuf_of_le _ (Nat.le_of_not_lt hlt)]
    · rw [s.bufAt_bufWrite_ne _ _ hne]
  · rw [appendByte_of_ge (Nat.le_of_not_lt hc)]

theorem storeByte_bufRead {g i : Nat} (ht : storeByte h b s = .ok t) (hi : i < s.cursor ∨ s.cfg.c ≤ i) :
    t.bufRead g i = s.bufRead g i := by
  rcases storeByte_ok ht with ⟨-, rfl⟩ | ⟨-, -, rfl⟩
  · exact appendByte_bufRead hi
  · exact (State.bufRead_setLen ..).trans (appendByte_bufRead hi)

/-- 41 R135, 10 R40: ReadyQueue grows at its tail, AvailableQueue shrinks at its head. -/
def QueueOrder (s t : State) : Prop := s.readyQ <+: t.readyQ ∧ t.availQ <:+ s.availQ

theorem QueueOrder.refl (s : State) : QueueOrder s s := ⟨List.prefix_rfl, List.suffix_rfl⟩

theorem QueueOrder.trans {u : State} (h1 : QueueOrder s t) (h2 : QueueOrder t u) : QueueOrder s u :=
  ⟨h1.1.trans h2.1, h2.2.trans h1.2⟩

theorem claim_queueOrder (ht : claim s = some t) : QueueOrder s t := by
  obtain ⟨h, rest, hq, rfl⟩ := claim_some_iff.mp ht
  exact ⟨List.prefix_rfl, hq ▸ List.suffix_cons h rest⟩

theorem storeByte_queueOrder (ht : storeByte h b s = .ok t) : QueueOrder s t := by
  have havail : t.availQ = s.availQ := by rw [storeByte_frame ht]
  refine ⟨?_, havail ▸ List.suffix_rfl⟩
  rcases storeByte_places ht with ⟨-, hready, -⟩ | ⟨-, hready⟩
  · exact hready ▸ List.prefix_rfl
  · exact hready ▸ List.prefix_append s.readyQ [h]

theorem assembleFrame_queueOrder {bs : List Byte} (ht : assembleFrame bs s = .ok t) : QueueOrder s t :=
  assembleFrame_relates QueueOrder.refl (fun _ _ _ => QueueOrder.trans) (fun _ _ _ => claim_queueOrder)
    (fun _ _ _ _ _ => storeByte_queueOrder) (fun u => QueueOrder.refl u) ht

/-- 10 R32: the events that a frame emits come after the others. -/
theorem assembleFrame_evLog {bs : List Byte} (ht : assembleFrame bs s = .ok t) : s.evLog <+: t.evLog := by
  refine assembleFrame_relates (R := fun u v => u.evLog <+: v.evLog) (fun _ => List.prefix_rfl)
    (fun _ _ _ => List.IsPrefix.trans) ?_ ?_ (fun u => List.prefix_append u.evLog _) ht
  · intro u v _ hv
    rw [claim_frame hv]
  · intro u v h b _ hv
    rw [storeByte_frame hv]

/-- 41 R129: what a frame that began in `s` has left alone by the time it is in `u`. A buffer it has claimed was claimed
or available in `s`; the cursor of the buffer claimed in `s` has not gone back. -/
structure LeavesAlone (s u : State) : Prop where
  cfg : u.cfg = s.cfg
  avail : u.availQ <:+ s.availQ
  cur : ∀ h, u.cur = some h → s.cur = some h ∨ h ∈ s.availQ
  cursor : ∀ h, h ∉ s.availQ → u.cur = some h → s.cursor ≤ u.cursor
  others : ∀ h, h ∉ s.availQ → s.cur ≠ some h → u.bufAt h = s.bufAt h
  claimed : ∀ h i, h ∉ s.availQ → s.cur = some h → i < s.cursor ∨ s.cfg.c ≤ i → u.bufRead h i = s.bufRead h i

theorem LeavesAlone.refl (s : State) : LeavesAlone s s where
  cfg := rfl
  avail := List.suffix_rfl
  cur _ := .inl
  cursor _ _ _ := le_rfl
  others _ _ _ := rfl
  claimed _ _ _ _ _ := rfl

theorem LeavesAlone.after_claim {u v : State} (hu : LeavesAlone s u) (hv : claim u = some v) : LeavesAlone s v := by
  obtain ⟨g, rest, hq, rfl⟩ := claim_some_iff.mp hv
  have hg : g ∈ s.availQ := hu.avail.subset (hq ▸ List.mem_cons_self ..)
  have hclear : ∀ h, h ∉ s.availQ → (u.clearData g).bufAt h = u.bufAt h := fun h hh =>
    u.bufAt_clearData_ne fun he => hh (he ▸ hg)
  exact {
    cfg := hu.cfg
    avail := (hq ▸ List.suffix_cons g rest).trans hu.avail
    cur := fun h hc => by
      cases hc
      exact .inr hg
    cursor := fun h hh hc => by
      cases hc
      exact absurd hg hh
    others := fun h hh hc => (hclear h hh).trans (hu.others h hh hc)
    claimed := fun h i hh hc hi =>
      (State.bufRead_of_bufAt_eq (hclear h hh) i).trans (hu.claimed h i hh hc hi) }

theorem LeavesAlone.after_storeByte {u v : State} (hu : LeavesAlone s u) (hc : u.cur = some h)
    (hv : storeByte h b u = .ok v) : LeavesAlone s v := by
  have hframe := storeByte_frame hv
  have hcfg : v.cfg = u.cfg := by rw [hframe]
  have havail : v.availQ = u.availQ := by rw [hframe]
  have hplaces := storeByte_places hv
  exact {
    cfg := hcfg.trans hu.cfg
    avail := havail ▸ hu.avail
    cur := fun g hg => by
      rcases hplaces with ⟨hcur, -⟩ | ⟨hcur, -⟩
      · exact hu.cur g (hcur ▸ hg)
      · rw [hcur] at hg
        cases hg
    cursor := fun g hg hgc => by
      rcases hplaces with ⟨hcur, -, hle⟩ | ⟨hcur, -⟩
      · exact (hu.cursor g hg (hcur ▸ hgc)).trans hle
      · rw [hcur] at hgc
        cases hgc
    others := fun g hg hgc => by
      have hne : h ≠ g := fun he => (hu.cur h hc).elim (he ▸ hgc) (he ▸ hg)
      exact (storeByte_bufAt_ne hv hne).trans (hu.others g hg hgc)
    claimed := fun g i hg hgc hi => by
      refine Eq.trans ?_ (hu.claimed g i hg hgc hi)
      by_cases hne : h = g
      · subst hne
        have hcursor := hu.cursor h hg hc
        exact storeByte_bufRead hv (hi.imp (fun hlt => hlt.trans_le hcursor) (fun hge => hu.cfg ▸ hge))
      · exact State.bufRead_of_bufAt_eq (storeByte_bufAt_ne hv hne) i }

theorem LeavesAlone.after_emit {u : State} (hu : LeavesAlone s u) (e : Event) : LeavesAlone s (u.emit e) :=
  ⟨hu.cfg, hu.avail, hu.cur, hu.cursor, hu.others, hu.claimed⟩

theorem assembleFrame_leavesAlone {bs : List Byte} (ht : assembleFrame bs s = .ok t) : LeavesAlone s t :=
  assembleFrame_keeps (P := LeavesAlone s) (fun _ _ hu _ hv => hu.after_claim hv)
    (fun _ _ _ _ hu hc hv => hu.after_storeByte hc hv) (fun _ hu _ _ => hu.after_emit _) (LeavesAlone.refl s) ht

/-- 40 R101: from a state that keeps the invariant, a buffer that is available still after a frame is unchanged. -/
theorem assembleFrame_bufAt_available {bs : List Byte} (hs : BlockInv s) (ht : assembleFrame bs s = .ok t) :
    ∀ g ∈ t.availQ, t.bufAt g = s.bufAt g := by
  refine (assembleFrame_keeps (P := fun u => BlockInv u ∧ ∀ g ∈ u.availQ, u.bufAt g = s.bufAt g) ?_ ?_ ?_
    ⟨hs, fun _ _ => rfl⟩ ht).2
  · rintro u v ⟨hu, hsame⟩ hc hv
    refine ⟨hu.after_claim hc hv, fun g hg => ?_⟩
    obtain ⟨h, rest, hq, rfl⟩ := claim_some_iff.mp hv
    obtain ⟨hrest, -⟩ := hu.availQ_head_apart hq
    have hne : h ≠ g := fun he => hrest (he ▸ hg)
    exact (u.bufAt_clearData_ne hne).trans (hsame g (hq ▸ List.mem_cons_of_mem h hg))
  · rintro u v h b ⟨hu, hsame⟩ hc hv
    refine ⟨hu.after_storeByte hc hv, fun g hg => ?_⟩
    have havail : v.availQ = u.availQ := by rw [storeByte_frame hv]
    rw [havail] at hg
    have hne : h ≠ g := fun he => (hu.cur_apart hc).1 (he ▸ hg)
    exact (storeByte_bufAt_ne hv hne).trans (hsame g hg)
  · rintro u ⟨hu, hsame⟩ - -
    exact ⟨hu.after_emit _, hsame⟩

/-- 41 R129: what every outcome of RX_FRAME has in common: what a mark keeps and the assembler keeps, it keeps. -/
theorem execRxFrame_relates {R : State → State → Prop} (hrefl : R s s) (hmark : ∀ e, R s (s.mark e))
    (hframe : ∀ bs, assembleFrame bs s = .ok t → R s t) {f : FrameRecord} (ht : execRxFrame f s = .next t) :
    R s t := by
  obtain ⟨-, -, ⟨-, rfl⟩ | ⟨-, -, rfl⟩ | ⟨-, -, hok | ⟨e, -, rfl⟩⟩⟩ := execRxFrame_next ht
  · exact hmark _
  · exact hrefl
  · exact hframe _ hok
  · exact hmark e

end

/-- Settles O45: a claim takes the head of AvailableQueue, a publication adds to the tail of ReadyQueue. -/
theorem framesKeepQueueOrder : Obligations.FramesKeepQueueOrder := fun s _ f ht =>
  execRxFrame_relates (R := QueueOrder) (f := f) (QueueOrder.refl s) (fun _ => QueueOrder.refl s)
    (fun _ => assembleFrame_queueOrder) ht

/-- Settles O46: the frame writes the buffer claimed at its start from the cursor on, and buffers that were
available. -/
theorem framesTouchOnlyTheirBuffers : Obligations.FramesTouchOnlyTheirBuffers := by
  intro s t f ht
  have halone : LeavesAlone s t := execRxFrame_relates (R := LeavesAlone) (f := f) (LeavesAlone.refl s)
    (fun _ => ⟨rfl, List.suffix_rfl, fun _ => .inl, fun _ _ _ => le_rfl, fun _ _ _ => rfl, fun _ _ _ _ _ => rfl⟩)
    (fun _ => assembleFrame_leavesAlone) ht
  refine ⟨execRxFrame_frame (f := f) ht, halone.others, halone.claimed, fun hs => ?_⟩
  exact execRxFrame_relates (R := fun u v => ∀ g ∈ v.availQ, v.bufAt g = u.bufAt g) (f := f) (fun _ _ => rfl)
    (fun _ _ _ => rfl) (fun _ => assembleFrame_bufAt_available hs) ht

/-! ### The lifecycle of a buffer (10 R42) -/

/-- 10 R42: where buffer `h` can be in `t`, from its place in `s`. -/
def Lifecycle (h : Nat) (s t : State) : Prop :=
  (s.cur = some h → t.cur = some h ∨ h ∈ t.readyQ) ∧ (h ∈ s.readyQ → h ∈ t.readyQ ∨ t.out = some h) ∧
    (s.out = some h → t.out = some h ∨ h ∈ t.availQ) ∧ (h ∈ s.availQ → h ∈ t.availQ ∨ t.cur = some h ∨ h ∈ t.readyQ)

/-- 41 R122 to R126: the way of a buffer through a frame: from AvailableQueue to `cur` to ReadyQueue. -/
def Fills (h : Nat) (s t : State) : Prop :=
  (s.cur = some h → t.cur = some h ∨ h ∈ t.readyQ) ∧ (h ∈ s.readyQ → h ∈ t.readyQ) ∧
    (h ∈ s.availQ → h ∈ t.availQ ∨ t.cur = some h ∨ h ∈ t.readyQ)

section
variable {s t : State} {h : Nat}

theorem Lifecycle.refl (h : Nat) (s : State) : Lifecycle h s s := ⟨.inl, .inl, .inl, .inl⟩

theorem Fills.refl (h : Nat) (s : State) : Fills h s s := ⟨.inl, id, .inl⟩

theorem Fills.trans {u : State} (h1 : Fills h s t) (h2 : Fills h t u) : Fills h s u := by
  obtain ⟨hcur, hready, havail⟩ := h2
  exact ⟨fun hc => (h1.1 hc).elim hcur fun hr => .inr (hready hr), fun hr => hready (h1.2.1 hr), fun ha =>
    (h1.2.2 ha).elim havail fun hcr => .inr (hcr.elim hcur fun hr => .inr (hready hr))⟩

theorem claim_fills (hc : s.cur = none) (ht : claim s = some t) : Fills h s t := by
  obtain ⟨g, rest, hq, rfl⟩ := claim_some_iff.mp ht
  refine ⟨fun he => ?_, id, fun ha => ?_⟩
  · rw [hc] at he
    cases he
  · rcases List.mem_cons.mp (hq ▸ ha) with rfl | ha
    · exact .inr (.inl rfl)
    · exact .inl ha

theorem storeByte_fills {g : Nat} {b : Byte} (hc : s.cur = some g) (ht : storeByte g b s = .ok t) : Fills h s t := by
  have havail : t.availQ = s.availQ := by rw [storeByte_frame ht]
  rcases storeByte_places ht with ⟨hcur, hready, -⟩ | ⟨hcur, hready⟩
  · rw [Fills, hcur, hready, havail]
    exact Fills.refl h s
  · rw [Fills, hc, hready, havail]
    refine ⟨fun he => .inr ?_, fun hr => List.mem_append_left [g] hr, .inl⟩
    rw [Option.some.inj he]
    exact List.mem_append_right s.readyQ (List.mem_singleton_self h)

theorem execRxFrame_lifecycle {f : FrameRecord} (ht : execRxFrame f s = .next t) : Lifecycle h s t := by
  have hout : t.out = s.out := by rw [execRxFrame_frame ht]
  obtain ⟨hcur, hready, havail⟩ : Fills h s t := execRxFrame_relates (R := Fills h) (Fills.refl h s)
    (fun _ => Fills.refl h s)
    (fun _ => assembleFrame_relates (Fills.refl h) (fun _ _ _ => Fills.trans) (fun _ _ => claim_fills)
      (fun _ _ _ _ => storeByte_fills) (fun u => Fills.refl h u)) ht
  exact ⟨hcur, fun hr => .inl (hready hr), fun ho => .inl (hout ▸ ho), havail⟩

/-- 40 R105: the deferred recycling moves the buffer checked out, if any, to AvailableQueue, and no other. -/
theorem recycle_lifecycle (ht : recycle s = .ok t) :
    t.cur = s.cur ∧ t.readyQ = s.readyQ ∧ (s.out = some h → h ∈ t.availQ) ∧ (h ∈ s.availQ → h ∈ t.availQ) := by
  rcases recycle_ok_iff.mp ht with ⟨ho, rfl⟩ | ⟨h0, ho, -, rfl⟩
  · exact ⟨rfl, rfl, by simp [ho], id⟩
  · refine ⟨rfl, rfl, fun he => ?_, List.mem_append_left [h0]⟩
    rw [Option.some.inj (ho.symm.trans he)]
    exact List.mem_append_right s.availQ (List.mem_singleton_self h)

/-- 40 R105: the way of a buffer through RECYCLE_FETCH: from ReadyQueue to `out`, from `out` to AvailableQueue. -/
theorem recycleFetch_lifecycle {r : Option Nat} (ht : recycleFetch s = .ok (r, t)) : Lifecycle h s t := by
  obtain ⟨u, hu, ht⟩ := recycleFetch_ok_iff.mp ht
  obtain ⟨hcur, hready, hout, havail⟩ := recycle_lifecycle (h := h) hu
  rw [Lifecycle, ← hcur, ← hready]
  rcases ht with ⟨-, -, rfl⟩ | ⟨g, rest, hq, -, rfl⟩
  · exact ⟨.inl, .inl, fun ho => .inr (hout ho), fun ha => .inl (havail ha)⟩
  · refine ⟨.inl, fun hr => ?_, fun ho => .inr (hout ho), fun ha => .inl (havail ha)⟩
    rcases List.mem_cons.mp (hq ▸ hr) with rfl | hr
    · exact .inr rfl
    · exact .inl hr

theorem execGetLine_lifecycle (ht : execGetLine s = .next t) : Lifecycle h s t := by
  obtain ⟨e, rfl⟩ | ⟨r, u, w, hu, rfl⟩ := execGetLine_pool ht
  · exact Lifecycle.refl h s
  · exact (recycleFetch_lifecycle hu : Lifecycle h s u)

theorem execRead_lifecycle {cap : BitVec 28} (ht : execRead cap s = .next t) : Lifecycle h s t := by
  obtain ⟨e, rfl⟩ | ⟨r, u, d, w, hu, -, rfl⟩ := execRead_pool ht
  · exact Lifecycle.refl h s
  · exact (recycleFetch_lifecycle hu : Lifecycle h s u)

/-- 10 R42: no instruction of a port but RESET takes a buffer out of its cycle. Those that neither fill nor read a line
leave all four places as they are. -/
theorem exec_lifecycle {i : Instr} (hi : issuer i ≠ .unit) (hr : i ≠ .reset) (ht : exec i s = .next t) :
    Lifecycle h s t := by
  cases i with
  | init => rw [execInit_frame ht]; exact Lifecycle.refl h s
  | write count src => rw [execWrite_frame (count := count) (src := src) ht]; exact Lifecycle.refl h s
  | getLine => exact execGetLine_lifecycle ht
  | read cap => exact execRead_lifecycle (cap := cap) ht
  | lineByte k => rw [execLineByte_frame (i := k) ht]; exact Lifecycle.refl h s
  | illegalCmd op arg => rw [execIllegalCmd_frame (op := op) (arg := arg) ht]; exact Lifecycle.refl h s
  | rxFrame f => exact execRxFrame_lifecycle (f := f) ht
  | txAccept => rw [execTxAccept_frame ht]; exact Lifecycle.refl h s
  | reset => exact absurd rfl hr
  | acquire => exact absurd rfl hi
  | publish h => exact absurd rfl hi
  | release h => exact absurd rfl hi
  | takeReady => exact absurd rfl hi
  | recycleFetch => exact absurd rfl hi
  | arbReserved aop h => exact absurd rfl hi

end

/-- Settles O53: a port carries no arbiter request (30 R71), and every other input but RESET keeps the cycle. -/
theorem bufferLifecycle : Obligations.BufferLifecycle := fun _ _ _ _ _ hx hr ht =>
  exec_lifecycle (issuer_decode_ne_unit hx) hr ht

/-! ### The bytes of the buffers (20 R51, R52) -/

section
variable {s t : State}

/-- 40 R102, 92 D34: RELEASE invalidates the length and leaves the bytes. -/
theorem release_bufRead {g : Nat} (ht : release g s = .ok t) (h k : Nat) : t.bufRead h k = s.bufRead h k := by
  obtain ⟨-, rfl⟩ := release_ok_iff.mp ht
  exact s.bufRead_setLen g none h k

theorem recycleFetch_bufRead {r : Option Nat} (ht : recycleFetch s = .ok (r, t)) (h k : Nat) :
    t.bufRead h k = s.bufRead h k := by
  obtain ⟨u, hu, ht⟩ := recycleFetch_ok_iff.mp ht
  have hrecycle : u.bufRead h k = s.bufRead h k := by
    rcases recycle_ok_iff.mp hu with ⟨-, rfl⟩ | ⟨h0, -, -, rfl⟩
    · rfl
    · exact s.bufRead_setLen h0 none h k
  obtain ⟨-, -, rfl⟩ | ⟨g, rest, -, -, rfl⟩ := ht
  · exact hrecycle
  · exact hrecycle

theorem execGetLine_bufRead (ht : execGetLine s = .next t) (h k : Nat) : t.bufRead h k = s.bufRead h k := by
  obtain ⟨e, rfl⟩ | ⟨r, u, w, hu, rfl⟩ := execGetLine_pool ht
  · rfl
  · exact recycleFetch_bufRead hu h k

theorem execRead_bufRead {cap : BitVec 28} (ht : execRead cap s = .next t) (h k : Nat) :
    t.bufRead h k = s.bufRead h k := by
  obtain ⟨e, rfl⟩ | ⟨r, u, d, w, hu, -, rfl⟩ := execRead_pool ht
  · rfl
  · exact recycleFetch_bufRead hu h k

theorem execRelease_bufRead {g : BitVec 13} (ht : execRelease g s = .next t) (h k : Nat) :
    t.bufRead h k = s.bufRead h k := by
  obtain ⟨-, ⟨e, -, rfl⟩ | ⟨u, hu, rfl⟩⟩ := execRelease_next ht
  · rfl
  · exact release_bufRead hu h k

theorem execRecycleFetch_bufRead (ht : execRecycleFetch s = .next t) (h k : Nat) : t.bufRead h k = s.bufRead h k := by
  obtain ⟨-, ⟨e, -, rfl⟩ | ⟨r, u, hu, rfl⟩⟩ := execRecycleFetch_next ht
  · rfl
  · exact recycleFetch_bufRead hu h k

end

/-- Settles O55: of the instructions that write buffers (O54), all but the three named write their lengths
only. -/
theorem onlyFramesStoreBytes : Obligations.OnlyFramesStoreBytes := by
  intro i s t ht hframe hacquire hreset h k
  by_cases hbuf : t.buf = s.buf
  · exact State.bufRead_of_bufAt_eq (by simp only [State.bufAt, hbuf]) k
  obtain ⟨-, -, -, -, -, -, -, -, -, hwriters, -⟩ := fieldsHaveTheirWriters i s t ht
  rcases hwriters (.inl hbuf) with ⟨f, rfl⟩ | rfl | ⟨cap, rfl⟩ | rfl | rfl | ⟨g, rfl⟩ | rfl
  · exact absurd rfl (hframe f)
  · exact execGetLine_bufRead ht h k
  · exact execRead_bufRead (cap := cap) ht h k
  · exact absurd rfl hreset
  · exact absurd rfl hacquire
  · exact execRelease_bufRead (g := g) ht h k
  · exact execRecycleFetch_bufRead ht h k

/-! ### The histories (10 R31, R32) -/

section
variable {s t : State}

/-- 43 R165: an accepted frame is logged after the others. -/
theorem execTxAccept_txLog (ht : execTxAccept s = .next t) : s.txLog <+: t.txLog := by
  obtain ⟨-, src, cut, k, -, rfl⟩ := execTxAccept_next ht
  by_cases hlast : k + 1 = chunkCount s.cfg cut
  · rw [acceptChunk_last hlast]
    exact List.prefix_append ..
  · rw [acceptChunk_more hlast]
    exact List.prefix_append ..

/-- 43 R165: the last chunk accepted gives the response. -/
theorem execTxAccept_rspLog (ht : execTxAccept s = .next t) : s.rspLog <+: t.rspLog := by
  obtain ⟨-, src, cut, k, -, rfl⟩ := execTxAccept_next ht
  by_cases hlast : k + 1 = chunkCount s.cfg cut
  · rw [acceptChunk_last hlast]
    exact List.prefix_append ..
  · rw [acceptChunk_more hlast]

theorem execRxFrame_evLog {f : FrameRecord} (ht : execRxFrame f s = .next t) : s.evLog <+: t.evLog :=
  execRxFrame_relates (R := fun u v => u.evLog <+: v.evLog) List.prefix_rfl (fun _ => List.prefix_rfl)
    (fun _ => assembleFrame_evLog) ht

/-- 30 R75: a command answers at the end of the responses, or not at all. -/
theorem exec_foreground_rspLog {i : Instr} (hi : issuer i = .foreground) (ht : exec i s = .next t) :
    s.rspLog <+: t.rspLog := by
  cases i with
  | init =>
    obtain ⟨-, -, ⟨-, rfl⟩ | ⟨-, rfl⟩⟩ := execInit_next ht
    · rw [takeOutcome_frame]
      exact List.prefix_append ..
    · exact List.prefix_rfl
  | write count src =>
    obtain ⟨-, -, ⟨-, -, rfl⟩ | ⟨-, rfl⟩⟩ := execWrite_next (count := count) (src := src) ht
    · unfold startWrite
      split
      · exact List.prefix_append ..
      · exact List.prefix_rfl
    · exact List.prefix_rfl
  | getLine =>
    obtain ⟨e, rfl⟩ | ⟨r, u, w, hu, rfl⟩ := execGetLine_pool ht
    · exact List.prefix_rfl
    · rw [recycleFetch_frame hu]
      exact List.prefix_append ..
  | read cap =>
    obtain ⟨e, rfl⟩ | ⟨r, u, d, w, hu, -, rfl⟩ := execRead_pool (cap := cap) ht
    · exact List.prefix_rfl
    · rw [recycleFetch_frame hu]
      exact List.prefix_append ..
  | lineByte k =>
    obtain ⟨-, -, hok | ⟨e, rfl⟩⟩ := execLineByte_next (i := k) ht
    · obtain ⟨g, len, b, -, -, -, -, rfl⟩ := lineByte_ok hok
      exact List.prefix_append ..
    · exact List.prefix_rfl
  | illegalCmd op arg =>
    obtain ⟨-, -, rfl⟩ := execIllegalCmd_next (op := op) (arg := arg) ht
    exact List.prefix_rfl
  | rxFrame f => cases hi
  | txAccept => cases hi
  | reset => cases hi
  | acquire => cases hi
  | publish h => cases hi
  | release h => cases hi
  | takeReady => cases hi
  | recycleFetch => cases hi
  | arbReserved aop h => cases hi

/-- 10 R31, R32: each history is unchanged, or grows by its own writer (10 R43). -/
theorem exec_histories {i : Instr} (ht : exec i s = .next t) :
    s.txLog <+: t.txLog ∧ s.evLog <+: t.evLog ∧ s.rspLog <+: t.rspLog := by
  obtain ⟨-, -, -, -, htx, hev, -, -, -, -, hrsp, -⟩ := fieldsHaveTheirWriters i s t ht
  refine ⟨?_, ?_, ?_⟩
  · by_cases heq : t.txLog = s.txLog
    · exact heq ▸ List.prefix_rfl
    · obtain rfl := htx heq
      exact execTxAccept_txLog ht
  · by_cases heq : t.evLog = s.evLog
    · exact heq ▸ List.prefix_rfl
    · obtain ⟨f, rfl⟩ := hev heq
      exact execRxFrame_evLog (f := f) ht
  · by_cases heq : t.rspLog = s.rspLog
    · exact heq ▸ List.prefix_rfl
    · rcases hrsp heq with hi | rfl
      · exact exec_foreground_rspLog hi ht
      · exact execTxAccept_rspLog ht

end

/-- Settles O56: a step waits, or performs an instruction, and none of these writes a history but at its end. -/
theorem historiesOnlyGrow : Obligations.HistoriesOnlyGrow := by
  intro s t ht
  obtain ⟨-, -, rfl | ⟨x, left, -, hexec⟩⟩ := step_next ht
  · exact ⟨List.prefix_rfl, List.prefix_rfl, List.prefix_rfl⟩
  · exact exec_histories (s := { s with inputs := left }) hexec

end Sys2Proof.Machine

namespace Sys2Proof.Machine

open Sys2Proof

/-! ### The frame of a record (30 R80) -/

/-- 30 R80, 20 R57: of DATA a frame takes the first `DLC` bytes and nothing else. -/
theorem frameOf_withData {f : FrameRecord} {d : BitVec 64}
    (hd : ∀ i < f.dlc.toNat, d.extractLsb' (8 * i) 8 = f.data.extractLsb' (8 * i) 8) :
    frameOf { f with data := d } = frameOf f := by
  have hbytes : dataBytes d f.dlc.toNat = dataBytes f.data f.dlc.toNat :=
    List.map_congr_left fun i hi => hd i (List.mem_range.mp hi)
  simp only [frameOf, hbytes]

/-- 30 R81, 41 R129: RX_FRAME looks at the DATA of a record only through its frame. -/
theorem exec_rxFrame_withData {f : FrameRecord} {d : BitVec 64} (hd : frameOf { f with data := d } = frameOf f)
    (s : State) : exec (.rxFrame { f with data := d }) s = exec (.rxFrame f) s := by
  show execRxFrame { f with data := d } s = execRxFrame f s
  unfold execRxFrame
  rw [hd]
  rfl

/-- Settles O34: a frame holds the first `DLC` bytes of DATA, and RX_FRAME sees no more of DATA than the frame does. -/
theorem frameOfARecord : Obligations.FrameOfARecord := by
  refine ⟨fun f => ⟨rfl, rfl, rfl, length_frameOf f, fun i hi => getElem?_frameOf f hi⟩, fun f g s hfg hdata => ?_⟩
  have hdlc : f.dlc = g.dlc := by rw [hfg]
  have hframe : frameOf { g with data := f.data } = frameOf g := frameOf_withData (hdlc ▸ hdata)
  rw [hfg]
  exact exec_rxFrame_withData hframe s

/-! ### Bytes appended to the claimed buffer (41 R123 to R125) -/

/-- The state after bytes without a terminator were processed into buffer `h`: those that fit stand in the cells from
the cursor on. -/
def appendBytes (h : Nat) (bs : List Byte) (s : State) : State :=
  { s.modifyBuf h fun x => { x with data := Memory.writeMany x.data s.cursor (bs.take (s.cfg.c - s.cursor)) } with
    cursor := min s.cfg.c (s.cursor + bs.length) }

section
variable {s : State} {h : Nat}

theorem appendBytes_nil (hk : s.cursor ≤ s.cfg.c) : appendBytes h [] s = s := by
  have hid : (fun x : LineBuffer => { x with data := Memory.writeMany x.data s.cursor [] }) = id := rfl
  simp [appendBytes, State.modifyBuf, hid, hk]

/-- 41 R124, R125: the bytes of a frame are appended one after the other. -/
theorem appendBytes_cons (hk : s.cursor ≤ s.cfg.c) (b : Byte) (rest : List Byte) :
    appendBytes h (b :: rest) s = appendBytes h rest (appendByte h b s) := by
  rcases hk.lt_or_eq with hlt | hfull
  · have hroom : s.cfg.c - s.cursor = s.cfg.c - (s.cursor + 1) + 1 := by omega
    have hcursor : s.cursor + (rest.length + 1) = s.cursor + 1 + rest.length := by omega
    rw [appendByte_of_lt hlt]
    simp [appendBytes, State.modifyBuf, State.bufWrite, hroom, hcursor, List.modify_modify_eq, Function.comp_def,
      Memory.writeMany]
  · rw [appendByte_of_ge hfull.ge]
    simp [appendBytes, hfull]

/-- 41 R123 to R125: bytes without a terminator at the head of a frame. -/
theorem assemble_append_of_not_mem {bs : List Byte} (rest : List Byte) (hc : s.cur = some h)
    (hk : s.cursor ≤ s.cfg.c) (hbs : s.cfg.term ∉ bs) :
    assemble (bs ++ rest) s = assemble rest (appendBytes h bs s) := by
  induction bs generalizing s with
  | nil => rw [appendBytes_nil hk, List.nil_append]
  | cons b bs ih =>
    obtain ⟨hb, hbs⟩ := not_or.mp (mt List.mem_cons.mpr hbs)
    have hnext : (appendByte h b s).cursor ≤ (appendByte h b s).cfg.c := by
      rw [appendByte_cursor, appendByte_cfg]
      split <;> omega
    rw [List.cons_append, assemble_cons_some hc, storeByte_of_not_term (isTerm_eq_false.mpr (Ne.symm hb)),
      appendBytes_cons hk]
    exact ih (appendByte_cur.trans hc) hnext (by rwa [appendByte_cfg])

/-- 41 R124: a byte that fits stands as many cells past the cursor as there were bytes before it. -/
theorem bufRead_appendBytes {bs : List Byte} {i : Nat} (hlt : h < s.buf.length) (hi : i < bs.length)
    (hroom : s.cursor + i < s.cfg.c) : (appendBytes h bs s).bufRead h (s.cursor + i) = bs[i]? := by
  have hwritten : s.cursor ≤ s.cursor + i ∧ s.cursor + i < s.cursor + (bs.take (s.cfg.c - s.cursor)).length := by
    rw [List.length_take]
    omega
  show Memory.read ((s.modifyBuf h _).bufAt h).data (s.cursor + i) = bs[i]?
  rw [s.bufAt_modifyBuf_self _ hlt, Memory.read_writeMany, if_pos hwritten, Nat.add_sub_cancel_left,
    List.getElem?_take_of_lt (by omega)]

/-- 41 R122, R129: a passing frame with a buffer claimed goes to the assembler as it is. -/
theorem exec_rxFrame_of_claimed {f : FrameRecord} (hf : s.fault = none) (hp : s.phase = .running)
    (hok : recordOk s.cfg f = true) (hpass : passesFilter s.cfg (frameOf f) = true) (hc : s.cur = some h) :
    exec (.rxFrame f) s = complete s (assemble (frameOf f).data s) := by
  show whenEnabled .interrupt s _ = _
  rw [whenEnabled_of_enabled (State.enabled_interrupt.mpr ⟨hf, hp⟩), if_pos hok, if_pos hpass, assembleFrame, hc]

end

/-- Settles O38: the bytes of the frame are appended to the claimed buffer, and byte `i` of the frame is bits
`[8i+7:8i]` of DATA. -/
theorem bytesAppendedOrDropped : Obligations.BytesAppendedOrDropped := by
  intro s f h hf hp hok hpass hc hk hterm
  have hrun : exec (.rxFrame f) s = .next (appendBytes h (frameOf f).data s) := by
    rw [exec_rxFrame_of_claimed hf hp hok hpass hc, ← List.append_nil (frameOf f).data,
      assemble_append_of_not_mem [] hc hk hterm, List.append_nil, assemble_nil, complete_ok]
  refine ⟨_, hrun, ?_, fun hlt i hi hroom => ?_⟩
  · rw [appendBytes, length_frameOf]
    rfl
  · rw [bufRead_appendBytes hlt (by rwa [length_frameOf]) hroom, getElem?_frameOf f hi]

/-! ### RECYCLE_FETCH in a state that keeps the invariant (40 R105) -/

/-- The state after the deferred recycling of a buffer that may be released: the buffer checked out, if any, goes to
the tail of AvailableQueue, its length invalidated. -/
def State.recycled (s : State) : State :=
  { s with
    out := none
    availQ := s.availQ ++ s.out.toList
    buf := match s.out with
      | some h0 => s.buf.modify h0 fun x => { x with len := none }
      | none => s.buf }

section
variable {s u : State} {h : Nat}

theorem State.recycled_of_none (ho : s.out = none) : s.recycled = s := by
  cases s
  cases ho
  simp [State.recycled]

theorem State.recycled_of_some (ho : s.out = some h) :
    s.recycled = { s.setLen h none with availQ := s.availQ ++ [h], out := none } := by
  simp [State.recycled, ho, State.setLen, State.modifyBuf]

/-- 10 R36: the buffer checked out is nowhere else, so it may be released (40 R107). -/
theorem BlockInv.out_apart (hs : BlockInv s) (ho : s.out = some h) :
    h < s.cfg.n ∧ h ∉ s.availQ ∧ h ∉ s.readyQ ∧ s.cur ≠ some h := by
  have hnd := hs.nodup
  rw [State.members, ho, Option.toList_some, List.nodup_append_comm] at hnd
  have hapart := (List.nodup_cons.mp hnd).1
  refine ⟨hs.lt_of_mem_members (by simp [State.members, ho]), ?_⟩
  simpa [and_assoc] using hapart

/-- 40 R105, R107: under the invariant the deferred recycling is no misuse. -/
theorem BlockInv.recycle_eq (hs : BlockInv s) : recycle s = .ok s.recycled := by
  cases ho : s.out with
  | none => exact recycle_ok_iff.mpr (.inl ⟨ho, State.recycled_of_none ho⟩)
  | some h0 => exact recycle_ok_iff.mpr (.inr ⟨h0, ho, hs.out_apart ho, State.recycled_of_some ho⟩)

/-- 40 R105: RECYCLE_FETCH with no line ready. -/
theorem BlockInv.recycleFetch_of_nil (hs : BlockInv s) (hq : s.readyQ = []) :
    recycleFetch s = .ok (none, s.recycled) :=
  recycleFetch_ok_iff.mpr ⟨_, hs.recycle_eq, .inl ⟨hq, rfl, rfl⟩⟩

/-- 40 R105: RECYCLE_FETCH takes the oldest ready line. -/
theorem BlockInv.recycleFetch_of_cons {rest : List Nat} (hs : BlockInv s) (hq : s.readyQ = h :: rest) :
    recycleFetch s = .ok (some h, { s.recycled with readyQ := rest, out := some h }) :=
  recycleFetch_ok_iff.mpr ⟨_, hs.recycle_eq, .inr ⟨h, rest, hq, rfl, rfl⟩⟩

/-- 10 R36: the recycling leaves the ready lines alone. -/
theorem BlockInv.bufAt_recycled (hs : BlockInv s) (hm : h ∈ s.readyQ) : s.recycled.bufAt h = s.bufAt h := by
  cases ho : s.out with
  | none => rw [State.recycled_of_none ho]
  | some h0 =>
    obtain ⟨-, -, hready, -⟩ := hs.out_apart ho
    have hne : h0 ≠ h := by
      rintro rfl
      exact hready hm
    rw [State.recycled_of_some ho]
    exact s.bufAt_setLen_ne none hne

/-! ### READ (42 R142) -/

/-- 44 R187: outside Running a command behind the phase gate faults. -/
theorem whenRunning_of_not_running {k : Host.Outcome State Fault Refusal} (hp : s.phase ≠ .running) :
    whenRunning s k = .next (s.mark .notRunning) := if_neg hp

/-- 43 R170: with no write in progress and no mark, READ comes to the phase gate. -/
theorem exec_read_of_idle (cap : BitVec 28) (hf : s.fault = none) (htx : s.tx = .idle) :
    exec (.read cap) s = whenRunning s (complete s (readLine cap.toNat s)) :=
  whenEnabled_of_enabled (State.enabled_foreground.mpr ⟨hf, htx⟩)

/-- 42 R142: READ with no line. -/
theorem readLine_of_none {cap : Nat} (hr : recycleFetch s = .ok (none, u)) :
    readLine cap s = .ok (u.respond rspReadNone) := by
  simp [readLine, hr]

/-- 42 R142: READ of a line whose first bytes, as many as it copies, are written. -/
theorem readLine_of_some {cap len : Nat} {bs : List Byte} (hr : recycleFetch s = .ok (some h, u))
    (hl : u.lenAt h = some len) (hbs : Memory.readMany (u.bufAt h).data 0 (min len cap) = some bs) :
    readLine cap s = .ok (State.respond { u with dst := Memory.writeMany u.dst 0 bs } (rspRead (min len cap))) := by
  simp [readLine, hr, hl, copyOut, hbs]

end

/-- The first bytes of a run that reads. -/
theorem Memory.readMany_take {m : Memory} {a k n : Nat} {bs : List Byte} (h : Memory.readMany m a n = some bs)
    (hk : k ≤ n) : Memory.readMany m a k = some (bs.take k) := by
  rw [Memory.readMany_eq_some_iff] at h ⊢
  obtain ⟨hlen, hread⟩ := h
  refine ⟨by rw [List.length_take]; omega, fun j hj => ?_⟩
  rw [hread j (by omega), List.getElem?_take_of_lt hj]

/-- 20 R55: a run copied to the start of a store: its bytes there, the others unchanged. -/
theorem Memory.read_writeMany_readMany {m d : Memory} {n : Nat} {bs : List Byte}
    (h : Memory.readMany m 0 n = some bs) :
    (∀ j < n, Memory.read (Memory.writeMany d 0 bs) j = Memory.read m j ∧ Memory.read m j ≠ none) ∧
      ∀ j, n ≤ j → Memory.read (Memory.writeMany d 0 bs) j = Memory.read d j := by
  obtain ⟨rfl, hread⟩ := (Memory.readMany_eq_some_iff ..).mp h
  refine ⟨fun j hj => ?_, fun j hj => ?_⟩
  · have hbyte : Memory.read m j = bs[j]? := by simpa using hread j hj
    rw [Memory.read_writeMany, if_pos (by omega), hbyte]
    simp [hj]
  · rw [Memory.read_writeMany, if_neg (by omega)]

/-- Settles O48: under the invariant RECYCLE_FETCH succeeds, and the line it takes has a length and all its bytes. -/
theorem readCommand : Obligations.ReadCommand := by
  intro s cap hs
  refine ⟨fun t ht => ?_, fun hf htx => ⟨fun hp => ?_, fun hp => ⟨fun hq => ?_, fun h rest hq => ?_⟩⟩⟩
  · obtain ⟨hf, htx, -⟩ := execRead_next (cap := cap) ht
    exact ⟨hf, htx⟩
  · rw [exec_read_of_idle cap hf htx, whenRunning_of_not_running hp]
    rfl
  · rw [exec_read_of_idle cap hf htx, whenRunning_of_running hp, readLine_of_none (hs.recycleFetch_of_nil hq),
      rspReadNone_eq]
    rfl
  · have hm : h ∈ s.readyQ := hq ▸ List.mem_cons_self ..
    obtain ⟨len, bs, hlen, -, -, hcells, -⟩ := State.lineOk_iff.mp (hs.ready h hm)
    have hcopied : Memory.readMany (s.bufAt h).data 0 (min len cap.toNat) = some (bs.take (min len cap.toNat)) :=
      Memory.readMany_take hcells (Nat.min_le_left ..)
    have hbuf := hs.bufAt_recycled hm
    have hread := readLine_of_some (hs.recycleFetch_of_cons hq) ((congrArg LineBuffer.len hbuf).trans hlen)
      ((congrArg (fun x : LineBuffer => Memory.readMany x.data 0 (min len cap.toNat)) hbuf).trans hcopied)
    obtain ⟨hfirst, hothers⟩ := Memory.read_writeMany_readMany (d := s.dst) hcopied
    refine ⟨len, _, hlen, ?_, hfirst, hothers⟩
    rw [exec_read_of_idle cap hf htx, whenRunning_of_running hp, hread, rspRead_eq]
    rfl

end Sys2Proof.Machine

namespace Sys2Proof.Machine

open Sys2Proof

/-! ### Words and the instructions they stand for (30 R71 to R74, R80, R84, R85) -/

section
variable {op : BitVec 4} {arg : BitVec 28} {src : List Byte} {aop : BitVec 3} {h : BitVec 13}

/-- 30 R72: every command word has its two fields. -/
theorem exists_cmdWord (w : BitVec 32) : ∃ op arg, w = cmdWord op arg :=
  ⟨w.extractLsb' 28 4, w.extractLsb' 0 28, (append_extract (m := 4) (n := 28) w).symm⟩

/-- 30 R84: every request word has its two fields. -/
theorem exists_arbWord (w : BitVec 16) : ∃ aop h, w = arbWord aop h :=
  ⟨w.extractLsb' 13 3, w.extractLsb' 0 13, (append_extract (m := 3) (n := 13) w).symm⟩

/-- 30 R89, 44 R189: a reserved command word decodes to itself as an illegal one. -/
theorem decode_cmdInput_of_reserved (hr : reservedCmd op arg = true) :
    decode (cmdInput op arg src) = .illegalCmd op arg := by
  rw [decode_cmdInput]
  split <;> simp_all [reservedCmd]

/-- 30 R89, 40 R106: a reserved request word decodes to itself as a reserved one. -/
theorem decode_arbWord_of_reserved (hr : reservedArb aop h = true) :
    decode (.arb (arbWord aop h)) = .arbReserved aop h := by
  rw [decode_arbWord]
  split <;> simp_all [reservedArb]

/-- 30 R77, R90: a WRITE word with its bytes behind it. -/
theorem decode_cmdInput_write (hl : src.length = arg.toNat) : decode (cmdInput 2 arg src) = .write arg src := by
  rw [decode_cmdInput, List.take_of_length_le hl.le]
  rfl

/-- 30 R73, R89: the command words that are not reserved. -/
theorem reservedCmd_eq_false_iff :
    reservedCmd op arg = false ↔ (op = 1 ∧ arg = 0) ∨ op = 2 ∨ (op = 3 ∧ arg = 0) ∨ op = 4 ∨ op = 5 := by
  simp only [reservedCmd, ← BitVec.toNat_inj (x := op)]
  split <;> simp_all

/-- 30 R85, R89: the request words that are not reserved. -/
theorem reservedArb_eq_false_iff :
    reservedArb aop h = false ↔
      (aop = 0 ∧ h = 0) ∨ aop = 1 ∨ aop = 2 ∨ (aop = 3 ∧ h = 0) ∨ (aop = 4 ∧ h = 0) := by
  simp only [reservedArb, ← BitVec.toNat_inj (x := aop)]
  split <;> simp_all

/-- 30 R72: a command word is written again from what it decodes to, whatever bytes are behind it. -/
theorem encode_decode_cmdInput (op : BitVec 4) (arg : BitVec 28) (src : List Byte) :
    ∃ bs, encode (decode (cmdInput op arg src)) = cmdInput op arg bs := by
  cases hr : reservedCmd op arg with
  | true => exact ⟨[], by rw [decode_cmdInput_of_reserved hr]; rfl⟩
  | false =>
    rw [decode_cmdInput]
    obtain ⟨rfl, rfl⟩ | rfl | ⟨rfl, rfl⟩ | rfl | rfl := reservedCmd_eq_false_iff.mp hr
    all_goals exact ⟨_, rfl⟩

/-- 30 R84: a request word is written again from what it decodes to. -/
theorem encode_decode_arbWord (aop : BitVec 3) (h : BitVec 13) :
    encode (decode (.arb (arbWord aop h))) = .arb (arbWord aop h) := by
  cases hr : reservedArb aop h with
  | true => rw [decode_arbWord_of_reserved hr]; rfl
  | false =>
    rw [decode_arbWord]
    obtain ⟨rfl, rfl⟩ | rfl | rfl | ⟨rfl, rfl⟩ | ⟨rfl, rfl⟩ := reservedArb_eq_false_iff.mp hr
    all_goals rfl

/-- 30 R80: a frame record is written again from what it decodes to. -/
theorem encode_decode_rx (fh : BitVec 32) (dlc : BitVec 4) (data : BitVec 64) :
    encode (decode (.port { sel := 1, fh := fh, dlc := dlc, data := data })) =
      .port { sel := 1, fh := fh, dlc := dlc, data := data } :=
  congrArg (fun w => Input.port { sel := 1, fh := w, dlc := dlc, data := data }) (frameHeader_decodeFrame fh)

end

/-- Settles O2: the operands of an instruction are the fields of its words, and a reserved word is no other
instruction's. -/
theorem decodeOfEncodeIsTheInstruction : Obligations.DecodeOfEncodeIsTheInstruction := by
  intro i hi
  cases i with
  | init => rfl
  | write count src => exact decode_cmdInput_write (of_decide_eq_true hi)
  | getLine => rfl
  | read cap => exact decode_cmdInput 4 cap []
  | lineByte i => exact decode_cmdInput 5 i []
  | illegalCmd op arg => exact decode_cmdInput_of_reserved hi
  | rxFrame f => exact congrArg Instr.rxFrame (decodeFrame_frameHeader ..)
  | txAccept => rfl
  | reset => rfl
  | acquire => rfl
  | publish h => exact decode_arbWord 1 h
  | release h => exact decode_arbWord 2 h
  | takeReady => rfl
  | recycleFetch => rfl
  | arbReserved aop h => exact decode_arbWord_of_reserved hi

/-- Settles O3: a word is an instruction's own or reserved, and either way its fields are written again; a record's
header is put together from the fields it was read as. -/
theorem encodeOfDecodeKeepsEveryBit : Obligations.EncodeOfDecodeKeepsEveryBit := by
  refine ⟨fun w src => ?_, fun fh dlc data => ?_, fun w => ?_⟩
  · obtain ⟨op, arg, rfl⟩ := exists_cmdWord w
    exact encode_decode_cmdInput op arg src
  · exact encode_decode_rx fh dlc data
  · obtain ⟨aop, h, rfl⟩ := exists_arbWord w
    exact encode_decode_arbWord aop h

/-- Settles O1: the decoder evaluated on each word. -/
theorem specWordsDecode : Obligations.SpecWordsDecode := by
  unfold Obligations.SpecWordsDecode
  decide

/-- Settles O4: the word is taken apart into its fields, and the decoder's cases are those of the statement. -/
theorem commandDecoderOnEveryWord : Obligations.CommandDecoderOnEveryWord := by
  intro w src
  obtain ⟨op, arg, rfl⟩ := exists_cmdWord w
  dsimp only
  rw [← toNat_op, cmdWord, extract_high_append, extract_low_append]
  refine (decode_cmdInput op arg src).trans ?_
  split
  case h_6 h1 h2 h3 h4 h5 =>
    rw [if_neg (fun h => h1 h.1), if_neg h2, if_neg (fun h => h3 h.1), if_neg h4, if_neg h5]
  all_goals simp [*]

/-- Settles O5: the word is taken apart into its fields, and the decoder's cases are those of the statement. -/
theorem arbiterDecoderOnEveryWord : Obligations.ArbiterDecoderOnEveryWord := by
  intro w
  obtain ⟨aop, h, rfl⟩ := exists_arbWord w
  dsimp only
  rw [decode_arbWord, ← toNat_aop, arbWord, extract_high_append, extract_low_append]
  split
  case h_6 h0 h1 h2 h3 h4 =>
    rw [if_neg (fun hc => h0 hc.1), if_neg h1, if_neg h2, if_neg (fun hc => h3 hc.1), if_neg (fun hc => h4 hc.1)]
  all_goals simp [*]

/-! ### Frames on offer and their records (30 R80, R82, 43 R162 to R164) -/

/-- 43 R162: byte `i` of chunk `k` is byte `k * P + i` of the source, and it stands before the cut. -/
theorem getElem?_chunk {g : Config} {src : List Byte} {cut k i : Nat} (hi : i < (chunk g src cut k).length) :
    (chunk g src cut k)[i]? = src[k * g.p + i]? ∧ k * g.p + i < cut := by
  have hlt : k * g.p + i < min ((k + 1) * g.p) cut := by
    simp only [chunk, sublist, List.length_drop, List.length_take] at hi
    omega
  refine ⟨?_, by omega⟩
  rw [chunk, sublist, List.getElem?_drop, List.getElem?_take_of_lt hlt]

/-- 43 R162: a chunk of the cut holds a byte, and no more than `P`. -/
theorem chunk_length_bounds {g : Config} {src : List Byte} {cut k : Nat} (hp : 1 ≤ g.p) (hc : cut ≤ src.length)
    (hk : k < chunkCount g cut) : 1 ≤ (chunk g src cut k).length ∧ (chunk g src cut k).length ≤ g.p := by
  have hfirst : k * g.p < cut := (lt_ceilDiv_iff hp).mp hk
  rw [chunk_length g src cut k hc, Nat.add_one_mul]
  omega

/-- 30 R80: the header of a record written from its fields. -/
theorem frameHeader_fields (rsv ide rtr : Bool) (id : BitVec 29) :
    let fh := frameHeader rsv ide rtr id
    fh.extractLsb' 0 29 = id ∧ fh.getLsbD 29 = rtr ∧ fh.getLsbD 30 = ide ∧ fh.getLsbD 31 = rsv := by
  have hread := decodeFrame_frameHeader rsv ide rtr id 0 0
  simp only [decodeFrame, FrameRecord.mk.injEq] at hread
  obtain ⟨hrsv, hide, hrtr, hid, -⟩ := hread
  exact ⟨hid, hrtr, hide, hrsv⟩

/-- 30 R80: past the last byte the DATA word is 0, also past its own end. -/
theorem extract_dataWord_of_le {bs : List Byte} {i : Nat} (hi : bs.length ≤ i) :
    (dataWord bs).extractLsb' (8 * i) 8 = 0#8 := by
  by_cases h8 : i < 8
  · rw [extract_dataWord bs h8, List.getElem?_eq_none hi]
    rfl
  · apply BitVec.eq_of_getLsbD_eq
    intro j hj
    rw [BitVec.getLsbD_extractLsb', BitVec.getLsbD_of_ge _ _ (by omega)]
    simp

/-- 30 R80: the bytes of a frame in its record's DATA word. -/
theorem getElem?_eq_extract_dataWord {bs : List Byte} {i : Nat} (hi : i < bs.length) (hlen : bs.length ≤ 8) :
    bs[i]? = some ((dataWord bs).extractLsb' (8 * i) 8) := by
  rw [extract_dataWord bs (by omega), List.getElem?_eq_getElem hi]
  rfl

/-- 30 R80: DLC counts the bytes of a frame. -/
theorem toNat_recordOf_dlc {f : Frame} (hlen : f.data.length ≤ 8) : (recordOf f).dlc.toNat = f.data.length :=
  Nat.mod_eq_of_lt (by omega)

/-- 43 R164: while Busy the chunk whose index the chunker holds is on offer. -/
theorem offered_of_busy {s : State} {src : List Byte} {cut k : Nat} (htx : s.tx = .busy src cut k) :
    offered s = some (chunkFrame s.cfg src cut k) := by
  rw [offered, htx]

/-- 10 R30: what the invariant says of a write in progress. -/
theorem BlockInv.busy {s : State} {src : List Byte} {cut k : Nat} (hs : BlockInv s) (htx : s.tx = .busy src cut k) :
    cut = eosCut s.cfg.eos src ∧ k < chunkCount s.cfg cut := by
  simpa [txOk, htx] using hs.chunker

/-- Settles O24: the invariant puts the chunk on offer before the cut and bounds it by `P`, at most 8 bytes, so its
record holds all of it. -/
theorem offeredFrames : Obligations.OfferedFrames := by
  intro s hs
  refine ⟨fun htx => by rw [offered, htx], fun src cut k htx => ?_⟩
  obtain ⟨hcut, hk⟩ := hs.busy htx
  obtain ⟨-, -, -, hp1, hp8, -⟩ := Config.bounds_of_valid hs.config
  obtain ⟨hlo, hhi⟩ := chunk_length_bounds hp1 (hcut ▸ eosCut_le ..) hk
  have hlen := hhi.trans hp8
  obtain ⟨hid, hrtr, hide, hrsv⟩ := frameHeader_fields false (txExt s.cfg) false s.cfg.txId
  exact ⟨chunkFrame s.cfg src cut k, offered_of_busy htx, rfl, rfl, rfl, hlo, hhi, fun i hi => getElem?_chunk hi,
    hid, hrtr, hide, hrsv, toNat_recordOf_dlc hlen, fun i hi => getElem?_eq_extract_dataWord hi hlen,
    fun i hi => extract_dataWord_of_le hi⟩

/-! ### Inputs without a step (43 R165, R170, 44 R188, 30 R77) -/

section
variable {s : State} {a : Agent}

/-- Without a mark the gate of an agent that has no step is shut. -/
theorem whenEnabled_of_disabled {k : Host.Outcome State Fault Refusal} (hf : s.fault = none)
    (he : s.enabled a = false) : whenEnabled a s k = .fault (.notEnabled a) := by
  simp [whenEnabled, hf, he]

/-- An instruction whose issuer has no step has none. -/
theorem exec_of_disabled {i : Instr} (hf : s.fault = none) (he : s.enabled (issuer i) = false) :
    exec i s = .fault (.notEnabled (issuer i)) := by
  obtain ⟨k, hk⟩ := exec_gated i s
  rw [hk, whenEnabled_of_disabled hf he]

/-- 30 R77: in Running a WRITE with another number of bytes than its count has no step, whether the foreground is free
or not. -/
theorem exec_write_of_length_ne {count : BitVec 28} {src : List Byte} (hf : s.fault = none) (hp : s.phase = .running)
    (hl : src.length ≠ count.toNat) : exec (.write count src) s = .fault (.notEnabled .foreground) := by
  cases he : s.enabled .foreground with
  | false => exact exec_of_disabled (i := .write count src) hf he
  | true =>
    show execWrite count src s = _
    rw [execWrite, whenEnabled_of_enabled he, whenRunning_of_running hp, if_neg hl]

end

/-- Settles O10: every meaning stands behind its issuer's gate, and a WRITE in Running asks for its bytes behind it. -/
theorem disabledInputsHaveNoStep : Obligations.DisabledInputsHaveNoStep := by
  rintro s i hf (⟨hi, htx⟩ | ⟨hi, hp⟩ | ⟨hi, htx⟩ | ⟨hp, count, src, rfl, hl⟩)
  · exact exec_of_disabled hf (Bool.eq_false_iff.mpr fun he => htx (State.enabled_foreground.mp (hi ▸ he)).2)
  · exact exec_of_disabled hf (Bool.eq_false_iff.mpr fun he => hp (State.enabled_interrupt.mp (hi ▸ he)).2)
  · exact exec_of_disabled hf (Bool.eq_false_iff.mpr fun he => by
      obtain ⟨-, src, cut, k, hbusy⟩ := State.enabled_transport.mp (hi ▸ he)
      rw [htx] at hbusy
      cases hbusy)
  · exact exec_write_of_length_ne hf hp hl

/-! ### A table word run next (log entry 17) -/

section
variable {s : State} {a : Agent}

@[simp] theorem State.readyFor_cfg : (s.readyFor a).cfg = s.cfg := by
  unfold State.readyFor
  split
  · rfl
  · cases a <;> rfl

@[simp] theorem State.readyFor_inputs : (s.readyFor a).inputs = s.inputs := by
  unfold State.readyFor
  split
  · rfl
  · cases a <;> rfl

/-- Made ready for an agent, a state has a step for its inputs. -/
theorem State.enabled_readyFor : (s.readyFor a).enabled a = true := by
  unfold State.readyFor
  split
  · assumption
  · cases a with
    | transport => cases htx : s.tx <;> simp [State.enabled, TxState.isIdle]
    | foreground => rfl
    | interrupt => rfl
    | platform => rfl
    | unit => rfl

end

/-- 30 R77: what the foreground does not issue has arrived with its word. -/
theorem sourceArrived_of_issuer_ne {i : Instr} (h : issuer i ≠ .foreground) : sourceArrived i = true := by
  cases i with
  | write count src => exact absurd rfl h
  | _ => rfl

/-- 30 R77: a command has arrived when, for a WRITE, `ARG` bytes are behind its word. -/
theorem sourceArrived_cmd {w : BitVec 32} {src : List Byte}
    (h : w.toNat / 2 ^ 28 = 2 → (w.extractLsb' 0 28).toNat ≤ src.length) :
    sourceArrived (decode (.port { sel := 0#2, cmd := w, src := src })) = true := by
  rw [commandDecoderOnEveryWord w src]
  split_ifs with _ hop
  · rfl
  · simpa [sourceArrived] using h hop
  all_goals rfl

/-- 30 R77: a selector alone, every payload line zero, is a whole input. -/
theorem sourceArrived_selector : ∀ sel : BitVec 2, sourceArrived (decode (.port { sel := sel })) = true := by
  decide

/-- Log entry 17: a table word is an input with everything that belongs to it. -/
theorem sourceArrived_tableWord {nbits w : Nat} {x : Input} (hx : inputOfTableWord nbits w = some x) :
    sourceArrived (decode x) = true := by
  unfold inputOfTableWord at hx
  split at hx
  · split at hx
    · next hw =>
      obtain rfl := Option.some.inj hx
      refine sourceArrived_cmd fun hop => ?_
      rw [BitVec.toNat_ofNat, Nat.mod_eq_of_lt hw] at hop
      rw [if_pos hop, List.length_replicate, BitVec.extractLsb'_toNat, BitVec.toNat_ofNat, Nat.mod_eq_of_lt hw]
      rfl
    · cases hx
  · split at hx
    · obtain rfl := Option.some.inj hx
      exact sourceArrived_of_issuer_ne (ne_of_eq_of_ne (issuer_decodeArb _) (by decide))
    · cases hx
  · split at hx
    · obtain rfl := Option.some.inj hx
      exact sourceArrived_selector _
    · cases hx
  · split at hx
    · obtain rfl := Option.some.inj hx
      exact sourceArrived_selector _
    · cases hx
  · cases hx

/-- 60 R211: an input with a step, placed before all others, is the one the next step performs. -/
theorem step_of_ready_cons {s : State} {x : Input} {left : List Input} (hv : s.cfg.valid = true)
    (hx : s.ready x = true) : step { s with inputs := x :: left } = exec (decode x) { s with inputs := left } :=
  step_of_nextInput (s := { s with inputs := x :: left }) hv (State.fault_of_enabled (State.enabled_of_ready hx))
    (nextInput_cons hx List.not_mem_nil)

/-- Settles O12: the state made ready has a step for the word's agent, and the word brings its bytes, so the input
placed in front is performed; making ready changes neither the configuration nor the waiting inputs. -/
theorem fetchWordIsRunNext : Obligations.FetchWordIsRunNext := by
  intro s nbits w x hv hx
  refine ⟨by rw [decodeTableWord, hx], ?_⟩
  have hready : (s.readyFor x.agent).ready x = true := by
    rw [State.ready, State.enabled_readyFor, sourceArrived_tableWord hx, Bool.or_true, Bool.and_true]
  have hvalid : (s.readyFor x.agent).cfg.valid = true := by rwa [State.readyFor_cfg]
  have hsame : { s.readyFor x.agent with inputs := s.inputs } = s.readyFor x.agent := by
    rw [← State.readyFor_inputs (s := s) (a := x.agent)]
  rw [State.withFetchWord, hx]
  exact (step_of_ready_cons hvalid hready).trans (congrArg (exec (decode x)) hsame)

/-! ### Malformed records (30 R81) -/

/-- 30 R81: the records that a transport cannot deliver. -/
theorem recordOk_iff_not_malformed {g : Config} (hg : g.rxMax = 8) (f : FrameRecord) :
    recordOk g f = true ↔ ¬(f.rsv = true ∨ 8 < f.dlc.toNat ∨ (f.ide = false ∧ 0x7FF < f.id.toNat)) := by
  rw [recordOk_iff hg]
  simp [imp_iff_not_or]

/-- 30 R81, 60 R211: well-formedness is asked before the filter. -/
theorem exec_rxFrame_of_malformed {s : State} {f : FrameRecord} (hf : s.fault = none) (hp : s.phase = .running)
    (hm : ¬recordOk s.cfg f = true) : exec (.rxFrame f) s = .next (s.mark .malformedFrame) := by
  show execRxFrame f s = _
  rw [execRxFrame, whenEnabled_of_enabled (State.enabled_interrupt.mpr ⟨hf, hp⟩), if_neg hm]
  rfl

/-- Settles O33: `recordOk` admits exactly the other records, and RX_FRAME asks it first. -/
theorem malformedRecordsFault : Obligations.MalformedRecordsFault := by
  intro s f hv
  obtain ⟨-, -, -, -, -, hmax⟩ := Config.bounds_of_valid hv
  have hiff := recordOk_iff_not_malformed hmax f
  exact ⟨hiff, fun hf hp hbad => exec_rxFrame_of_malformed hf hp fun hok => hiff.mp hok hbad⟩

end Sys2Proof.Machine

namespace Sys2Proof.Machine

open Sys2Proof

/-! ### The requests of the arbiter that have a meaning (40 R101 to R105): what each operation gives -/

section
variable {s : State} {h : Nat}

/-- 40 R106, R107: a RELEASE that would break I1. -/
theorem release_of_misuse (hm : s.cfg.n ≤ h ∨ h ∈ s.availQ ∨ h ∈ s.readyQ ∨ s.cur = some h) :
    release h s = .error .arbiterMisuse := if_pos hm

/-- 40 R106, R107: a PUBLISH of a buffer that is not claimed or has no length. -/
theorem publish_of_misuse (hm : s.cfg.n ≤ h ∨ s.cur ≠ some h ∨ s.lenAt h = none) :
    publish h s = .error .arbiterMisuse := if_pos hm

/-- 40 R101: the length field is no part of what ACQUIRE clears. -/
@[simp] theorem State.lenAt_clearData (s : State) (h g : Nat) : (s.clearData h).lenAt g = s.lenAt g := by
  rw [State.lenAt, s.bufAt_clearData]
  split <;> rfl

/-- 40 R101: ACQUIRE leaves the cells of its buffer unwritten, and those of the others as they are. -/
theorem State.bufRead_clearData (s : State) (h g i : Nat) :
    (s.clearData h).bufRead g i = if h = g then none else s.bufRead g i := by
  rw [State.bufRead, s.bufAt_clearData]
  split <;> rfl

/-- 40 R102: RELEASE takes the length of its buffer away, and leaves the lengths of the others. -/
theorem State.lenAt_setLen_none (s : State) (h g : Nat) :
    (s.setLen h none).lenAt g = if h = g then none else s.lenAt g := by
  rw [State.lenAt, s.bufAt_setLen_none]
  split <;> rfl

/-- 40 R102, R105: the recycling takes the length of the buffer checked out away, and no other. -/
theorem State.lenAt_recycled (s : State) (g : Nat) :
    s.recycled.lenAt g = if s.out = some g then none else s.lenAt g := by
  cases ho : s.out with
  | none => rw [State.recycled_of_none ho, if_neg (Option.some_ne_none g).symm]
  | some h0 =>
    rw [State.recycled_of_some ho]
    simp only [Option.some.injEq]
    exact s.lenAt_setLen_none h0 g

/-- 40 R102, 92 D34: the recycling leaves the bytes. -/
@[simp] theorem State.bufRead_recycled (s : State) (g i : Nat) : s.recycled.bufRead g i = s.bufRead g i := by
  cases ho : s.out with
  | none => rw [State.recycled_of_none ho]
  | some h0 =>
    rw [State.recycled_of_some ho]
    exact s.bufRead_setLen h0 none g i

/-- 40 R105: when the buffer checked out, if any, may be released, RECYCLE_FETCH releases it, and what stands first in
ReadyQueue, if anything, is checked out next. -/
theorem recycleFetch_of_out_apart
    (hout : ∀ h0, s.out = some h0 → h0 < s.cfg.n ∧ h0 ∉ s.availQ ∧ h0 ∉ s.readyQ ∧ s.cur ≠ some h0) :
    recycleFetch s =
      .ok (s.readyQ.head?, { s.recycled with out := s.readyQ.head?, readyQ := s.readyQ.tail }) := by
  have hrecycle : recycle s = .ok s.recycled := by
    cases ho : s.out with
    | none => exact recycle_ok_iff.mpr (.inl ⟨ho, State.recycled_of_none ho⟩)
    | some h0 => exact recycle_ok_iff.mpr (.inr ⟨h0, ho, hout h0 ho, State.recycled_of_some ho⟩)
  refine recycleFetch_ok_iff.mpr ⟨_, hrecycle, ?_⟩
  cases hq : s.readyQ with
  | nil => exact .inl ⟨hq, rfl, by rw [List.head?_nil, List.tail_nil, ← hq]; rfl⟩
  | cons h rest => exact .inr ⟨h, rest, hq, rfl, rfl⟩

/-! ### The requests on the arbiter's own line (30 R84 to R87) -/

/-- 60 R205: a request has a step wherever no mark is set. -/
theorem whenEnabled_unit {k : Host.Outcome State Fault Refusal} (hf : s.fault = none) : whenEnabled .unit s k = k :=
  whenEnabled_of_enabled (State.enabled_unit.mpr hf)

theorem exec_acquire_of_nil (hf : s.fault = none) (hq : s.availQ = []) :
    exec .acquire s = .next (s.reply (arbReplyHandle none)) := by
  show whenEnabled .unit s _ = _
  rw [whenEnabled_unit hf, acquire_none_iff.mpr hq]

theorem exec_acquire_of_cons {rest : List Nat} (hf : s.fault = none) (hq : s.availQ = h :: rest) :
    exec .acquire s =
      .next ((State.clearData { s with availQ := rest } h).reply (arbReplyHandle (some h))) := by
  show whenEnabled .unit s _ = _
  rw [whenEnabled_unit hf, acquire_some_iff.mpr ⟨rest, hq, rfl⟩]

theorem exec_takeReady_of_nil (hf : s.fault = none) (hq : s.readyQ = []) :
    exec .takeReady s = .next (s.reply (arbReplyHandle none)) := by
  show whenEnabled .unit s _ = _
  rw [whenEnabled_unit hf, takeReady_none_iff.mpr hq]

theorem exec_takeReady_of_cons {rest : List Nat} (hf : s.fault = none) (hq : s.readyQ = h :: rest) :
    exec .takeReady s = .next (State.reply { s with readyQ := rest } (arbReplyHandle (some h))) := by
  show whenEnabled .unit s _ = _
  rw [whenEnabled_unit hf, takeReady_some_iff.mpr ⟨rest, hq, rfl⟩]

theorem exec_recycleFetch_of_ok {r : Option Nat} {t : State} (hf : s.fault = none)
    (hr : recycleFetch s = .ok (r, t)) : exec .recycleFetch s = .next (t.reply (arbReplyHandle r)) := by
  show whenEnabled .unit s _ = _
  rw [whenEnabled_unit hf, hr]

theorem exec_release_of_ok {h : BitVec 13} {t : State} (hf : s.fault = none) (hr : release h.toNat s = .ok t) :
    exec (.release h) s = .next (t.reply arbAck) := by
  show whenEnabled .unit s _ = _
  rw [whenEnabled_unit hf, hr]

theorem exec_publish_of_ok {h : BitVec 13} {t : State} (hf : s.fault = none) (hp : publish h.toNat s = .ok t) :
    exec (.publish h) s = .next (t.reply arbAck) := by
  show whenEnabled .unit s _ = _
  rw [whenEnabled_unit hf, hp]

/-- 40 R102, R106, R107: a RELEASE that is a misuse faults. -/
theorem exec_release_of_misuse {h : BitVec 13} (hf : s.fault = none)
    (hm : s.cfg.n ≤ h.toNat ∨ h.toNat ∈ s.availQ ∨ h.toNat ∈ s.readyQ ∨ s.cur = some h.toNat) :
    exec (.release h) s = .next (s.mark .arbiterMisuse) := by
  show whenEnabled .unit s _ = _
  rw [whenEnabled_unit hf, release_of_misuse hm]
  rfl

/-- 40 R103, R106, R107: a PUBLISH that is a misuse faults. -/
theorem exec_publish_of_misuse {h : BitVec 13} (hf : s.fault = none)
    (hm : s.cfg.n ≤ h.toNat ∨ s.cur ≠ some h.toNat ∨ s.lenAt h.toNat = none) :
    exec (.publish h) s = .next (s.mark .arbiterMisuse) := by
  show whenEnabled .unit s _ = _
  rw [whenEnabled_unit hf, publish_of_misuse hm]
  rfl

/-- 40 R106: a reserved request faults. -/
theorem exec_arbReserved (aop : BitVec 3) (h : BitVec 13) (hf : s.fault = none) :
    exec (.arbReserved aop h) s = .next (s.mark .arbiterMisuse) := whenEnabled_unit hf

end

/-- 30 R89, 40 R106: the request words that are reserved in every configuration. -/
theorem reservedArb_eq_true_iff {aop : BitVec 3} {h : BitVec 13} :
    reservedArb aop h = true ↔ 5 ≤ aop.toNat ∨ ((aop = 0 ∨ aop = 3 ∨ aop = 4) ∧ h ≠ 0) := by
  have haop := aop.isLt
  rw [← Bool.not_eq_false, reservedArb_eq_false_iff]
  simp only [← BitVec.toNat_inj (x := aop)]
  by_cases hh : h = 0#13
  · simp [hh]
    omega
  · simp [hh]
    omega

/-- Settles O31: the deferred recycling of a buffer that may be released, then the head of ReadyQueue. -/
theorem recycleFetchRequest : Obligations.RecycleFetchRequest := by
  intro s hf hout
  refine ⟨_, exec_recycleFetch_of_ok hf (recycleFetch_of_out_apart hout), rfl, rfl, rfl, fun h0 ho => ?_,
    fun g hg => ?_, s.bufRead_recycled, ?_⟩
  · exact (s.lenAt_recycled h0).trans (if_pos ho)
  · exact (s.lenAt_recycled g).trans (if_neg hg)
  · cases s.readyQ with
    | nil => rw [List.head?_nil, arbReplyHandle_none]; rfl
    | cons h rest => rfl

/-- Settles O27: the head of AvailableQueue with its cells cleared, or the reply of an exhausted pool. -/
theorem acquireRequest : Obligations.AcquireRequest := by
  intro s hf
  refine ⟨fun hq => ?_, fun h rest hq =>
    ⟨_, exec_acquire_of_cons hf hq, fun i => ?_, fun g => ?_, fun g hg i => ?_, rfl⟩⟩
  · rw [exec_acquire_of_nil hf hq, arbReplyHandle_none]
    rfl
  · exact (State.bufRead_clearData ..).trans (if_pos rfl)
  · exact State.lenAt_clearData ..
  · exact (State.bufRead_clearData ..).trans (if_neg hg.symm)

/-- Settles O28: RELEASE performs when R107's conditions hold, and faults when one of them fails. -/
theorem releaseRequest : Obligations.ReleaseRequest := by
  intro s h hf hn
  refine ⟨fun havail hready hcur => ?_, fun hm => exec_release_of_misuse hf (.inr hm)⟩
  have hrun := exec_release_of_ok hf (release_ok_iff.mpr ⟨⟨hn, havail, hready, hcur⟩, rfl⟩)
  rw [arbAck_eq] at hrun
  refine ⟨_, hrun, ?_, fun g hg => ?_, s.bufRead_setLen h.toNat none, rfl⟩
  · exact (s.lenAt_setLen_none ..).trans (if_pos rfl)
  · exact (s.lenAt_setLen_none ..).trans (if_neg hg.symm)

/-- Settles O29: PUBLISH performs when R107's conditions hold, and faults when one of them fails. -/
theorem publishRequest : Obligations.PublishRequest := by
  intro s h hf hn
  refine ⟨fun hcur hlen => ?_, fun hm => exec_publish_of_misuse hf (.inr hm)⟩
  rw [exec_publish_of_ok hf (publish_ok_iff.mpr ⟨⟨hn, hcur, hlen⟩, rfl⟩), arbAck_eq]
  rfl

/-- Settles O30: the head of ReadyQueue, or the reply of an empty one. -/
theorem takeReadyRequest : Obligations.TakeReadyRequest := by
  intro s hf
  refine ⟨fun hq => ?_, fun h rest hq => exec_takeReady_of_cons hf hq⟩
  rw [exec_takeReady_of_nil hf hq, arbReplyHandle_none]
  rfl

/-- Settles O32: a reserved word decodes to itself and faults; PUBLISH and RELEASE ask for `H < N` first. -/
theorem reservedRequestsFault : Obligations.ReservedRequestsFault := by
  intro s hf
  refine ⟨fun aop h hres => ?_, fun h hn => ⟨⟨?_, ?_⟩, ?_, ?_⟩⟩
  · exact ⟨decode_arbWord_of_reserved (reservedArb_eq_true_iff.mpr hres), exec_arbReserved aop h hf⟩
  · exact decode_arbWord 1 h
  · exact exec_publish_of_misuse hf (.inl hn)
  · exact decode_arbWord 2 h
  · exact exec_release_of_misuse hf (.inl hn)

/-! ### A line ended by its terminator (41 R124 to R126) -/

section
variable {s : State} {h : Nat}

/-- 10 R28: a byte appended leaves the cursor inside the buffer. -/
theorem appendByte_cursor_le (hk : s.cursor ≤ s.cfg.c) (h : Nat) (b : Byte) :
    (appendByte h b s).cursor ≤ (appendByte h b s).cfg.c := by
  rw [appendByte_cursor, appendByte_cfg]
  split <;> omega

/-- 41 R124, R125: one more byte behind the bytes appended. -/
theorem appendByte_appendBytes (hk : s.cursor ≤ s.cfg.c) (bs : List Byte) (b : Byte) :
    appendByte h b (appendBytes h bs s) = appendBytes h (bs ++ [b]) s := by
  induction bs generalizing s with
  | nil =>
    rw [List.nil_append, appendBytes_nil hk, appendBytes_cons hk, appendBytes_nil (appendByte_cursor_le hk h b)]
  | cons a bs ih =>
    rw [List.cons_append, appendBytes_cons hk, appendBytes_cons hk, ih (appendByte_cursor_le hk h a)]

/-- The state after the bytes of a line, its terminator among them, were processed into buffer `h`: the line is
published. -/
def publishLine (h : Nat) (line : List Byte) (s : State) : State :=
  { (appendBytes h line s).setLen h (some (appendBytes h line s).cursor) with
    readyQ := s.readyQ ++ [h], cur := none, cursor := 0 }

/-- 41 R126: a line whose bytes fill buffer `h` as far as they fit, all in one update of the buffer. -/
theorem publishLine_eq (line : List Byte) :
    publishLine h line s =
      { s with
        cur := none
        cursor := 0
        readyQ := s.readyQ ++ [h]
        buf := s.buf.modify h fun x =>
          { data := Memory.writeMany x.data s.cursor (line.take (s.cfg.c - s.cursor))
            len := some (min s.cfg.c (s.cursor + line.length)) } } := by
  simp [publishLine, appendBytes, State.setLen, State.modifyBuf, List.modify_modify_eq, Function.comp_def]

/-- 41 R124 to R126: the first line that the bytes of a frame complete is published, and the rest is processed with no
buffer claimed. -/
theorem assemble_line {body : List Byte} (rest : List Byte) (hc : s.cur = some h) (hn : h < s.cfg.n)
    (hlt : h < s.buf.length) (hk : s.cursor ≤ s.cfg.c) (hbody : s.cfg.term ∉ body) :
    assemble (body ++ s.cfg.term :: rest) s = assemble rest (publishLine h (body ++ [s.cfg.term]) s) := by
  have hend : storeByte h s.cfg.term (appendBytes h body s) = .ok (publishLine h (body ++ [s.cfg.term]) s) := by
    have hterm : isTerm (appendBytes h body s).cfg s.cfg.term = true := isTerm_eq_true.mpr rfl
    rw [storeByte_of_term hterm, appendByte_appendBytes hk]
    exact endLine_of_claimed hn (by simpa [appendBytes] using hlt) hc
  rw [assemble_append_of_not_mem _ hc hk hbody, assemble_cons_some (s := appendBytes h body s) hc, hend]
  rfl

end

/-- Settles O39: the frame is one line's bytes and its terminator, with nothing behind it. -/
theorem terminatorPublishesTheLine : Obligations.TerminatorPublishesTheLine := by
  intro s f h body hf hp hok hpass hc hn hlt hk hdata hbody
  rw [exec_rxFrame_of_claimed hf hp hok hpass hc, hdata, assemble_line [] hc hn hlt hk hbody, assemble_nil, complete_ok,
    publishLine_eq, List.length_append]
  rfl

/-! ### Frames complete (41 R129) -/

section
variable {s t : State} {h : Nat}

/-- 41 R122, R129: a frame that passes the filter goes to the assembler. -/
theorem exec_rxFrame_of_passes {f : FrameRecord} (hf : s.fault = none) (hp : s.phase = .running)
    (hok : recordOk s.cfg f = true) (hpass : passesFilter s.cfg (frameOf f) = true) :
    exec (.rxFrame f) s = complete s (assembleFrame (frameOf f).data s) := by
  show whenEnabled .interrupt s _ = _
  rw [whenEnabled_of_enabled (State.enabled_interrupt.mpr ⟨hf, hp⟩), if_pos hok, if_pos hpass]

/-- 44 R181, R182: a well-formed frame that does not pass the filter has no effect. -/
theorem exec_rxFrame_of_filtered {f : FrameRecord} (hf : s.fault = none) (hp : s.phase = .running)
    (hok : recordOk s.cfg f = true) (hpass : ¬passesFilter s.cfg (frameOf f) = true) :
    exec (.rxFrame f) s = .next s := by
  show whenEnabled .interrupt s _ = _
  rw [whenEnabled_of_enabled (State.enabled_interrupt.mpr ⟨hf, hp⟩), if_pos hok, if_neg hpass]

/-- 41 R126, 40 R107: under the invariant the claimed buffer can be published, so a byte never faults. -/
theorem BlockInv.storeByte_completes (hs : BlockInv s) (hc : s.cur = some h) (b : Byte) :
    ∃ t, storeByte h b s = .ok t := by
  cases hb : isTerm s.cfg b with
  | false => exact ⟨_, storeByte_of_not_term hb⟩
  | true =>
    rw [storeByte_of_term hb]
    exact ⟨_, endLine_of_claimed (by simpa using hs.cur_lt_n hc) (by simpa using hs.cur_lt_arena hc)
      (appendByte_cur.trans hc)⟩

/-- 41 R123 to R128: under the invariant the bytes of a frame are processed without a fault. -/
theorem BlockInv.assemble_completes (hs : BlockInv s) (bs : List Byte) : ∃ t, assemble bs s = .ok t := by
  induction bs generalizing s with
  | nil => exact ⟨s, assemble_nil s⟩
  | cons b rest ih =>
    have claimed : ∀ (u : State) (h : Nat), BlockInv u → u.cur = some h → ∃ t, assemble (b :: rest) u = .ok t := by
      intro u h hu hc
      obtain ⟨v, hv⟩ := hu.storeByte_completes hc b
      rw [assemble_cons_some hc, hv]
      exact ih (hu.after_storeByte hc hv)
    cases hc : s.cur with
    | some h => exact claimed s h hs hc
    | none =>
      cases hb : isTerm s.cfg b with
      | true =>
        rw [assemble_cons_none_term hc hb]
        exact ih hs
      | false =>
        rw [assemble_cons_none hc hb]
        cases hcl : claim s with
        | none => exact ⟨_, rfl⟩
        | some u =>
          obtain ⟨h, _, -, rfl⟩ := claim_some_iff.mp hcl
          exact claimed _ h (hs.after_claim hc hcl) rfl

/-- 41 R122, R129: the same for a frame with its claim at the start. -/
theorem BlockInv.assembleFrame_completes (hs : BlockInv s) (bs : List Byte) : ∃ t, assembleFrame bs s = .ok t := by
  unfold assembleFrame
  cases hc : s.cur with
  | some h => exact hs.assemble_completes bs
  | none =>
    cases hcl : claim s with
    | none => exact ⟨_, rfl⟩
    | some u => exact (hs.after_claim hc hcl).assemble_completes bs

/-- 60 R205: a frame whose bytes were processed has set no mark. -/
theorem assembleFrame_fault {bs : List Byte} (ht : assembleFrame bs s = .ok t) : t.fault = s.fault := by
  refine assembleFrame_relates (R := fun u v => v.fault = u.fault) (fun _ => rfl) (fun _ _ _ h1 h2 => h2.trans h1) ?_ ?_
    (fun _ => rfl) ht
  · intro u v _ hv
    rw [claim_frame hv]
  · intro u v h b _ hv
    rw [storeByte_frame hv]

end

/-- Settles O41: a frame the filter rejects changes nothing, and the assembler completes with the mark as it was. -/
theorem framesComplete : Obligations.FramesComplete := by
  intro s f hs hf hp hok
  by_cases hpass : passesFilter s.cfg (frameOf f) = true
  · obtain ⟨t, ht⟩ := hs.assembleFrame_completes (frameOf f).data
    refine ⟨t, ?_, (assembleFrame_fault ht).trans hf⟩
    rw [exec_rxFrame_of_passes hf hp hok hpass, ht, complete_ok]
  · exact ⟨s, exec_rxFrame_of_filtered hf hp hok hpass, hf⟩

end Sys2Proof.Machine

namespace Sys2Proof.Machine

open Sys2Proof

/-! ### Frames that find no buffer, and frames without bytes (41 R122, R130) -/

section
variable {s : State} {h : Nat}

theorem assembleFrame_of_claimed (bs : List Byte) (hc : s.cur = some h) : assembleFrame bs s = assemble bs s := by
  rw [assembleFrame, hc]

/-- 41 R122: with no buffer claimed and none available a frame is dropped whole. -/
theorem assembleFrame_of_exhausted (bs : List Byte) (hc : s.cur = none) (hq : s.availQ = []) :
    assembleFrame bs s = .ok (s.emit .poolExhausted) := by
  rw [assembleFrame, hc, claim_none_iff.mpr hq]

/-- 41 R122, R123: with no buffer claimed a frame claims one first. -/
theorem assembleFrame_of_claim {u : State} (bs : List Byte) (hc : s.cur = none) (hcl : claim s = some u) :
    assembleFrame bs s = assemble bs u := by
  rw [assembleFrame, hc, hcl]

/-- 30 R80: a record with `DLC = 0` has no data bytes. -/
theorem frameOf_data_of_dlc_zero {f : FrameRecord} (hdlc : f.dlc = 0) : (frameOf f).data = [] :=
  List.eq_nil_of_length_eq_zero (by rw [length_frameOf, hdlc]; rfl)

/-- 41 R128: terminators that come while no buffer is claimed are dropped. -/
theorem assemble_replicate_term (k : Nat) (bs : List Byte) (hc : s.cur = none) :
    assemble (List.replicate k s.cfg.term ++ bs) s = assemble bs s := by
  induction k with
  | zero => rfl
  | succ k ih =>
    rw [List.replicate_succ, List.cons_append, assemble_cons_none_term hc (isTerm_eq_true.mpr rfl), ih]

/-- 41 R127: a byte that needs a buffer where none is left ends the frame. -/
theorem assemble_cons_of_exhausted {b : Byte} (rest : List Byte) (hc : s.cur = none) (hb : b ≠ s.cfg.term)
    (hq : s.availQ = []) : assemble (b :: rest) s = .ok (s.emit .poolExhausted) := by
  rw [assemble_cons_none hc (isTerm_eq_false.mpr hb), claim_none_iff.mpr hq]

end

/-- Settles O36: the claim at the frame's start fails, before any byte is looked at. -/
theorem frameDroppedOnExhaustion : Obligations.FrameDroppedOnExhaustion := by
  intro s f hf hp hok hpass hc hq
  rw [exec_rxFrame_of_passes hf hp hok hpass, assembleFrame_of_exhausted _ hc hq, complete_ok]
  rfl

/-- Settles O37: with no bytes a frame is its claim at the start, and nothing where a buffer is claimed already. -/
theorem emptyFrame : Obligations.EmptyFrame := by
  intro s f hf hp hok hpass hdlc
  refine ⟨fun hc => ?_, frameDroppedOnExhaustion s f hf hp hok hpass, fun h rest hc hq => ?_⟩
  · obtain ⟨h, hc⟩ := Option.ne_none_iff_exists'.mp hc
    rw [exec_rxFrame_of_claimed hf hp hok hpass hc, frameOf_data_of_dlc_zero hdlc, assemble_nil, complete_ok]
  · have hcl := claim_some_iff.mpr ⟨h, rest, hq, rfl⟩
    rw [exec_rxFrame_of_passes hf hp hok hpass, assembleFrame_of_claim _ hc hcl, frameOf_data_of_dlc_zero hdlc,
      assemble_nil, complete_ok]
    rfl

/-- Settles O40: the first line is published, the terminators behind it are dropped, and the next byte finds the pool
exhausted. -/
theorem exhaustionInsideAFrame : Obligations.ExhaustionInsideAFrame := by
  intro s f h k body rest b hf hp hok hpass hc hn hlt hk hq hdata hbody hb
  rw [List.append_assoc, List.singleton_append] at hdata
  have hdropped := assemble_replicate_term (s := publishLine h (body ++ [s.cfg.term]) s) k (b :: rest) rfl
  rw [exec_rxFrame_of_claimed hf hp hok hpass hc, hdata, assemble_line _ hc hn hlt hk hbody]
  refine (congrArg (complete s) (hdropped.trans (assemble_cons_of_exhausted rest rfl hb hq))).trans ?_
  rw [complete_ok, publishLine_eq, List.length_append]
  rfl

/-! ### The shape of a ready line (41 R132) -/

/-- 10 R24: the first bytes of a buffer, by position. -/
theorem State.cells_eq_some_iff {s : State} {h n : Nat} {bs : List Byte} :
    s.cells h n = some bs ↔ bs.length = n ∧ ∀ i < n, s.bufRead h i = bs[i]? := by
  rw [State.cells, Memory.readMany_eq_some_iff]
  simp only [Nat.zero_add, State.bufRead]

/-- 41 R132: what the shape of a line says of its bytes, by position. -/
theorem lineShape_iff {g : Config} {bs : List Byte} :
    lineShape g bs = true ↔ (∀ i, i + 1 < bs.length → bs[i]? ≠ some g.term) ∧
      (bs.length < g.c → bs.getLast? = some g.term) := by
  have hinner : g.term ∉ bs.dropLast ↔ ∀ i, i + 1 < bs.length → bs[i]? ≠ some g.term := by
    simp only [List.mem_iff_getElem?, List.getElem?_dropLast, not_exists]
    refine forall_congr' fun i => ?_
    by_cases hi : i + 1 < bs.length <;> simp [hi, Nat.lt_sub_iff_add_lt]
  rw [← hinner]
  simp [lineShape, or_iff_not_imp_left]

/-- Settles O58: under the invariant the bytes of a ready line are written, and they have the shape of a line. -/
theorem shortLinesEndWithTheTerminator : Obligations.ShortLinesEndWithTheTerminator := by
  intro s h len hs hm hlen
  obtain ⟨len', bs, hlen', hpos, -, hcells, hshape⟩ := State.lineOk_iff.mp (hs.ready h hm)
  obtain rfl : len = len' := Option.some.inj (hlen.symm.trans hlen')
  obtain ⟨hlength, hbyte⟩ := State.cells_eq_some_iff.mp hcells
  obtain ⟨hinner, hlast⟩ := lineShape_iff.mp hshape
  refine ⟨fun hshort => ?_, fun i hi => ?_⟩
  · rw [hbyte _ (by omega), ← hlength, ← List.getLast?_eq_getElem?]
    exact hlast (hlength ▸ hshort)
  · rw [hbyte i (by omega)]
    exact hinner i (hlength ▸ hi)

/-! ### What the assembler can do with a frame's bytes (41 R122 to R128) -/

section
variable {s t : State} {bs : List Byte}

/-- 41 R122: a claim sets `cur`. -/
theorem claim_cur (ht : claim s = some t) : ∃ h, t.cur = some h := by
  obtain ⟨h, rest, -, rfl⟩ := claim_some_iff.mp ht
  exact ⟨h, rfl⟩

/-- 41 R122: at a frame's start: the bytes go to the buffer claimed already or to a new one, or no buffer is left. -/
theorem assembleFrame_ok (ht : assembleFrame bs s = .ok t) :
    (s.cur ≠ none ∧ assemble bs s = .ok t) ∨ (s.cur = none ∧ s.availQ = [] ∧ t = s.emit .poolExhausted) ∨
      ∃ u, s.cur = none ∧ claim s = some u ∧ assemble bs u = .ok t := by
  cases hc : s.cur with
  | some h => exact .inl ⟨by simp, by rwa [assembleFrame_of_claimed bs hc] at ht⟩
  | none =>
    cases hcl : claim s with
    | none =>
      have hq := claim_none_iff.mp hcl
      rw [assembleFrame_of_exhausted bs hc hq] at ht
      exact .inr (.inl ⟨rfl, hq, (Except.ok.inj ht).symm⟩)
    | some u => exact .inr (.inr ⟨u, rfl, rfl, by rwa [assembleFrame_of_claim bs hc hcl] at ht⟩)

/-- The induction over a frame's bytes, from the state they find to the state they leave: no byte is left; a terminator
is dropped (R128); a claim fails (R127); a claim succeeds, the byte to be processed still (R127); a byte is processed
into the claimed buffer (R124 to R126). -/
theorem assemble_induction {P : List Byte → State → State → Prop} (nil : ∀ s, P [] s s)
    (drop : ∀ s t rest, s.cur = none → P rest s t → P (s.cfg.term :: rest) s t)
    (exhausted : ∀ s b rest, s.cur = none → b ≠ s.cfg.term → s.availQ = [] →
      P (b :: rest) s (s.emit .poolExhausted))
    (claimed : ∀ s u t b rest, s.cur = none → b ≠ s.cfg.term → claim s = some u → P (b :: rest) u t →
      P (b :: rest) s t)
    (stored : ∀ s u t h b rest, s.cur = some h → storeByte h b s = .ok u → P rest u t → P (b :: rest) s t)
    (ht : assemble bs s = .ok t) : P bs s t := by
  induction bs generalizing s with
  | nil =>
    cases ht
    exact nil t
  | cons b rest ih =>
    have into : ∀ u h, u.cur = some h → assemble (b :: rest) u = .ok t → P (b :: rest) u t := by
      intro u h hc hr
      rw [assemble_cons_some hc] at hr
      cases hst : storeByte h b u with
      | error e =>
        rw [hst] at hr
        cases hr
      | ok v =>
        rw [hst] at hr
        exact stored u v t h b rest hc hst (ih hr)
    cases hc : s.cur with
    | some h => exact into s h hc ht
    | none =>
      by_cases hb : b = s.cfg.term
      · rw [hb, assemble_cons_none_term hc (isTerm_eq_true.mpr rfl)] at ht
        exact hb ▸ drop s t rest hc (ih ht)
      · cases hcl : claim s with
        | none =>
          have hq := claim_none_iff.mp hcl
          rw [assemble_cons_of_exhausted rest hc hb hq] at ht
          cases ht
          exact exhausted s b rest hc hb hq
        | some u =>
          rw [assemble_cons_none hc (isTerm_eq_false.mpr hb), hcl] at ht
          obtain ⟨h, hcur⟩ := claim_cur hcl
          exact claimed s u t b rest hc hb hcl (into u h hcur ht)

/-- 41 R134: no event, or one. -/
def OneEventAtMost (s t : State) : Prop := t.evLog = s.evLog ∨ t.evLog = s.evLog ++ [.poolExhausted]

theorem assemble_oneEventAtMost (ht : assemble bs s = .ok t) : OneEventAtMost s t := by
  refine assemble_induction (P := fun _ => OneEventAtMost) (fun _ => .inl rfl) (fun _ _ _ _ => id)
    (fun _ _ _ _ _ _ => .inr rfl) ?_ ?_ ht
  · intro s u t b rest _ _ hu ht
    have hev : u.evLog = s.evLog := by rw [claim_frame hu]
    rwa [OneEventAtMost, hev] at ht
  · intro s u t h b rest _ hu ht
    have hev : u.evLog = s.evLog := by rw [storeByte_frame hu]
    rwa [OneEventAtMost, hev] at ht

theorem assembleFrame_oneEventAtMost (ht : assembleFrame bs s = .ok t) : OneEventAtMost s t := by
  obtain ⟨-, ht⟩ | ⟨-, -, rfl⟩ | ⟨u, -, hu, ht⟩ := assembleFrame_ok ht
  · exact assemble_oneEventAtMost ht
  · exact .inr rfl
  · have hev : u.evLog = s.evLog := by rw [claim_frame hu]
    have hone := assemble_oneEventAtMost ht
    rwa [OneEventAtMost, hev] at hone

end

/-- Settles O44: the event of a failed claim ends the frame, and nothing else emits one. -/
theorem atMostOneEventPerFrame : Obligations.AtMostOneEventPerFrame := fun _ _ f ht =>
  execRxFrame_relates (R := OneEventAtMost) (f := f) (.inl rfl) (fun _ => .inl rfl)
    (fun _ => assembleFrame_oneEventAtMost) ht

/-! ### Lines, ready and open (20 R56) -/

theorem State.lineAt_of_bufAt {s t : State} {h : Nat} (hb : t.bufAt h = s.bufAt h) : t.lineAt h = s.lineAt h := by
  simp only [State.lineAt, State.lenAt, State.cells, hb]

/-- 10 R24: the content of a line whose bytes are written. -/
theorem State.lineAt_eq {s : State} {h len : Nat} {bs : List Byte} (hl : s.lenAt h = some len)
    (hc : s.cells h len = some bs) : s.lineAt h = bs := by
  rw [State.lineAt, hl]
  simp [hc]

/-- 41 R126: a line's content once its length is written. -/
theorem State.lineAt_setLen_self {s : State} {h n : Nat} {bs : List Byte} (hlt : h < s.buf.length)
    (hc : s.cells h n = some bs) : (s.setLen h (some n)).lineAt h = bs := by
  have hself := s.bufAt_setLen_self (some n) hlt
  refine State.lineAt_eq (len := n) (congrArg LineBuffer.len hself) ?_
  rwa [State.cells, hself]

/-- 20 R56: the ready lines depend on their own buffers alone. -/
theorem State.map_lineAt_congr {s t : State} (hb : ∀ h ∈ s.readyQ, t.bufAt h = s.bufAt h) :
    s.readyQ.map t.lineAt = s.readyLines :=
  List.map_congr_left fun h hh => State.lineAt_of_bufAt (hb h hh)

theorem State.openLine_of_none {s : State} (hc : s.cur = none) : s.openLine = none := by
  rw [State.openLine, hc]

/-- 10 R27: the line in progress is there where a buffer is claimed. -/
theorem State.openLine_of_some {s : State} {h : Nat} (hc : s.cur = some h) : ∃ l, s.openLine = some l := by
  rw [State.openLine, hc]
  exact ⟨_, rfl⟩

/-- 10 R27, R28: the line in progress is the bytes below the cursor. -/
theorem State.openLine_eq {s : State} {h : Nat} {bs : List Byte} (hc : s.cur = some h)
    (hcells : s.cells h s.cursor = some bs) : s.openLine = some bs := by
  rw [State.openLine, hc]
  simp [hcells]

section
variable {s t u : State} {h : Nat} {b : Byte}

/-- 10 R28: under the invariant the line in progress is written below the cursor of the claimed buffer. -/
theorem BlockInv.cells_openLine {l : List Byte} (hs : BlockInv s) (hc : s.cur = some h) (hl : s.openLine = some l) :
    s.cells h s.cursor = some l := by
  obtain ⟨-, bs, hcells, -⟩ := State.openOk_iff.mp (hs.claimed h (by simp [hc]))
  rw [hcells, ← State.openLine_eq hc hcells, hl]

/-- 41 R124, R125: one more byte, kept if it is among the first `C`. -/
theorem BlockInv.cells_appendByte_cur {l : List Byte} (hs : BlockInv s) (hc : s.cur = some h)
    (hl : s.cells h s.cursor = some l) :
    (appendByte h b s).cells h (appendByte h b s).cursor = some ((l ++ [b]).take s.cfg.c) := by
  have hlen : l.length = s.cursor := (State.cells_eq_some_iff.mp hl).1
  have hle := hs.cursorLe
  rw [cells_appendByte (hs.cur_lt_arena hc) hl]
  split
  · rw [List.take_of_length_le (by simp; omega)]
  · rw [List.take_append_of_le_length (by omega), List.take_of_length_le (by omega)]

/-- 41 R124, R125: a byte other than the terminator extends the line in progress; the ready lines stay. -/
theorem BlockInv.lines_of_storeByte_ne {l : List Byte} (hs : BlockInv s) (hc : s.cur = some h)
    (hl : s.openLine = some l) (hu : storeByte h b s = .ok u) (hb : b ≠ s.cfg.term) :
    u.openLine = some ((l ++ [b]).take s.cfg.c) ∧ u.readyLines = s.readyLines := by
  rw [storeByte_of_not_term (isTerm_eq_false.mpr hb)] at hu
  cases hu
  obtain ⟨-, hready, -⟩ := hs.cur_apart hc
  refine ⟨State.openLine_eq (appendByte_cur.trans hc) (hs.cells_appendByte_cur hc (hs.cells_openLine hc hl)), ?_⟩
  rw [State.readyLines, appendByte_readyQ]
  exact State.map_lineAt_congr fun g hg => appendByte_bufAt_ne fun he => hready (he ▸ hg)

/-- 41 R126: the terminator, kept like any other byte (R124, R125), completes the line in progress. -/
theorem BlockInv.lines_of_storeByte_term {l : List Byte} (hs : BlockInv s) (hc : s.cur = some h)
    (hl : s.openLine = some l) (hu : storeByte h b s = .ok u) (hb : b = s.cfg.term) :
    u.openLine = none ∧ u.readyLines = s.readyLines ++ [(l ++ [b]).take s.cfg.c] := by
  obtain ⟨-, hready, -⟩ := hs.cur_apart hc
  have hcells := hs.cells_appendByte_cur (b := b) hc (hs.cells_openLine hc hl)
  have hother : ∀ g ∈ s.readyQ, u.bufAt g = s.bufAt g := fun g hg =>
    storeByte_bufAt_ne hu fun he => hready (he ▸ hg)
  obtain ⟨hne, -⟩ | ⟨-, -, rfl⟩ := storeByte_ok hu
  · exact absurd hb (isTerm_eq_false.mp hne)
  · refine ⟨rfl, ?_⟩
    rw [State.readyLines, List.map_append, State.map_lineAt_congr hother]
    exact congrArg (fun line => s.readyLines ++ [line])
      (State.lineAt_setLen_self (by simpa using hs.cur_lt_arena hc) hcells)

/-- 41 R122: a claim opens an empty line; the ready lines stay. -/
theorem BlockInv.lines_of_claim (hs : BlockInv s) (hc : s.cur = none) (hu : claim s = some u) :
    u.openLine = some [] ∧ u.readyLines = s.readyLines := by
  obtain ⟨g, rest, hq, rfl⟩ := claim_some_iff.mp hu
  obtain ⟨-, hready, -⟩ := hs.availQ_head_apart hq
  have hother : ∀ j ∈ s.readyQ, (s.clearData g).bufAt j = s.bufAt j := fun j hj =>
    s.bufAt_clearData_ne fun he => hready (he ▸ hj)
  refine ⟨State.openLine_eq rfl ?_, State.map_lineAt_congr hother⟩
  exact State.cells_eq_some_iff.mpr ⟨(hs.cursorZero hc).symm, fun i hi => by simp [hs.cursorZero hc] at hi⟩

/-- 41 R122: a claim takes the head of AvailableQueue. -/
theorem claim_availQ (hu : claim s = some u) : ∃ g, s.availQ = g :: u.availQ := by
  obtain ⟨g, rest, hq, rfl⟩ := claim_some_iff.mp hu
  exact ⟨g, hq⟩

/-! ### The assembler is line cutting (41 R122 to R128) -/

/-- The cut of a frame's bytes behind its claim at the start: by the lines of the block and the buffers available. -/
def State.cut (s : State) (bs : List Byte) : Cut :=
  cutWithin s.cfg.c s.cfg.term s.availQ.length s.openLine bs

section
variable {c : Nat} {term b : Byte} (k : Nat) (rest : List Byte)

/-- 41 R124, R126: the terminator completes the line in progress. -/
theorem cutWithin_cons_term (l : List Byte) (hb : b = term) :
    cutWithin c term k (some l) (b :: rest) = (cutWithin c term k none rest).after ((l ++ [b]).take c) := by
  simp [cutWithin, hb]

/-- 41 R124, R125: another byte extends the line in progress. -/
theorem cutWithin_cons_ne (l : List Byte) (hb : b ≠ term) :
    cutWithin c term k (some l) (b :: rest) = cutWithin c term k (some ((l ++ [b]).take c)) rest := by
  simp [cutWithin, hb]

/-- 41 R128: a terminator with no line in progress is dropped. -/
theorem cutWithin_dropped : cutWithin c term k none (term :: rest) = cutWithin c term k none rest := by
  simp [cutWithin]

/-- 41 R127: another byte with no line in progress claims a buffer, and is cut from an empty line. -/
theorem cutWithin_claim (hb : b ≠ term) :
    cutWithin c term (k + 1) none (b :: rest) = (cutWithin c term k (some []) (b :: rest)).claimed := by
  simp [cutWithin, hb]

end

/-- The cut of a frame that needs a buffer where none is left. -/
def Cut.failed : Cut := { lines := [], line := none, used := 0, exhausted := true }

/-- 41 R127: with no buffer left it ends the frame. -/
theorem cutWithin_exhausted {c : Nat} {term b : Byte} (rest : List Byte) (hb : b ≠ term) :
    cutWithin c term 0 none (b :: rest) = .failed := by
  simp [cutWithin, hb, Cut.failed]

/-- From `s` to `t` the block performs a cut: its lines are published, its line is left open, its buffers are claimed,
and a claim that failed is an event. -/
structure Performs (r : Cut) (s t : State) : Prop where
  lines : t.readyLines = s.readyLines ++ r.lines
  line : t.openLine = r.line
  used : t.availQ = s.availQ.drop r.used
  events : t.evLog = s.evLog ++ if r.exhausted then [.poolExhausted] else []

/-- 41 R127: the event of a failed claim performs the failed cut. -/
theorem performs_failed (hc : s.cur = none) : Performs .failed s (s.emit .poolExhausted) where
  lines := (List.append_nil _).symm
  line := State.openLine_of_none hc
  used := rfl
  events := rfl

/-- 41 R123: with no byte left there is nothing to perform. -/
theorem performs_nil (s : State) : Performs (s.cut []) s s where
  lines := (List.append_nil _).symm
  line := rfl
  used := rfl
  events := (List.append_nil _).symm

/-- 41 R122: a claim, and then a cut. -/
theorem Performs.after_claim {r : Cut} (hs : BlockInv s) (hc : s.cur = none) (hu : claim s = some u)
    (ht : Performs r u t) : Performs r.claimed s t := by
  obtain ⟨-, hready⟩ := hs.lines_of_claim hc hu
  obtain ⟨g, hq⟩ := claim_availQ hu
  have hev : u.evLog = s.evLog := by rw [claim_frame hu]
  exact {
    lines := hready ▸ ht.lines
    line := ht.line
    used := by rw [ht.used, hq]; rfl
    events := hev ▸ ht.events }

/-- 41 R122: a claim leaves one buffer fewer, and what follows is cut from an empty line. -/
theorem BlockInv.cut_of_claim (hs : BlockInv s) (hc : s.cur = none) (hu : claim s = some u) (bs : List Byte) :
    s.availQ.length = u.availQ.length + 1 ∧ u.cut bs = cutWithin s.cfg.c s.cfg.term u.availQ.length (some []) bs := by
  obtain ⟨hline, -⟩ := hs.lines_of_claim hc hu
  obtain ⟨g, hq⟩ := claim_availQ hu
  have hcfg : u.cfg = s.cfg := by rw [claim_frame hu]
  exact ⟨by rw [hq]; rfl, by rw [State.cut, hline, hcfg]⟩

/-- 41 R126: lines published without a claim or an event, and then a cut. -/
theorem Performs.after_lines {r : Cut} {ls : List (List Byte)} (hready : u.readyLines = s.readyLines ++ ls)
    (havail : u.availQ = s.availQ) (hev : u.evLog = s.evLog) (ht : Performs r u t) :
    Performs { r with lines := ls ++ r.lines } s t where
  lines := by rw [ht.lines, hready, List.append_assoc]
  line := ht.line
  used := havail ▸ ht.used
  events := hev ▸ ht.events

/-- 41 R124 to R126: a byte, and then a cut. -/
theorem Performs.after_storeByte {rest : List Byte} (hs : BlockInv s) (hc : s.cur = some h)
    (hu : storeByte h b s = .ok u) (ht : Performs (u.cut rest) u t) : Performs (s.cut (b :: rest)) s t := by
  obtain ⟨l, hl⟩ := State.openLine_of_some hc
  have hframe := storeByte_frame hu
  have hcfg : u.cfg = s.cfg := by rw [hframe]
  have havail : u.availQ = s.availQ := by rw [hframe]
  have hev : u.evLog = s.evLog := by rw [hframe]
  rw [State.cut, hcfg, havail] at ht
  rw [State.cut, hl]
  by_cases hb : b = s.cfg.term
  · obtain ⟨hopen, hready⟩ := hs.lines_of_storeByte_term hc hl hu hb
    rw [hopen] at ht
    rw [cutWithin_cons_term _ _ _ hb]
    exact ht.after_lines hready havail hev
  · obtain ⟨hopen, hready⟩ := hs.lines_of_storeByte_ne hc hl hu hb
    rw [hopen] at ht
    rw [cutWithin_cons_ne _ _ _ hb]
    exact ht.after_lines (hready.trans (List.append_nil _).symm) havail hev

/-- 41 R123 to R128: under the invariant the bytes of a frame are cut into lines, as far as the pool reaches. -/
theorem assemble_performs_cut {bs : List Byte} (hs : BlockInv s) (ht : assemble bs s = .ok t) :
    Performs (s.cut bs) s t := by
  refine assemble_induction (P := fun bs s t => BlockInv s → Performs (s.cut bs) s t) (fun s _ => performs_nil s)
    ?_ ?_ ?_ ?_ ht hs
  · intro s t rest hc ht hs
    have hcut : s.cut (s.cfg.term :: rest) = s.cut rest := by
      rw [State.cut, State.cut, State.openLine_of_none hc, cutWithin_dropped]
    exact hcut ▸ ht hs
  · intro s b rest hc hb hq _
    have hcut : s.cut (b :: rest) = .failed := by
      rw [State.cut, State.openLine_of_none hc, hq]
      exact cutWithin_exhausted rest hb
    exact hcut ▸ performs_failed hc
  · intro s u t b rest hc hb hu ht hs
    have hcut : s.cut (b :: rest) = (u.cut (b :: rest)).claimed := by
      obtain ⟨hlen, hcut⟩ := hs.cut_of_claim hc hu (b :: rest)
      rw [hcut, State.cut, State.openLine_of_none hc, hlen, cutWithin_claim _ _ hb]
    exact hcut ▸ (ht (hs.after_claim hc hu)).after_claim hs hc hu
  · intro s u t h b rest hc hu ht hs
    exact (ht (hs.after_storeByte hc hu)).after_storeByte hs hc hu

/-- 41 R122: the same for a frame with its claim at the start. -/
theorem assembleFrame_performs_frameCut {bs : List Byte} (hs : BlockInv s) (ht : assembleFrame bs s = .ok t) :
    Performs (frameCut s bs) s t := by
  obtain ⟨hc, ht⟩ | ⟨hc, hq, rfl⟩ | ⟨u, hc, hu, ht⟩ := assembleFrame_ok ht
  · obtain ⟨h, hc⟩ := Option.ne_none_iff_exists'.mp hc
    obtain ⟨l, hl⟩ := State.openLine_of_some hc
    have hcut : frameCut s bs = s.cut bs := by rw [frameCut, State.cut, hl]
    exact hcut ▸ assemble_performs_cut hs ht
  · have hcut : frameCut s bs = .failed := by
      rw [frameCut, State.openLine_of_none hc, hq]
      rfl
    exact hcut ▸ performs_failed hc
  · have hcut : frameCut s bs = (u.cut bs).claimed := by
      obtain ⟨hlen, hcut⟩ := hs.cut_of_claim hc hu bs
      rw [hcut, frameCut, State.openLine_of_none hc, hlen]
    exact hcut ▸ (assemble_performs_cut (hs.after_claim hc hu) ht).after_claim hs hc hu

end

/-- Settles O43: a frame completes under the invariant, and its bytes are cut into lines within the pool. -/
theorem framesCutLinesWithinThePool : Obligations.FramesCutLinesWithinThePool := by
  intro s f hs hf hp hok hpass
  obtain ⟨t, ht⟩ := hs.assembleFrame_completes (frameOf f).data
  obtain ⟨hlines, hline, hused, hevents⟩ := assembleFrame_performs_frameCut hs ht
  refine ⟨t, ?_, (assembleFrame_fault ht).trans hf, hlines, hline, hused, hevents⟩
  rw [exec_rxFrame_of_passes hf hp hok hpass, ht, complete_ok]

/-! ### Line cutting while the pool lasts (41 R120 to R128) -/

section
variable {c : Nat} {term : Byte}

/-- 41 R126: a line in progress needs its buffer to the end of the frame, whether it is completed or not. -/
theorem cutLines_some_needs_buffer (l : List Byte) (bs : List Byte) :
    1 ≤ (cutLines c term (some l) bs).1.length + (cutLines c term (some l) bs).2.toList.length := by
  induction bs generalizing l with
  | nil => simp [cutLines]
  | cons b rest ih =>
    by_cases hb : b = term
    · simp [cutLines, hb]
      omega
    · simpa [cutLines, hb] using ih _

/-- While the buffers last, cutting within the pool is line cutting, and no claim fails. -/
theorem cutWithin_eq_cutLines {k : Nat} {line : Option (List Byte)} {bs : List Byte}
    (hk : (cutLines c term line bs).1.length + (cutLines c term line bs).2.toList.length ≤ k + line.toList.length) :
    (cutWithin c term k line bs).lines = (cutLines c term line bs).1 ∧
      (cutWithin c term k line bs).line = (cutLines c term line bs).2 ∧
      (cutWithin c term k line bs).exhausted = false := by
  induction bs generalizing k line with
  | nil => simp [cutLines, cutWithin]
  | cons b rest ih =>
    cases line with
    | some l =>
      by_cases hb : b = term
      · rw [cutWithin_cons_term _ _ _ hb]
        simp only [cutLines, hb, if_true, List.length_cons] at hk ⊢
        obtain ⟨h1, h2, h3⟩ := ih (k := k) (line := none) (by simp at hk ⊢; omega)
        exact ⟨congrArg _ h1, h2, h3⟩
      · rw [cutWithin_cons_ne _ _ _ hb]
        simp only [cutLines, hb, if_false] at hk ⊢
        exact ih hk
    | none =>
      by_cases hb : b = term
      · subst hb
        rw [cutWithin_dropped]
        simp only [cutLines, if_true] at hk ⊢
        exact ih hk
      · simp only [cutLines, hb, if_false] at hk ⊢
        have hneed := cutLines_some_needs_buffer (c := c) (term := term) ([b].take c) rest
        cases k with
        | zero =>
          simp only [Option.toList_none, List.length_nil] at hk
          omega
        | succ k =>
          rw [cutWithin_claim _ _ hb, cutWithin_cons_ne _ _ _ hb]
          exact ih hk

/-- 41 R122: the same for a frame with its claim at the start. -/
theorem frameCut_eq_frameLines {s : State} {bs : List Byte}
    (hk : buffersNeeded s bs ≤ s.availQ.length + s.cur.toList.length) :
    (frameCut s bs).lines = (frameLines s bs).1 ∧ (frameCut s bs).line = (frameLines s bs).2 ∧
      (frameCut s bs).exhausted = false := by
  unfold buffersNeeded frameLines at hk
  unfold frameCut frameLines
  cases hc : s.cur with
  | some h =>
    obtain ⟨l, hl⟩ := State.openLine_of_some hc
    simp only [hc, hl, Option.getD_some] at hk ⊢
    exact cutWithin_eq_cutLines hk
  | none =>
    have hneed := cutLines_some_needs_buffer (c := s.cfg.c) (term := s.cfg.term) [] bs
    simp only [hc, State.openLine_of_none hc, Option.getD_none, Option.toList_none, List.length_nil] at hk ⊢
    cases hq : s.availQ.length with
    | zero => omega
    | succ k => exact cutWithin_eq_cutLines (line := some []) (hq ▸ hk)

end

/-- Settles O42: a frame's bytes are cut within the pool (O43), and with buffers enough that is line cutting. -/
theorem assemblerRefinesLineCutting : Obligations.AssemblerRefinesLineCutting := by
  intro s f hs hf hp hok hpass hneed
  obtain ⟨t, ht, hfault, hready, hopen, -, hev⟩ := framesCutLinesWithinThePool s f hs hf hp hok hpass
  obtain ⟨hlines, hline, hex⟩ := frameCut_eq_frameLines hneed
  rw [hlines] at hready
  rw [hline] at hopen
  rw [hex] at hev
  exact ⟨t, ht, by simpa using hev, hfault, hready, hopen⟩

end Sys2Proof.Machine

namespace Sys2Proof.Machine

open Sys2Proof

/-! ### GET_LINE and LINE_BYTE (42 R140, R144) -/

section
variable {s u : State} {h len : Nat}

/-- 43 R170: with no write in progress and no mark, the gate of the commands is open. -/
theorem whenEnabled_foreground {k : Host.Outcome State Fault Refusal} (hf : s.fault = none) (htx : s.tx = .idle) :
    whenEnabled .foreground s k = k :=
  whenEnabled_of_enabled (State.enabled_foreground.mpr ⟨hf, htx⟩)

theorem exec_getLine_of_idle (hf : s.fault = none) (htx : s.tx = .idle) :
    exec .getLine s = whenRunning s (complete s (getLine s)) := whenEnabled_foreground hf htx

theorem exec_lineByte_of_idle (i : BitVec 28) (hf : s.fault = none) (htx : s.tx = .idle) :
    exec (.lineByte i) s = whenRunning s (complete s (lineByte i.toNat s)) := whenEnabled_foreground hf htx

/-- 42 R140: GET_LINE with no line. -/
theorem getLine_of_none (hr : recycleFetch s = .ok (none, u)) : getLine s = .ok (u.respond rspNoLine) := by
  simp [getLine, hr]

/-- 42 R140: GET_LINE of a line. -/
theorem getLine_of_some (hr : recycleFetch s = .ok (some h, u)) (hl : u.lenAt h = some len) :
    getLine s = .ok (u.respond (rspLine h len)) := by
  simp [getLine, hr, hl]

/-- 42 R144: LINE_BYTE with no line checked out. -/
theorem lineByte_of_none (i : Nat) (ho : s.out = none) : lineByte i s = .error .noLineData := by
  simp [lineByte, ho]

/-- 42 R144: LINE_BYTE at or past the end of the line. -/
theorem lineByte_of_le {i : Nat} (ho : s.out = some h) (hl : s.lenAt h = some len) (hi : len ≤ i) :
    lineByte i s = .error .noLineData := by
  simp [lineByte, ho, hl, hi]

/-- 42 R144: LINE_BYTE inside the line. -/
theorem lineByte_of_lt {i : Nat} {b : Byte} (ho : s.out = some h) (hl : s.lenAt h = some len) (hi : i < len)
    (hb : s.bufRead h i = some b) : lineByte i s = .ok (s.respond (rspByte b)) := by
  simp [lineByte, ho, hl, hi, hb]

/-- 20 R56: every byte of a line that reads whole is written. -/
theorem State.bufRead_of_cells {n i : Nat} {bs : List Byte} (hc : s.cells h n = some bs) (hi : i < n) :
    ∃ b, s.bufRead h i = some b := by
  obtain ⟨hlen, hread⟩ := State.cells_eq_some_iff.mp hc
  rw [hread i hi]
  exact ⟨_, List.getElem?_eq_getElem (hlen ▸ hi)⟩

end

/-- Settles O47: under the invariant RECYCLE_FETCH succeeds, and the line it takes has a length within the bounds. -/
theorem getLineCommand : Obligations.GetLineCommand := by
  intro s hs
  refine ⟨fun t ht => ?_, fun hf htx => ⟨fun hp => ?_, fun hp => ⟨fun hq => ?_, fun h rest hq => ?_⟩⟩⟩
  · obtain ⟨hf, htx, -⟩ := execGetLine_next ht
    exact ⟨hf, htx⟩
  · rw [exec_getLine_of_idle hf htx, whenRunning_of_not_running hp]
    rfl
  · rw [exec_getLine_of_idle hf htx, whenRunning_of_running hp, getLine_of_none (hs.recycleFetch_of_nil hq),
      rspNoLine_eq]
    rfl
  · have hm : h ∈ s.readyQ := hq ▸ List.mem_cons_self ..
    obtain ⟨len, -, hlen, hpos, hle, -⟩ := State.lineOk_iff.mp (hs.ready h hm)
    have hget := getLine_of_some (hs.recycleFetch_of_cons hq)
      ((congrArg LineBuffer.len (hs.bufAt_recycled hm)).trans hlen)
    refine ⟨len, hlen, hpos, hle, ?_⟩
    rw [exec_getLine_of_idle hf htx, whenRunning_of_running hp, hget, rspLine_eq]
    rfl

/-- Settles O49: under the invariant the line checked out has a length and all its bytes below it. -/
theorem lineByteCommand : Obligations.LineByteCommand := by
  intro s i hs
  refine ⟨fun t ht => ?_, fun hf htx => ⟨fun hp => ?_, fun hp => ?_⟩⟩
  · obtain ⟨hf, htx, -⟩ := execLineByte_next (i := i) ht
    exact ⟨hf, htx⟩
  · rw [exec_lineByte_of_idle i hf htx, whenRunning_of_not_running hp]
    rfl
  · rw [exec_lineByte_of_idle i hf htx, whenRunning_of_running hp]
    refine ⟨fun ho => ?_, fun h ho => ?_⟩
    · rw [lineByte_of_none _ ho]
      rfl
    · obtain ⟨len, bs, hlen, -, -, hcells, -⟩ := State.lineOk_iff.mp (hs.checkedOut h (by simp [ho]))
      refine ⟨len, hlen, fun hi => ?_, fun hi => ?_⟩
      · rw [lineByte_of_le ho hlen hi]
        rfl
      · obtain ⟨b, hb⟩ := State.bufRead_of_cells hcells hi
        refine ⟨b, hb, ?_⟩
        rw [lineByte_of_lt ho hlen hi hb, rspByte_eq]
        rfl

/-! ### A returned line stays valid (42 R141, R145) -/

section
variable {s t : State} {i : Instr} {h : Nat}

/-- 10 R43: of the instructions that come through a port only GET_LINE, READ and RESET write `out`. -/
theorem exec_out_eq (hi : issuer i ≠ .unit) (hg : i ≠ .getLine) (hrd : ∀ cap, i ≠ .read cap) (hr : i ≠ .reset)
    (ht : exec i s = .next t) : t.out = s.out := by
  obtain ⟨-, -, -, -, -, -, -, hout, -⟩ := fieldsHaveTheirWriters i s t ht
  by_contra hne
  obtain rfl | ⟨cap, rfl⟩ | rfl | rfl := hout hne
  · exact hg rfl
  · exact hrd cap rfl
  · exact hi rfl
  · exact hr rfl

/-- 10 R43: of the instructions that come through a port only RX_FRAME, GET_LINE, READ and RESET write the buffers. -/
theorem exec_buf_eq (hi : issuer i ≠ .unit) (hf : ∀ f, i ≠ .rxFrame f) (hg : i ≠ .getLine) (hrd : ∀ cap, i ≠ .read cap)
    (hr : i ≠ .reset) (ht : exec i s = .next t) : t.buf = s.buf := by
  obtain ⟨-, -, -, -, -, -, -, -, -, hbuf, -⟩ := fieldsHaveTheirWriters i s t ht
  by_contra hne
  obtain ⟨f, rfl⟩ | rfl | ⟨cap, rfl⟩ | rfl | rfl | ⟨g, rfl⟩ | rfl := hbuf (.inl hne)
  · exact hf f rfl
  · exact hg rfl
  · exact hrd cap rfl
  · exact hr rfl
  all_goals exact hi rfl

/-- 42 R145: a frame writes the claimed buffer and available ones, so not the one checked out (10 R36). -/
theorem BlockInv.bufAt_out_rxFrame {f : FrameRecord} (hs : BlockInv s) (ho : s.out = some h)
    (ht : exec (.rxFrame f) s = .next t) : t.bufAt h = s.bufAt h := by
  obtain ⟨-, havail, -, hcur⟩ := hs.out_apart ho
  obtain ⟨-, hothers, -⟩ := framesTouchOnlyTheirBuffers s t f ht
  exact hothers h havail hcur

end

/-- Settles O50: only GET_LINE, READ and RESET write `out`; only a frame writes a buffer besides, and never the one
checked out; and the invariant, kept by the input (O51), keeps that one out of AvailableQueue. -/
theorem returnedLineStaysValid : Obligations.ReturnedLineStaysValid := by
  intro s t x h hs ho hx hg hrd hr ht
  have hi := issuer_decode_ne_unit hx
  have hout : t.out = some h := (exec_out_eq hi hg hrd hr ht).trans ho
  obtain ⟨-, havail, -⟩ := (hs.after_exec hi ht).out_apart hout
  refine ⟨hout, ?_, havail⟩
  by_cases hf : ∃ f, decode x = .rxFrame f
  · obtain ⟨f, hf⟩ := hf
    exact hs.bufAt_out_rxFrame ho (hf ▸ ht)
  · have hbuf := exec_buf_eq hi (not_exists.mp hf) hg hrd hr ht
    rw [State.bufAt, State.bufAt, hbuf]

end Sys2Proof.Machine

namespace Sys2Proof.Machine

open Sys2Proof

/-! ### The end-of-stream cut (43 R161) -/

/-- 43 R161: the cut is the index of the first marker, as the library counts it. -/
theorem eosCut_eq_idxOf (eos : Byte) (src : List Byte) : eosCut eos src = src.idxOf eos := by
  induction src with
  | nil => rfl
  | cons b rest ih =>
    by_cases hb : b = eos
    · rw [eosCut, if_pos hb, List.idxOf_cons_eq rest hb]
    · rw [eosCut, if_neg hb, ih, List.idxOf_cons_ne rest hb]

/-- 43 R161: no byte before the cut is the marker. -/
theorem getElem_ne_of_lt_eosCut {eos : Byte} {src : List Byte} {j : Nat} (hj : j < eosCut eos src)
    (hlt : j < src.length) : src[j] ≠ eos := by
  rw [eosCut_eq_idxOf, List.idxOf] at hj
  simpa using List.not_of_lt_findIdx hj

/-- Settles O21: the cut is the library's `idxOf`, which is the least index of the marker, or the length without one. -/
theorem endOfStreamCut : Obligations.EndOfStreamCut := by
  intro eos src
  refine ⟨fun j hj => ?_, fun hmem => ?_, fun hmem => ?_⟩
  · have hlt : j < src.length := hj.trans_le (eosCut_le eos src)
    exact ⟨src[j], List.getElem?_eq_getElem hlt, getElem_ne_of_lt_eosCut hj hlt⟩
  · rw [eosCut_eq_idxOf, List.getElem?_idxOf hmem]
  · rw [eosCut_eq_idxOf, List.idxOf_of_notMem hmem]

/-! ### The chunks of a source (43 R162) -/

section
variable {g : Config} {src : List Byte} {cut k : Nat}

/-- 43 R162: the bytes before chunk `k` and the bytes of chunk `k` are the bytes before chunk `k + 1`. -/
theorem take_append_chunk :
    src.take (min (k * g.p) cut) ++ chunk g src cut k = src.take (min ((k + 1) * g.p) cut) := by
  have hle : k * g.p ≤ (k + 1) * g.p := Nat.mul_le_mul_right _ k.le_succ
  have hbefore : min (k * g.p) (min ((k + 1) * g.p) cut) = min (k * g.p) cut := by
    rw [← min_assoc, min_eq_left hle]
  rw [chunk, sublist, ← hbefore, ← List.take_take, List.take_append_drop]

/-- 43 R162: the first `m` chunks, in order, are the bytes before chunk `m`. -/
theorem flatMap_range_chunk (g : Config) (src : List Byte) (cut m : Nat) :
    (List.range m).flatMap (chunk g src cut) = src.take (min (m * g.p) cut) := by
  induction m with
  | zero => simp
  | succ m ih => rw [List.range_succ, List.flatMap_append, ih, List.flatMap_singleton, take_append_chunk]

/-- 43 R162: all the chunks together reach the cut. -/
theorem le_chunkCount_mul (hp : 1 ≤ g.p) : cut ≤ chunkCount g cut * g.p :=
  Nat.le_of_not_lt fun h => lt_irrefl _ ((lt_ceilDiv_iff hp).mpr h)

/-- 43 R162: with nothing before the cut there is no chunk, and only then. -/
theorem chunkCount_eq_zero_iff (hp : 1 ≤ g.p) : chunkCount g cut = 0 ↔ cut = 0 := by
  have hpos : 0 < chunkCount g cut ↔ 0 * g.p < cut := lt_ceilDiv_iff hp
  omega

/-- 43 R162: a chunk with another one behind it is full. -/
theorem chunk_length_of_not_last (hp : 1 ≤ g.p) (hc : cut ≤ src.length) (hk : k + 1 < chunkCount g cut) :
    (chunk g src cut k).length = g.p := by
  have hnext : (k + 1) * g.p < cut := (lt_ceilDiv_iff hp).mp hk
  rw [chunk_length g src cut k hc, min_eq_left hnext.le, Nat.add_one_mul, Nat.add_sub_cancel_left]

/-- 43 R162: the last chunk ends at the cut. -/
theorem chunk_length_of_last (hp : 1 ≤ g.p) (hc : cut ≤ src.length) (hk : k + 1 = chunkCount g cut) :
    (chunk g src cut k).length = cut - k * g.p := by
  have hend : cut ≤ (k + 1) * g.p := hk ▸ le_chunkCount_mul hp
  rw [chunk_length g src cut k hc, min_eq_right hend]

end

/-- Settles O22: the chunks cut the source at the multiples of `P`, by induction on their number; the length of a chunk
follows from whether the next multiple of `P` is before the cut. -/
theorem chunksCoverTheSource : Obligations.ChunksCoverTheSource := by
  intro g src cut hp hc n
  have hn : chunkCount g cut = n := rfl
  rw [← hn]
  refine ⟨rfl, (chunkCount_eq_zero_iff hp).mpr, ?_, fun k => chunk_length_of_not_last hp hc, fun k hk => ?_,
    fun k i hi => (getElem?_chunk hi).1⟩
  · rw [flatMap_range_chunk, min_eq_right (le_chunkCount_mul hp)]
  · have hlast := chunk_length_of_last hp hc hk
    have hbounds := chunk_length_bounds hp hc (hk ▸ k.lt_succ_self : k < chunkCount g cut)
    exact ⟨hlast, hlast ▸ hbounds⟩

/-! ### What WRITE and TX_ACCEPT give (43 R160, R165) -/

section
variable {s t : State} {src : List Byte} {cut k : Nat}

/-- 43 R160: a write with nothing before the end-of-stream marker. -/
theorem startWrite_of_cut_eq_zero (hcut : eosCut s.cfg.eos src = 0) :
    startWrite src s = s.respond rspZero := if_pos hcut

/-- 43 R160: a write with bytes before the end-of-stream marker. -/
theorem startWrite_of_cut_ne_zero (hcut : eosCut s.cfg.eos src ≠ 0) :
    startWrite src s = { s with tx := .busy src (eosCut s.cfg.eos src) 0 } := if_neg hcut

/-- 43 R160, 44 R187: WRITE with all its bytes and the foreground free. -/
theorem exec_write_of_idle {count : BitVec 28} (hf : s.fault = none) (htx : s.tx = .idle)
    (hl : src.length = count.toNat) : exec (.write count src) s = whenRunning s (.next (startWrite src s)) := by
  show execWrite count src s = _
  rw [execWrite, whenEnabled_foreground hf htx, if_pos hl]

/-- 43 R160: WRITE in phase Running. -/
theorem exec_write_of_running {count : BitVec 28} (hf : s.fault = none) (htx : s.tx = .idle) (hp : s.phase = .running)
    (hl : src.length = count.toNat) : exec (.write count src) s = .next (startWrite src s) := by
  rw [exec_write_of_idle hf htx hl, whenRunning_of_running hp]

/-- 44 R187: WRITE outside Running, whatever bytes follow its word. -/
theorem exec_write_of_not_running (count : BitVec 28) (src : List Byte) (hf : s.fault = none) (htx : s.tx = .idle)
    (hp : s.phase ≠ .running) : exec (.write count src) s = .next (s.mark .notRunning) := by
  show execWrite count src s = _
  rw [execWrite, whenEnabled_foreground hf htx, whenRunning_of_not_running hp]

/-- 43 R165: TX_ACCEPT while a chunk is on offer. -/
theorem exec_txAccept_of_busy (hf : s.fault = none) (htx : s.tx = .busy src cut k) :
    exec .txAccept s = .next (acceptChunk src cut k s) := by
  show execTxAccept s = _
  rw [execTxAccept, whenEnabled_of_enabled (State.enabled_transport.mpr ⟨hf, src, cut, k, htx⟩), htx]

end

/-- Settles O20: the gate of the foreground, the phase gate, and the two ways a write can start. -/
theorem writeCommand : Obligations.WriteCommand := by
  intro s count src hl
  refine ⟨fun t ht => ?_, fun hf htx => ?_⟩
  · obtain ⟨hf, htx, -⟩ := execWrite_next ht
    exact ⟨hf, htx⟩
  · split_ifs with hp hcut
    · exact exec_write_of_not_running count src hf htx hp
    · rw [exec_write_of_running hf htx (not_not.mp hp) hl, startWrite_of_cut_eq_zero hcut, rspZero_eq]
      rfl
    · rw [exec_write_of_running hf htx (not_not.mp hp) hl, startWrite_of_cut_ne_zero hcut]

/-- Settles O23: the gate of the transport, and the two ways an accepted chunk can go on. -/
theorem transmitAccept : Obligations.TransmitAccept := by
  intro s
  refine ⟨fun t ht => ?_, fun src cut k hf htx => ?_⟩
  · obtain ⟨hf, src, cut, k, htx, -⟩ := execTxAccept_next ht
    exact ⟨hf, src, cut, k, htx⟩
  · rw [exec_txAccept_of_busy hf htx]
    intro f
    split_ifs with hlast
    · rw [acceptChunk_last hlast, rspZero_eq]
      rfl
    · rw [acceptChunk_more hlast]
      rfl

/-! ### A write from its command to its last accept (43 R167) -/

section
variable {s t : State}

/-- One instruction after several others. -/
theorem execAll_concat {is : List Instr} (i : Instr) (h : execAll is s = .next t) :
    execAll (is ++ [i]) s = exec i t := by
  induction is generalizing s with
  | nil =>
    cases h
    show execAll [i] t = exec i t
    rw [execAll]
    cases exec i t <;> rfl
  | cons j rest ih =>
    rw [execAll] at h
    rw [List.cons_append, execAll]
    cases hj : exec j s with
    | next u =>
      rw [hj] at h
      exact ih h
    | fault e =>
      rw [hj] at h
      cases h
    | refused r =>
      rw [hj] at h
      cases h

/-- The state once `m` chunks of a write over `src` have been accepted and chunk `m` is on offer (43 R165). -/
def State.offering (s : State) (src : List Byte) (m : Nat) : State :=
  { s with
    tx := .busy src (eosCut s.cfg.eos src) m
    txLog := s.txLog ++ (List.range m).map (chunkFrame s.cfg src (eosCut s.cfg.eos src)) }

/-- The state once all `n` chunks of a write over `src` have been accepted and its response was given (43 R167). -/
def State.written (s : State) (src : List Byte) (n : Nat) : State :=
  { s with
    txLog := s.txLog ++ (List.range n).map (chunkFrame s.cfg src (eosCut s.cfg.eos src))
    rspLog := s.rspLog ++ [0#64] }

variable {count : BitVec 28} {src : List Byte} {m : Nat}

/-- 43 R165: an accepted chunk that is not the last. -/
theorem exec_txAccept_offering (hf : s.fault = none) (hm : m + 1 ≠ chunkCount s.cfg (eosCut s.cfg.eos src)) :
    exec .txAccept (s.offering src m) = .next (s.offering src (m + 1)) := by
  rw [exec_txAccept_of_busy (s := s.offering src m) hf rfl, acceptChunk_more (s := s.offering src m) hm]
  simp [State.offering, List.range_succ]

/-- 43 R165: the last chunk accepted. -/
theorem exec_txAccept_offering_last (hf : s.fault = none) (htx : s.tx = .idle)
    (hm : m + 1 = chunkCount s.cfg (eosCut s.cfg.eos src)) :
    exec .txAccept (s.offering src m) = .next (s.written src (m + 1)) := by
  rw [exec_txAccept_of_busy (s := s.offering src m) hf rfl,
    acceptChunk_last (s := s.offering src m) hm, rspZero_eq]
  simp [State.offering, State.written, State.respond, List.range_succ, htx]

/-- 43 R160, R165: a WRITE and fewer accepts than it has chunks: the next chunk is on offer, and there is no response
yet. -/
theorem execAll_write_accepts (hf : s.fault = none) (htx : s.tx = .idle) (hp : s.phase = .running)
    (hl : src.length = count.toNat) (hm : m < chunkCount s.cfg (eosCut s.cfg.eos src)) (hP : 1 ≤ s.cfg.p) :
    execAll (.write count src :: List.replicate m .txAccept) s = .next (s.offering src m) := by
  induction m with
  | zero =>
    have hcut : eosCut s.cfg.eos src ≠ 0 := fun h0 => hm.ne' ((chunkCount_eq_zero_iff hP).mpr h0)
    show execAll ([] ++ [.write count src]) s = _
    rw [execAll_concat _ rfl, exec_write_of_running hf htx hp hl, startWrite_of_cut_ne_zero hcut]
    simp [State.offering]
  | succ m ih =>
    rw [List.replicate_succ', ← List.cons_append, execAll_concat _ (ih (by omega)), exec_txAccept_offering hf hm.ne]

end

/-- Settles O25: by induction on the accepts up to the last chunk; the accept of the last one, or the WRITE itself where
there is no chunk, gives the response. -/
theorem writeCompletesAfterItsChunks : Obligations.WriteCompletesAfterItsChunks := by
  intro s count src hv hf htx hp hl cut n
  obtain ⟨-, -, -, hP, -⟩ := Config.bounds_of_valid hv
  have hn : chunkCount s.cfg (eosCut s.cfg.eos src) = n := rfl
  refine ⟨fun m hm => execAll_write_accepts hf htx hp hl hm hP, ?_⟩
  cases hcount : n with
  | zero =>
    have hcut : eosCut s.cfg.eos src = 0 := (chunkCount_eq_zero_iff hP).mp (hn.trans hcount)
    show execAll ([] ++ [.write count src]) s = _
    rw [execAll_concat _ rfl, exec_write_of_running hf htx hp hl, startWrite_of_cut_eq_zero hcut, rspZero_eq]
    simp [State.respond]
  | succ m =>
    have hlast : m + 1 = chunkCount s.cfg (eosCut s.cfg.eos src) := (hn.trans hcount).symm
    rw [List.replicate_succ', ← List.cons_append,
      execAll_concat _ (execAll_write_accepts hf htx hp hl (hlast ▸ m.lt_succ_self) hP)]
    exact exec_txAccept_offering_last hf htx hlast

/-! ### The chunker and the pool (43 R171) -/

/-- Two states that are the same to the chunker: the configuration, the phase, the mark, and what WRITE and TX_ACCEPT
write (10 R43). -/
structure ChunkerAgrees (s s' : State) : Prop where
  cfg    : s'.cfg = s.cfg
  phase  : s'.phase = s.phase
  tx     : s'.tx = s.tx
  fault  : s'.fault = s.fault
  txLog  : s'.txLog = s.txLog
  rspLog : s'.rspLog = s.rspLog

section
variable {s s' t : State}

theorem ChunkerAgrees.after_mark (h : ChunkerAgrees s s') (r : FaultReason) : ChunkerAgrees (s.mark r) (s'.mark r) where
  __ := h
  fault := rfl

theorem ChunkerAgrees.after_respond (h : ChunkerAgrees s s') (r : BitVec 64) :
    ChunkerAgrees (s.respond r) (s'.respond r) where
  __ := h
  rspLog := congrArg (· ++ [r]) h.rspLog

theorem ChunkerAgrees.withTx {x x' : TxState} (h : ChunkerAgrees s s') (hx : x' = x) :
    ChunkerAgrees { s with tx := x } { s' with tx := x' } where
  __ := h
  tx := hx

theorem ChunkerAgrees.after_log {f f' : Frame} (h : ChunkerAgrees s s') (hf : f' = f) :
    ChunkerAgrees { s with txLog := s.txLog ++ [f] } { s' with txLog := s'.txLog ++ [f'] } where
  __ := h
  txLog := by rw [h.txLog, hf]

/-- 43 R160: how a write starts depends on the configuration alone. -/
theorem ChunkerAgrees.after_startWrite (h : ChunkerAgrees s s') (src : List Byte) :
    ChunkerAgrees (startWrite src s) (startWrite src s') := by
  have heq : eosCut s'.cfg.eos src = eosCut s.cfg.eos src := by rw [h.cfg]
  by_cases hcut : eosCut s.cfg.eos src = 0
  · rw [startWrite_of_cut_eq_zero hcut, startWrite_of_cut_eq_zero (heq.trans hcut)]
    exact h.after_respond _
  · rw [startWrite_of_cut_ne_zero hcut, startWrite_of_cut_ne_zero (heq ▸ hcut)]
    exact h.withTx (by rw [heq])

/-- 43 R165: what an accept does depends on the configuration and on its own chunk alone. -/
theorem ChunkerAgrees.after_acceptChunk (h : ChunkerAgrees s s') (src : List Byte) (cut k : Nat) :
    ChunkerAgrees (acceptChunk src cut k s) (acceptChunk src cut k s') := by
  have hframe : chunkFrame s'.cfg src cut k = chunkFrame s.cfg src cut k := by rw [h.cfg]
  have hcount : chunkCount s'.cfg cut = chunkCount s.cfg cut := by rw [h.cfg]
  have hlogged := h.after_log hframe
  by_cases hk : k + 1 = chunkCount s.cfg cut
  · rw [acceptChunk_last hk, acceptChunk_last (hk.trans hcount.symm)]
    exact (hlogged.withTx rfl).after_respond _
  · rw [acceptChunk_more hk, acceptChunk_more (hcount ▸ hk)]
    exact hlogged.withTx rfl

/-- 43 R171: WRITE in two states that are the same to the chunker. -/
theorem ChunkerAgrees.exec_write {count : BitVec 28} {src : List Byte} (h : ChunkerAgrees s s')
    (ht : exec (.write count src) s = .next t) :
    ∃ t', exec (.write count src) s' = .next t' ∧ ChunkerAgrees t t' := by
  obtain ⟨hf, htx, ⟨hp, hl, rfl⟩ | ⟨hp, rfl⟩⟩ := execWrite_next ht
  · exact ⟨_, exec_write_of_running (h.fault.trans hf) (h.tx.trans htx) (h.phase.trans hp) hl, h.after_startWrite src⟩
  · exact ⟨_, exec_write_of_not_running count src (h.fault.trans hf) (h.tx.trans htx) (h.phase ▸ hp), h.after_mark _⟩

/-- 43 R171: TX_ACCEPT in two states that are the same to the chunker. -/
theorem ChunkerAgrees.exec_txAccept (h : ChunkerAgrees s s') (ht : exec .txAccept s = .next t) :
    ∃ t', exec .txAccept s' = .next t' ∧ ChunkerAgrees t t' := by
  obtain ⟨hf, src, cut, k, htx, rfl⟩ := execTxAccept_next ht
  exact ⟨_, exec_txAccept_of_busy (h.fault.trans hf) (h.tx.trans htx), h.after_acceptChunk src cut k⟩

/-- 43 R171: the chunker's inputs leave the fields of the pool as they are. -/
theorem chunker_leaves_pool {i : Instr} (hi : i = .txAccept ∨ ∃ c b, i = .write c b) (ht : exec i s = .next t) :
    t.buf = s.buf ∧ t.availQ = s.availQ ∧ t.readyQ = s.readyQ ∧ t.cur = s.cur ∧ t.cursor = s.cursor ∧
      t.out = s.out := by
  rcases hi with rfl | ⟨c, b, rfl⟩
  · rw [execTxAccept_frame ht]
    exact ⟨rfl, rfl, rfl, rfl, rfl, rfl⟩
  · rw [execWrite_frame ht]
    exact ⟨rfl, rfl, rfl, rfl, rfl, rfl⟩

end

/-- Settles O26: the pool's fields are outside the frames of the two inputs, and states that are the same to the chunker
stay so across them. -/
theorem chunkerIsIndependentOfThePool : Obligations.ChunkerIsIndependentOfThePool := by
  intro i s s' t hi hcfg hphase htx hfault htxLog hrspLog ht
  have hsame : ChunkerAgrees s s' := ⟨hcfg, hphase, htx, hfault, htxLog, hrspLog⟩
  refine ⟨chunker_leaves_pool hi ht, ?_⟩
  have hrun : ∃ t', exec i s' = .next t' ∧ ChunkerAgrees t t' := by
    rcases hi with rfl | ⟨c, b, rfl⟩
    · exact hsame.exec_txAccept ht
    · exact hsame.exec_write ht
  obtain ⟨t', ht', hagrees⟩ := hrun
  exact ⟨t', ht', hagrees.tx, hagrees.txLog, hagrees.rspLog, hagrees.fault⟩

end Sys2Proof.Machine

namespace Sys2Proof.Machine

open Sys2Proof

/-! ### INIT (44 R185, R186) -/

section
variable {s : State} {st : Byte} {rest : List Byte}

/-- 44 R186, log entry 5: the outcome of INIT is the first waiting answer. -/
theorem initOutcome_of_cons (ha : s.initAnswers = st :: rest) : initOutcome s = st := by
  rw [initOutcome, ha]

/-- 44 R186, log entry 5: INIT consumes the first waiting answer. -/
theorem takeOutcome_of_cons (ha : s.initAnswers = st :: rest) : takeOutcome s = { s with initAnswers := rest } := by
  rw [takeOutcome, ha]

/-- 44 R186, log entry 5: with no answer waiting INIT consumes a draw. -/
theorem takeOutcome_of_nil (ha : s.initAnswers = []) : takeOutcome s = { s with draws := s.draws + 1 } := by
  rw [takeOutcome, ha]

/-- 44 R185: INIT in phase Uninit, with the foreground free. -/
theorem exec_init_of_uninit (hf : s.fault = none) (htx : s.tx = .idle) (hp : s.phase = .uninit) :
    exec .init s = .next (State.respond { takeOutcome s with phase := phaseAfterInit (initOutcome s) }
      (initOutcome s ++ 0#56)) := by
  show execInit s = _
  rw [execInit, whenEnabled_foreground hf htx, if_pos hp, rspStatus_eq]

/-- 44 R187: INIT in any other phase. -/
theorem exec_init_of_not_uninit (hf : s.fault = none) (htx : s.tx = .idle) (hp : s.phase ≠ .uninit) :
    exec .init s = .next (s.mark .reInit) := by
  show execInit s = _
  rw [execInit, whenEnabled_foreground hf htx, if_neg hp, raiseFault]

end

/-- Settles O16: the phase decides between the response and the mark; the outcome is the answer at the port. -/
theorem initCommand : Obligations.InitCommand := by
  intro s st rest hf htx ha
  by_cases hp : s.phase = .uninit
  · rw [if_pos hp, exec_init_of_uninit hf htx hp, initOutcome_of_cons ha, takeOutcome_of_cons ha]
    rfl
  · rw [if_neg hp]
    exact exec_init_of_not_uninit hf htx hp

/-- Settles O17: the outcome is what INIT draws. -/
theorem initDrawsAFreeOutcome : Obligations.InitDrawsAFreeOutcome := by
  intro s hf htx hp ha
  refine ⟨initOutcome s, ?_⟩
  rw [exec_init_of_uninit hf htx hp, takeOutcome_of_nil ha]
  rfl

/-! ### The phase gate and the illegal words (44 R187, R189) -/

/-- 44 R189: an illegal word with the foreground free, in every phase. -/
theorem exec_illegalCmd {s : State} (op : BitVec 4) (arg : BitVec 28) (hf : s.fault = none) (htx : s.tx = .idle) :
    exec (.illegalCmd op arg) s = .next (s.mark .illegalCommand) := whenEnabled_foreground hf htx

/-- Settles O18: each of the four commands comes to `whenRunning`; INIT asks its own phase, an illegal word none. -/
theorem phaseGate : Obligations.PhaseGate := by
  intro s hf htx
  refine ⟨fun i hi hp => ?_, exec_init_of_not_uninit hf htx, fun op arg => exec_illegalCmd op arg hf htx⟩
  have hgate {k : Host.Outcome State Fault Refusal} : whenRunning s k = .next (s.mark .notRunning) :=
    whenRunning_of_not_running hp
  obtain rfl | ⟨count, src, rfl⟩ | ⟨cap, rfl⟩ | ⟨k, rfl⟩ := hi
  · exact (exec_getLine_of_idle hf htx).trans hgate
  · exact exec_write_of_not_running count src hf htx hp
  · exact (exec_read_of_idle cap hf htx).trans hgate
  · exact (exec_lineByte_of_idle k hf htx).trans hgate

/-- 30 R73, R89: the command words that are reserved. -/
theorem reservedCmd_eq_true_iff {op : BitVec 4} {arg : BitVec 28} :
    reservedCmd op arg = true ↔ op = 0 ∨ 6 ≤ op.toNat ∨ ((op = 1 ∨ op = 3) ∧ arg ≠ 0) := by
  rw [← Bool.not_eq_false, reservedCmd_eq_false_iff]
  simp only [← BitVec.toNat_inj (x := op)]
  by_cases harg : arg = 0#28
  · simp [harg]
    omega
  · simp [harg]
    omega

/-- Settles O19: the words listed are the reserved ones, which the decoder passes on as illegal. -/
theorem illegalWordsFault : Obligations.IllegalWordsFault := by
  intro s op arg src hw
  refine ⟨decode_cmdInput_of_reserved (reservedCmd_eq_true_iff.mpr hw), fun t ht => ?_, exec_illegalCmd op arg⟩
  obtain ⟨hf, htx, -⟩ := execIllegalCmd_next (op := op) (arg := arg) ht
  exact ⟨hf, htx⟩

/-! ### The identity filter (44 R181 to R183) -/

/-- Settles O35: a frame that fails one of the filter's three conditions does not pass, and then RX_FRAME does nothing. -/
theorem unmatchedFramesHaveNoEffect : Obligations.UnmatchedFramesHaveNoEffect := by
  intro s f
  have hiff : passesFilter s.cfg (frameOf f) = true ↔
      f.rtr = false ∧ f.ide = decide (0x7FF < s.cfg.rxId.toNat) ∧ f.id = s.cfg.rxId := passesFilter_iff s.cfg (frameOf f)
  refine ⟨hiff, fun hf hp hok hbad => exec_rxFrame_of_filtered hf hp hok fun hpass => ?_⟩
  obtain ⟨hrtr, hide, hid⟩ := hiff.mp hpass
  obtain hbad | hbad | hbad := hbad
  · exact absurd (hrtr.symm.trans hbad) Bool.false_ne_true
  · exact hbad hide
  · exact hbad hid

end Sys2Proof.Machine

namespace Sys2Proof.Machine

open Sys2Proof

/-! ### Steps that wait (60 R208, R211) -/

section
variable {s : State}

/-- 60 R211: where every waiting input is held, none is picked. -/
theorem nextInput_of_held {xs : List Input} (hheld : ∀ p y q, xs = p ++ y :: q → s.held p y) :
    nextInput s [] xs = none := by
  have hover := nextInput_append (passed := []) (rest := []) fun p y q hq => (hheld p y q hq).imp_right .inr
  rwa [List.append_nil] at hover

/-- 60 R208: with no input picked the block waits. -/
theorem step_of_nextInput_none (hv : s.cfg.valid = true) (hf : s.fault = none)
    (h : nextInput s [] s.inputs = none) : step s = .next s := by
  simp [step, fetch, hv, hf, h]

end

/-- Settles O7: held inputs are passed over, so none is picked and the block waits. -/
theorem stepWaitsWhileNothingIsEnabled : Obligations.StepWaitsWhileNothingIsEnabled := fun _ hv hf hheld =>
  step_of_nextInput_none hv hf (nextInput_of_held hheld)

/-! ### Every instruction with a step completes (60 R205, R207) -/

section
variable {s : State}

/-- 60 R205: an operation completes, be it with the mark. -/
theorem complete_completes (r : Except FaultReason State) : ∃ t, complete s r = .next t := by
  cases r with
  | ok u => exact ⟨u, complete_ok u⟩
  | error e => exact ⟨s.mark e, complete_error e⟩

/-- 44 R187: the phase gate lets an operation complete, or marks. -/
theorem whenRunning_complete_completes (r : Except FaultReason State) :
    ∃ t, whenRunning s (complete s r) = .next t := by
  by_cases hp : s.phase = .running
  · rw [whenRunning_of_running hp]
    exact complete_completes r
  · exact ⟨_, whenRunning_of_not_running hp⟩

/-- 40 R107: a PUBLISH that errs faults. -/
theorem exec_publish_of_error {h : BitVec 13} {e : FaultReason} (hf : s.fault = none)
    (he : publish h.toNat s = .error e) : exec (.publish h) s = .next (s.mark e) := by
  show whenEnabled .unit s _ = _
  rw [whenEnabled_unit hf, he]
  rfl

/-- 40 R107: a RELEASE that errs faults. -/
theorem exec_release_of_error {h : BitVec 13} {e : FaultReason} (hf : s.fault = none)
    (he : release h.toNat s = .error e) : exec (.release h) s = .next (s.mark e) := by
  show whenEnabled .unit s _ = _
  rw [whenEnabled_unit hf, he]
  rfl

/-- 40 R107: a RECYCLE_FETCH that errs faults. -/
theorem exec_recycleFetch_of_error {e : FaultReason} (hf : s.fault = none) (he : recycleFetch s = .error e) :
    exec .recycleFetch s = .next (s.mark e) := by
  show whenEnabled .unit s _ = _
  rw [whenEnabled_unit hf, he]
  rfl

/-- 44 R185, R187: with the foreground free INIT completes in every phase. -/
theorem exec_init_completes (hf : s.fault = none) (htx : s.tx = .idle) : ∃ t, exec .init s = .next t := by
  by_cases hp : s.phase = .uninit
  · exact ⟨_, exec_init_of_uninit hf htx hp⟩
  · exact ⟨_, exec_init_of_not_uninit hf htx hp⟩

/-- 30 R77, 44 R187: with the foreground free WRITE completes outside Running, and in Running with its bytes. -/
theorem exec_write_completes {count : BitVec 28} {src : List Byte} (hf : s.fault = none) (htx : s.tx = .idle)
    (hsrc : s.phase ≠ .running ∨ src.length = count.toNat) : ∃ t, exec (.write count src) s = .next t := by
  by_cases hp : s.phase = .running
  · exact ⟨_, exec_write_of_running hf htx hp (hsrc.resolve_left (not_not_intro hp))⟩
  · exact ⟨_, exec_write_of_not_running count src hf htx hp⟩

/-- 41 R129: while Running every record completes, malformed, filtered out or assembled. -/
theorem exec_rxFrame_completes (f : FrameRecord) (hf : s.fault = none) (hp : s.phase = .running) :
    ∃ t, exec (.rxFrame f) s = .next t := by
  by_cases hok : recordOk s.cfg f = true
  · by_cases hpass : passesFilter s.cfg (frameOf f) = true
    · rw [exec_rxFrame_of_passes hf hp hok hpass]
      exact complete_completes _
    · exact ⟨s, exec_rxFrame_of_filtered hf hp hok hpass⟩
  · exact ⟨_, exec_rxFrame_of_malformed hf hp hok⟩

/-- 40 R106: a request on the arbiter's line completes wherever no mark is set. -/
theorem exec_unit_completes {i : Instr} (hi : issuer i = .unit) (hf : s.fault = none) : ∃ t, exec i s = .next t := by
  cases i with
  | acquire =>
    cases hq : s.availQ with
    | nil => exact ⟨_, exec_acquire_of_nil hf hq⟩
    | cons h rest => exact ⟨_, exec_acquire_of_cons hf hq⟩
  | publish h =>
    cases hr : publish h.toNat s with
    | error e => exact ⟨_, exec_publish_of_error hf hr⟩
    | ok t => exact ⟨_, exec_publish_of_ok hf hr⟩
  | release h =>
    cases hr : release h.toNat s with
    | error e => exact ⟨_, exec_release_of_error hf hr⟩
    | ok t => exact ⟨_, exec_release_of_ok hf hr⟩
  | takeReady =>
    cases hq : s.readyQ with
    | nil => exact ⟨_, exec_takeReady_of_nil hf hq⟩
    | cons h rest => exact ⟨_, exec_takeReady_of_cons hf hq⟩
  | recycleFetch =>
    cases hr : recycleFetch s with
    | error e => exact ⟨_, exec_recycleFetch_of_error hf hr⟩
    | ok p => exact ⟨_, exec_recycleFetch_of_ok hf hr⟩
  | arbReserved aop h => exact ⟨_, exec_arbReserved aop h hf⟩
  | _ => cases hi

/-- 30 R77: a command with the foreground free completes, once everything that belongs to it has arrived. -/
theorem exec_foreground_completes {i : Instr} (hi : issuer i = .foreground) (hf : s.fault = none) (htx : s.tx = .idle)
    (hsrc : s.phase ≠ .running ∨ sourceArrived i = true) : ∃ t, exec i s = .next t := by
  cases i with
  | init => exact exec_init_completes hf htx
  | write count src => exact exec_write_completes hf htx (hsrc.imp_right of_decide_eq_true)
  | getLine => exact exec_getLine_of_idle hf htx ▸ whenRunning_complete_completes _
  | read cap => exact exec_read_of_idle cap hf htx ▸ whenRunning_complete_completes _
  | lineByte k => exact exec_lineByte_of_idle k hf htx ▸ whenRunning_complete_completes _
  | illegalCmd op arg => exact ⟨_, exec_illegalCmd op arg hf htx⟩
  | _ => cases hi

/-- 60 R207: an instruction whose agent has a step completes, a WRITE in Running once its bytes have arrived. -/
theorem exec_completes {i : Instr} (he : s.enabled (issuer i) = true)
    (hsrc : s.phase ≠ .running ∨ sourceArrived i = true) : ∃ t, exec i s = .next t := by
  have hf : s.fault = none := State.fault_of_enabled he
  cases hi : issuer i with
  | foreground => exact exec_foreground_completes hi hf (State.enabled_foreground.mp (hi ▸ he)).2 hsrc
  | unit => exact exec_unit_completes hi hf
  | interrupt =>
    cases i with
    | rxFrame f => exact exec_rxFrame_completes f hf (State.enabled_interrupt.mp he).2
    | _ => cases hi
  | transport =>
    cases i with
    | txAccept =>
      obtain ⟨-, src, cut, k, htx⟩ := State.enabled_transport.mp he
      exact ⟨_, exec_txAccept_of_busy hf htx⟩
    | _ => cases hi
  | platform =>
    cases i with
    | reset => exact ⟨_, exec_reset_of_no_fault hf⟩
    | _ => cases hi

/-- 60 R211: an input that has a step completes; which inputs wait beside it is no matter. -/
theorem exec_decode_of_ready {x : Input} (hx : s.ready x = true) (left : List Input) :
    ∃ t, exec (decode x) { s with inputs := left } = .next t := by
  simp only [State.ready, Bool.and_eq_true, Bool.or_eq_true, decide_eq_true_eq] at hx
  obtain ⟨he, hsrc⟩ := hx
  rw [← issuer_decode] at he
  exact exec_completes (s := { s with inputs := left }) he hsrc

end

/-- Settles O8: a step waits, or performs an input that is picked, and only an input that has a step is picked. -/
theorem everyStepCompletes : Obligations.EveryStepCompletes := by
  intro s hv hf
  cases hnext : nextInput s [] s.inputs with
  | none => exact ⟨s, step_of_nextInput_none hv hf hnext⟩
  | some picked =>
    obtain ⟨x, left⟩ := picked
    obtain ⟨pre, post, -, -, hready, -⟩ := nextInput_some hnext
    rw [step_of_nextInput hv hf hnext]
    exact exec_decode_of_ready hready left

/-! ### Faults (60 R205, R206) -/

section
variable {s t : State}

/-- A next state comes from a state without a mark. -/
theorem fault_of_exec_next {i : Instr} (ht : exec i s = .next t) : s.fault = none := by
  obtain ⟨k, hk⟩ := exec_gated i s
  exact State.fault_of_enabled (whenEnabled_next (hk ▸ ht)).1

@[simp] theorem takeOutcome_fault : (takeOutcome s).fault = s.fault := by
  rw [takeOutcome_frame]

@[simp] theorem startWrite_fault (src : List Byte) : (startWrite src s).fault = s.fault := by
  unfold startWrite
  split <;> rfl

theorem recycleFetch_fault {r : Option Nat} (ht : recycleFetch s = .ok (r, t)) : t.fault = s.fault := by
  rw [recycleFetch_frame ht]

/-- 60 R205: an instruction raises a fault, which is the mark and nothing else, or leaves the mark as it is. -/
theorem exec_marks_or_keeps_fault {i : Instr} (ht : exec i s = .next t) :
    (∃ r, t = s.mark r) ∨ t.fault = s.fault := by
  cases i with
  | init =>
    obtain ⟨-, -, ⟨-, rfl⟩ | ⟨-, rfl⟩⟩ := execInit_next ht
    · exact .inr takeOutcome_fault
    · exact .inl ⟨_, rfl⟩
  | write count src =>
    obtain ⟨-, -, ⟨-, -, rfl⟩ | ⟨-, rfl⟩⟩ := execWrite_next (count := count) (src := src) ht
    · exact .inr (startWrite_fault src)
    · exact .inl ⟨_, rfl⟩
  | getLine =>
    obtain ⟨e, rfl⟩ | ⟨r, u, w, hu, rfl⟩ := execGetLine_pool ht
    · exact .inl ⟨e, rfl⟩
    · exact .inr (recycleFetch_fault (t := u) hu)
  | read cap =>
    obtain ⟨e, rfl⟩ | ⟨r, u, d, w, hu, -, rfl⟩ := execRead_pool (cap := cap) ht
    · exact .inl ⟨e, rfl⟩
    · exact .inr (recycleFetch_fault (t := u) hu)
  | lineByte k =>
    obtain ⟨-, -, hok | hmark⟩ := execLineByte_next (i := k) ht
    · obtain ⟨g, len, b, -, -, -, -, rfl⟩ := lineByte_ok hok
      exact .inr rfl
    · exact .inl hmark
  | illegalCmd op arg => exact .inl ⟨_, (execIllegalCmd_next (op := op) (arg := arg) ht).2.2⟩
  | rxFrame f =>
    obtain ⟨-, -, ⟨-, rfl⟩ | ⟨-, -, rfl⟩ | ⟨-, -, hok | ⟨e, -, rfl⟩⟩⟩ := execRxFrame_next (f := f) ht
    · exact .inl ⟨_, rfl⟩
    · exact .inr rfl
    · exact .inr (assembleFrame_fault hok)
    · exact .inl ⟨e, rfl⟩
  | txAccept => exact .inr (by rw [execTxAccept_frame ht])
  | reset => exact .inr (by rw [execReset_frame ht])
  | acquire => exact .inr (by rw [execAcquire_frame ht])
  | publish h =>
    obtain ⟨-, ⟨e, -, rfl⟩ | ⟨u, hu, rfl⟩⟩ := execPublish_next (h := h) ht
    · exact .inl ⟨e, rfl⟩
    · exact .inr (by rw [publish_frame hu, State.reply_fault])
  | release h =>
    obtain ⟨-, ⟨e, -, rfl⟩ | ⟨u, hu, rfl⟩⟩ := execRelease_next (h := h) ht
    · exact .inl ⟨e, rfl⟩
    · exact .inr (by rw [release_frame hu, State.reply_fault])
  | takeReady => exact .inr (by rw [execTakeReady_frame ht])
  | recycleFetch =>
    obtain ⟨-, ⟨e, -, rfl⟩ | ⟨r, u, hu, rfl⟩⟩ := execRecycleFetch_next ht
    · exact .inl ⟨e, rfl⟩
    · exact .inr (recycleFetch_fault (t := u) hu)
  | arbReserved aop h => exact .inl ⟨_, (execArbReserved_next (aop := aop) (h := h) ht).2⟩

end

/-- Settles O57: the gate asks for no mark, and an instruction after which there is one has raised it. -/
theorem faultsChangeOnlyTheMark : Obligations.FaultsChangeOnlyTheMark := by
  intro i s t ht
  have hf : s.fault = none := fault_of_exec_next ht
  exact ⟨hf, fun hmark => (exec_marks_or_keeps_fault ht).resolve_right fun hkeep => hmark (hkeep.trans hf)⟩

end Sys2Proof.Machine
